-- ==== Sys2Proof/Word.lean ====
section
/-! DEFINITION. The widths of the machine's words (spec 00_scope.md R7, R8) and its bit strings (R9). -/

namespace Sys2Proof

/-- A bus word, a register, a FREQ count, a command word (R7: `BUS_DATA_BITS`, `COUNT_BITS`). -/
abbrev Word := BitVec 32

/-- A symbol, a payload byte, a code length (R6, R7: `SYMBOL_BITS`, `HEADER_BITS`, `LEN_BITS`). -/
abbrev Byte := BitVec 8

/-- A byte address on the host bus, an offset from `HC_BASE` (R7: `BUS_ADDR_BITS`; R89). -/
abbrev Addr := BitVec 24

/-- A node weight (R7: `WEIGHT_BITS`). -/
abbrev Weight := BitVec 40

/-- A node index (R7: `NODE_IDX_BITS`). -/
abbrev NodeIdx := BitVec 9

/-- The code field of a CODE entry (R52). -/
abbrev CodeField := BitVec 256

/-- A bit string, first bit first (R9). The empty list is the spec's `ε`, `++` is concatenation,
`List.length` is `|b|` and `List.take n b` is `take(b, n)`. -/
abbrev Bits := List Bool

end Sys2Proof
end

