-- ==== Sys2Proof/Config.lean ====
section
/-! DEFINITION. The free values: what the spec leaves open and the machine goes on with. Each is a
constant without a body, so no proof can see what it is. -/

namespace Sys2Proof.Config

/-- The byte `SYM[i]` holds after the `n`-th hardware reset until it is written: any value, drawn once
at reset (R54, R60, R290; 93 U1). Log 5. -/
opaque symAtReset : (n i : Nat) → Byte

/-- The byte `PAY[i]` holds after the `n`-th hardware reset until it is written: any value, drawn once
at reset (R55, R60, R290; 93 U1). Log 5. -/
opaque payAtReset : (n i : Nat) → Byte

/-- The word an unspecified read while BUSY = 1 draws, afresh for each read: the argument counts the
draws (R93; 93 U2). Log 7. -/
opaque busyWord : (draw : Nat) → Word

/-- Whether a busy host write to an UNUSED word of a window, at this word address, sets OVERRUN. R92
counts such a word both as part of a window (sets it) and as a reserved address (does not). Log 8. -/
opaque unusedWordOverruns : (wordAddress : Nat) → Bool

end Sys2Proof.Config
end

