-- ==== Sys2Proof/Syntax.lean ====
section
/-! DEFINITION. The commands of HUFF-CORE, one constructor per row of spec/opcode_table.json. -/

namespace Sys2Proof

/-- The eight commands of the opcode map (R113). None has an operand field: every operand is implicit
(R115). -/
inductive Instr where
  | nop
  | count
  | build
  | gen
  | encode
  | decode
  | tableCommit
  | compress
  deriving DecidableEq, Repr

end Sys2Proof
end

