-- ==== Sys2Proof/WellFormed.lean ====
section
/-! DEFINITION. The format CMD32 and what makes a word of it one of the eight commands (R110, R114). The
commands themselves have no operand (R115), so every check is a check of the word. -/

namespace Sys2Proof

/-- A command word read as its two fields (R110): RSV is bits 31:8, OP is bits 7:0. -/
structure Cmd32 where
  rsv : BitVec 24
  op  : Byte
  deriving DecidableEq, Repr

/-- RSV must be 0 (R110). -/
def Cmd32.rsvOk (c : Cmd32) : Bool := c.rsv == 0

/-- OP must be one of the eight opcodes 0x00 to 0x07 (R113, R114). -/
def Cmd32.opOk (c : Cmd32) : Bool := c.op.toNat < 8

/-- Every word is one of the eight commands or illegal, and it is a command exactly when both checks
pass (R114). -/
def Cmd32.wellFormed (c : Cmd32) : Bool := c.rsvOk && c.opOk

end Sys2Proof
end

