-- ==== Sys2Proof/Decode.lean ====
section
/-! DEFINITION. The decoder of command words, total over all 2^32 words (R112), and after it the encoder
(R113). -/

namespace Sys2Proof

/-- Why a word is no command (R114). Both reasons end in the same completion code, ILLEGAL_COMMAND
(R268). -/
inductive DecodeError where
  | reservedBitsSet
  | opcodeOutOfRange
  deriving DecidableEq, Repr

/-- The fields of a command word (R110). -/
def Cmd32.ofWord (w : Word) : Cmd32 := { rsv := w.extractLsb' 8 24, op := w.extractLsb' 0 8 }

/-- The word that has these fields (R110). -/
def Cmd32.toWord (c : Cmd32) : Word := c.rsv ++ c.op

/-- The command of an opcode, `none` for 0x08 to 0xFF (R112, R113). -/
def ofOpcode (op : Byte) : Option Instr :=
  match op.toNat with
  | 0 => some .nop
  | 1 => some .count
  | 2 => some .build
  | 3 => some .gen
  | 4 => some .encode
  | 5 => some .decode
  | 6 => some .tableCommit
  | 7 => some .compress
  | _ => none

/-- Decode a latched command word (R112): RSV is checked first, then OP selects the command. -/
def decode (w : Word) : Except DecodeError Instr :=
  if (Cmd32.ofWord w).rsvOk then
    match ofOpcode (Cmd32.ofWord w).op with
    | some i => .ok i
    | none   => .error .opcodeOutOfRange
  else
    .error .reservedBitsSet

/-- The opcode of each command (R113). -/
def Instr.opcode : Instr → Byte
  | .nop         => 0x00
  | .count       => 0x01
  | .build       => 0x02
  | .gen         => 0x03
  | .encode      => 0x04
  | .decode      => 0x05
  | .tableCommit => 0x06
  | .compress    => 0x07

/-- The fields of a command's word (R110, R113). -/
def Instr.cmd32 (i : Instr) : Cmd32 := { rsv := 0, op := i.opcode }

/-- A command is well formed when its word is. -/
def Instr.wellFormed (i : Instr) : Bool := i.cmd32.wellFormed

/-- The word of a command (R110, R113). -/
def encode (i : Instr) : Word := i.cmd32.toWord

/-- A table row's bits as the command word CMD receives: the `nbits` low bits of `w`, every bit above
them 0. A command is one 32-bit word written whole (R110, R111), so its bits need no byte order. -/
def tableWord (nbits w : Nat) : Word := BitVec.ofNat 32 (w % 2 ^ nbits)

/-- The command the decoder reads from a row of `nbits` bits `w`. The only format has 32 bits (R110):
a longer row is no command. -/
def decodeTableWord (nbits w : Nat) : Option Instr :=
  if nbits ≤ 32 then
    match decode (tableWord nbits w) with
    | .ok i    => some i
    | .error _ => none
  else
    none

end Sys2Proof
end

