-- ==== Sys2Proof/Machine/State.lean ====
section
/-! DEFINITION. Everything the spec gives the machine, as plain data (10_state.md), the events that act on
it (20_memory.md R90, R91), and the state after hardware reset (R60, R290). -/

namespace Sys2Proof.Machine

/-- The nine completion codes (R260). -/
inductive ErrCode where
  | none
  | emptyInput
  | packing
  | corruptData
  | missingCodeTable
  | capacity
  | tableFormat
  | sequence
  | illegalCommand
  deriving DecidableEq, Repr

/-- An entry of the node arena (R51). -/
structure Node where
  isLeaf : Bool
  sym    : Byte
  weight : Weight
  left   : NodeIdx
  right  : NodeIdx
  deriving DecidableEq, Repr

/-- The all-zero entry (R51, R60). -/
def Node.zero : Node := { isLeaf := false, sym := 0, weight := 0, left := 0, right := 0 }

/-- An entry of the code table (R52). `len = 0` means the symbol has no code. -/
structure CodeEntry where
  len   : Byte
  field : CodeField
  deriving DecidableEq, Repr

/-- The entry of a symbol that has no code (R52, R60). -/
def CodeEntry.empty : CodeEntry := { len := 0, field := 0 }

/-- One host-bus transaction (R80). -/
inductive Transaction where
  | read  (a : Addr)
  | write (a : Addr) (d : Word)
  deriving DecidableEq, Repr

/-- One event of the single total order of R91, or the host's polling loop. -/
inductive Event where
  /-- The host issues one transaction (R80). -/
  | bus (t : Transaction)
  /-- The host repeats a STATUS read until bit 0 of the result is 0 (R118, `WAIT`). -/
  | wait
  /-- The engine takes its step, if it is enabled (R90). -/
  | engine
  /-- The reset input is asserted and released (R290). -/
  | hardReset
  deriving DecidableEq, Repr

/-- The written bytes of a buffer: pairs of index and byte, indexes strictly rising. An index not
listed holds no written value: its byte is then the free value of the last hardware reset (R60; 93 U1).
Log 6. -/
abbrev Memory := List Host.Cell

/-- Why a step stops. -/
inductive Fault where
  /-- GEN with TREE_VALID = 1 meets a NODE arena in which the walk of R180 leaves the arena or goes
  deeper than 255 edges. R62 (1) says no run reaches such a state, and R180 gives it no effect. Raised
  by `genBody`. Safe: the model stops. Log 11. -/
  | nodeArenaIsNoTree
  deriving DecidableEq, Repr

/-- Why an instruction has no meaning. -/
inductive Refusal where
  /-- The instruction is not modelled. Raised by an arm of `exec` only; no arm does. Safe. -/
  | notModelled (mnemonic : String)
  deriving DecidableEq, Repr

/-- The state of HUFF-CORE (10_state.md). BUSY is not stored: it is `PENDING ≠ none` (R31). CTRL, ID and
VERSION hold no changing bit (R34 to R36). -/
structure State where
  /-- The command latch PENDING (R31). -/
  pending    : Option Word
  /-- STATUS.DONE (R38). -/
  done       : Bool
  /-- STATUS.ERROR (R38). -/
  error      : Bool
  /-- STATUS.OVERRUN (R38). -/
  overrun    : Bool
  /-- STATUS.TREE_VALID (R38, R61). -/
  treeValid  : Bool
  /-- STATUS.TABLE_VALID (R38, R61). -/
  tableValid : Bool
  /-- STATUS.ERR_CODE (R38, R260). -/
  errCode    : ErrCode
  /-- STATUS.LAST_OP (R38). -/
  lastOp     : Byte
  /-- SYM_LEN (R40). -/
  symLen     : Word
  /-- PAY_LEN (R41). -/
  payLen     : Word
  /-- BIT_LEN (R42). -/
  bitLen     : Word
  /-- PAD bits 2:0 (R43). -/
  pad        : BitVec 3
  /-- LEAF_COUNT bits 8:0 (R44). -/
  leafCount  : BitVec 9
  /-- NODE_COUNT bits 8:0 (R45). -/
  nodeCount  : BitVec 9
  /-- ROOT_WEIGHT_LO and ROOT_WEIGHT_HI, one 40-bit weight (R46). -/
  rootWeight : Weight
  /-- MAX_LEN bits 7:0 (R47). -/
  maxLen     : Byte
  /-- The parameter SYM_DEPTH, which no step changes (R7, R48). -/
  symDepth   : Nat
  /-- The parameter PAY_DEPTH, which no step changes (R7, R48). -/
  payDepth   : Nat
  /-- FREQ (R50). -/
  freq       : Vector Word 256
  /-- NODE (R51). -/
  node       : Vector Node 511
  /-- CODE (R52). -/
  code       : Vector CodeEntry 256
  /-- The written bytes of SYM_BUF (R54). -/
  sym        : Memory
  /-- The written bytes of PAY_BUF (R55). -/
  pay        : Memory
  /-- The model's own: the word the last BusRead returned (R80). Log 9. -/
  readData   : Word
  /-- The model's own: how many words busy reads have drawn (93 U2). Log 10. -/
  draws      : Nat
  /-- The model's own: how many hardware resets have been (93 U1). Log 10. -/
  resets     : Nat
  /-- The model's own: the coming events, first first (R91). Log 1. -/
  agenda     : List Event
  deriving DecidableEq, Repr

/-- The machine after hardware reset (R60, R290): the engine is idle, every register is 0 but the
constants, FREQ, NODE and CODE are cleared, no byte of SYM_BUF or PAY_BUF is written. The two depths
are open parameters: here the largest the spec allows (R7; log 3). -/
def State.reset : State where
  pending    := none
  done       := false
  error      := false
  overrun    := false
  treeValid  := false
  tableValid := false
  errCode    := .none
  lastOp     := 0
  symLen     := 0
  payLen     := 0
  bitLen     := 0
  pad        := 0
  leafCount  := 0
  nodeCount  := 0
  rootWeight := 0
  maxLen     := 0
  symDepth   := 2 ^ 20
  payDepth   := 2 ^ 21
  freq       := Vector.replicate 256 0
  node       := Vector.replicate 511 Node.zero
  code       := Vector.replicate 256 CodeEntry.empty
  sym        := []
  pay        := []
  readData   := 0
  draws      := 0
  resets     := 0
  agenda     := []

end Sys2Proof.Machine
end

