-- ==== Sys2Proof/Machine/Flags.lean ====
section
/-! DEFINITION. The status flags: STATUS as a word (10_state.md R38), the error codes as numbers
(60_exceptions.md R260), and the write-1-to-clear rule (R39). HUFF-CORE has no condition codes (R59). -/

namespace Sys2Proof.Machine

/-- The number of an error code (R260). -/
def ErrCode.code : ErrCode → Byte
  | .none             => 0x00
  | .emptyInput       => 0x01
  | .packing          => 0x02
  | .corruptData      => 0x03
  | .missingCodeTable => 0x04
  | .capacity         => 0x05
  | .tableFormat      => 0x06
  | .sequence         => 0x07
  | .illegalCommand   => 0x08

/-- STATUS.BUSY: 1 exactly when `PENDING ≠ none` (R31, R38). -/
def State.busy (s : State) : Bool := s.pending.isSome

/-- One flag as a bit of a word. -/
def flagBit (b : Bool) (i : Nat) : Word := if b then 1 <<< i else 0

/-- What a STATUS read returns while BUSY = 0 (R38): reserved bits read 0. -/
def State.statusWord (s : State) : Word :=
  flagBit s.busy 0 ||| flagBit s.done 1 ||| flagBit s.error 2 ||| flagBit s.overrun 3
    ||| flagBit s.treeValid 4 ||| flagBit s.tableValid 5
    ||| (s.errCode.code.setWidth 32 <<< 8) ||| (s.lastOp.setWidth 32 <<< 16)

/-- What a STATUS read returns while BUSY = 1: bit 0 is 1, bit 3 is OVERRUN, every other field is
unspecified, here the bits of the drawn word (R93; log 7). -/
def State.busyStatusWord (s : State) (drawn : Word) : Word :=
  (drawn &&& ~~~0x00000009) ||| flagBit true 0 ||| flagBit s.overrun 3

/-- A STATUS write: bit 1 clears DONE, bit 3 clears OVERRUN, every other bit is ignored (R39). -/
def clearStatus (d : Word) (s : State) : State :=
  { s with done := s.done && !d.getLsbD 1, overrun := s.overrun && !d.getLsbD 3 }

end Sys2Proof.Machine
end

