-- ==== Sys2Proof/Machine/Bits.lean ====
section
/-! DEFINITION. Bit strings and their packing into bytes and code fields (00_scope.md R9; 20_memory.md
R86, R87). -/

namespace Sys2Proof.Machine

/-- `zeros(n)`: n zero bits (R9). -/
def zeros (n : Nat) : Bits := List.replicate n false

/-- `be8(v)`: the 8-bit string of `v`, most significant bit first (R9). -/
def be8 (v : Byte) : Bits := (List.range 8).map fun i => v.getMsbD i

/-- The number a bit string denotes, most significant bit first (R9, `packMSB`). -/
def bitsToNat : Bits → Nat
  | []      => 0
  | b :: bs => b.toNat * 2 ^ bs.length + bitsToNat bs

/-- `packMSB(b)`: byte `k` holds bits `8k` to `8k+7`, the first of them its most significant bit (R9,
R86). R9 defines it for whole bytes; bits short of a byte at the end make none. -/
def packMSB : Bits → List Byte
  | b0 :: b1 :: b2 :: b3 :: b4 :: b5 :: b6 :: b7 :: rest =>
    BitVec.ofNat 8 (bitsToNat [b0, b1, b2, b3, b4, b5, b6, b7]) :: packMSB rest
  | _ => []

/-- `unpackMSB(B)`: the bits of the bytes, in order (R9). -/
def unpackMSB (bytes : List Byte) : Bits := bytes.flatMap be8

/-- `isPrefix(a, b)`: `|a| ≤ |b|` and `take(b, |a|) = a`; a string is a prefix of itself (R9). -/
def isPrefix (a b : Bits) : Bool := a.length ≤ b.length && b.take a.length == a

/-- `p ++ zeros(256 − |p|)` as a code field: field bit `255 − j` is `p[j]` (R52, R180). -/
def codeField (p : Bits) : CodeField := BitVec.ofNat 256 (bitsToNat (p ++ zeros (256 - p.length)))

/-- The four bytes of a SYM or PAY window word, lane 0 in bits 7:0 (R85). -/
def laneWord (b0 b1 b2 b3 : Byte) : Word := b3 ++ b2 ++ b1 ++ b0

/-- The byte in lane `k` of a word (R85). -/
def laneByte (d : Word) (k : Nat) : Byte := d.extractLsb' (8 * k) 8

end Sys2Proof.Machine
end

