-- ==== Sys2Proof/Machine/Ops.lean ====
section
/-! DEFINITION. The named operations over the memories and registers, and the completion of a command:
the completion record, which is this machine's taking of an error (60_exceptions.md R262), and the issue
of a command, which clears it (30_encoding.md R111; 60_exceptions.md R266). -/

namespace Sys2Proof.Machine

/-! ### Buffers of bytes -/

/-- The written byte at an index, `none` where nothing is written. -/
def Memory.lookup : Memory → Nat → Option Byte
  | [], _ => none
  | (j, v) :: rest, i => if j = i then some v else Memory.lookup rest i

/-- Write one byte, keeping the indexes strictly rising. -/
def Memory.store : Memory → Nat → Byte → Memory
  | [], i, v => [(i, v)]
  | (j, w) :: rest, i, v =>
    if i < j then (i, v) :: (j, w) :: rest
    else if i = j then (i, v) :: rest
    else (j, w) :: Memory.store rest i v

/-- `MemWrite(SPACE, i, n, v)` on a byte memory: write a list of bytes from index `i` on (R10). -/
def Memory.storeBytes (m : Memory) (i : Nat) : List Byte → Memory
  | []      => m
  | v :: vs => Memory.storeBytes (m.store i v) (i + 1) vs

/-- The canonical form: indexes strictly rising and below the buffer's depth. An unlisted index holds no
written byte, so no entry can equal what it reads as (log 6). -/
abbrev Memory.wf (depth : Nat) (m : Memory) : Prop :=
  m.Pairwise (fun a b => a.1 < b.1) ∧ ∀ c ∈ m, c.1 < depth

/-- `SYM[i]`: the last byte written, or the byte drawn at the last hardware reset (R54, R60; 93 U1). -/
def State.symByte (s : State) (i : Nat) : Byte :=
  (s.sym.lookup i).getD (Config.symAtReset s.resets i)

/-- `PAY[i]`: the last byte written, or the byte drawn at the last hardware reset (R55, R60; 93 U1). -/
def State.payByte (s : State) (i : Nat) : Byte :=
  (s.pay.lookup i).getD (Config.payAtReset s.resets i)

/-- `MemRead(SYM, i, n)` (R10). -/
def State.symBytes (s : State) (i n : Nat) : List Byte := (List.range' i n).map s.symByte

/-- `MemRead(PAY, i, n)` (R10). -/
def State.payBytes (s : State) (i n : Nat) : List Byte := (List.range' i n).map s.payByte

/-! ### Arrays indexed by symbol, and the node arena -/

/-- The 256 symbols in ascending value (R6, R161). -/
def allSymbols : List Byte := (List.range 256).map (BitVec.ofNat 8)

/-- `FREQ[s]` and `CODE[s]` (R50, R52): an array of 256 entries read at a symbol. -/
def atSymbol {α : Type} (v : Vector α 256) (b : Byte) : α := v[b.toNat]'b.isLt

/-- An array of 256 entries with the entry of one symbol written. -/
def setSymbol {α : Type} (v : Vector α 256) (b : Byte) (x : α) : Vector α 256 :=
  v.set b.toNat x b.isLt

/-- `NODE[i]`, `none` where the arena has no entry `i` (R51). -/
def State.nodeAt (s : State) (i : Nat) : Option Node := s.node[i]?

/-- `code(s)` of an entry: bit `c_i` is field bit `255 − i`, for `i < len` (R52). -/
def CodeEntry.bits (e : CodeEntry) : Bits := (List.range e.len.toNat).map fun i => e.field.getMsbD i

/-- Whether an entry holds a code (R52). -/
def CodeEntry.hasCode (e : CodeEntry) : Bool := e.len != 0

/-- The symbols that have a code, ascending (R53, R190). -/
def codedSymbols (code : Vector CodeEntry 256) : List Byte :=
  allSymbols.filter fun b => (atSymbol code b).hasCode

/-- The greatest `len` among the entries of some symbols, 0 among none. -/
def longestAmong (code : Vector CodeEntry 256) : List Byte → Nat
  | []      => 0
  | b :: bs => max (atSymbol code b).len.toNat (longestAmong code bs)

/-- `max_s CODE[s].len` (R180, R190). -/
def longestCode (code : Vector CodeEntry 256) : Byte := BitVec.ofNat 8 (longestAmong code allSymbols)

/-! ### Completing and issuing a command -/

/-- The completion record of a command whose word has low byte `op`, with error code `e` (R262). It is the
only effect an error has beyond the state the command has already written, and it sets BUSY to 0. -/
def complete (op : Byte) (e : ErrCode) (s : State) : State :=
  { s with
    done    := true
    error   := e != .none
    errCode := e
    lastOp  := op
    pending := none }

/-- An accepted CMD write: latch the word and clear DONE, ERROR and ERR_CODE; LAST_OP stays (R111). -/
def issue (w : Word) (s : State) : State :=
  { s with
    pending := some w
    done    := false
    error   := false
    errCode := .none }

/-- How the pseudocode of a command ends (R11), before its completion record. -/
inductive Body where
  /-- `finish`. -/
  | finish (s : State)
  /-- `raise E`, with the state the command has already changed. -/
  | raise (e : ErrCode) (s : State)
  /-- The pseudocode has no end from this state. -/
  | stuck (f : Fault)
  deriving DecidableEq, Repr

/-- Run a further stage after a body; a `raise` ends the whole (R240). -/
def Body.andThen (b : Body) (next : State → Body) : Body :=
  match b with
  | .finish s  => next s
  | .raise e s => .raise e s
  | .stuck f   => .stuck f

/-- End a command: write its completion record (R262). -/
def Body.record (op : Byte) (b : Body) : Host.Outcome State Fault Refusal :=
  match b with
  | .finish s  => .next (complete op .none s)
  | .raise e s => .next (complete op e s)
  | .stuck f   => .fault f

end Sys2Proof.Machine
end

