-- ==== Sys2Proof/Machine/Operands.lean ====
section
/-! DEFINITION. What a bus address reaches (10_state.md R33, R57), what each register and window word
reads as (R34 to R57), and how a window word is written. Commands have no operand field (30_encoding.md
R115): the bus address is the only operand form. -/

namespace Sys2Proof.Machine

/-- The registers (R33). -/
inductive Reg where
  | id | version | ctrl | cmd | status | symLen | payLen | bitLen | pad | leafCount | nodeCount
  | rootWeightLo | rootWeightHi | maxLen | symDepth | payDepth
  deriving DecidableEq, Repr

/-- What a bus address reaches (R33, R57). -/
inductive Target where
  | reg (r : Reg)
  /-- `FREQ[b]`. -/
  | freq (b : Byte)
  /-- Word `k` (0 to 15) of `CODE[b]`: 0 is LEN, 1 to 8 are BITS0 to BITS7, the others are unused. -/
  | code (b : Byte) (k : Nat)
  /-- Word `k` (0 to 3) of `NODE[i]`. -/
  | node (i k : Nat)
  /-- `SYM[j]` to `SYM[j+3]`. -/
  | sym (j : Nat)
  /-- `PAY[j]` to `PAY[j+3]`. -/
  | pay (j : Nat)
  | reserved
  deriving DecidableEq, Repr

/-- The word address of a transaction: address bits 1:0 are ignored (R81). -/
def wordAddress (a : Addr) : Nat := a.toNat - a.toNat % 4

/-- The register at a word address below 0x40 (R33). -/
def regAt (w : Nat) : Target :=
  match w / 4 with
  | 0  => .reg .id
  | 1  => .reg .version
  | 2  => .reg .ctrl
  | 3  => .reg .cmd
  | 4  => .reg .status
  | 5  => .reg .symLen
  | 6  => .reg .payLen
  | 7  => .reg .bitLen
  | 8  => .reg .pad
  | 9  => .reg .leafCount
  | 10 => .reg .nodeCount
  | 11 => .reg .rootWeightLo
  | 12 => .reg .rootWeightHi
  | 13 => .reg .maxLen
  | 14 => .reg .symDepth
  | 15 => .reg .payDepth
  | _  => .reserved

/-- The address map (R33, R57). -/
def target (a : Addr) : Target :=
  let w := wordAddress a
  if w < 0x000040 then regAt w
  else if w < 0x000400 then .reserved
  else if w < 0x000800 then .freq (BitVec.ofNat 8 ((w - 0x400) / 4))
  else if w < 0x004000 then .reserved
  else if w < 0x008000 then .code (BitVec.ofNat 8 ((w - 0x4000) / 64)) ((w - 0x4000) % 64 / 4)
  else if w < 0x009FF0 then .node ((w - 0x8000) / 16) ((w - 0x8000) % 16 / 4)
  else if w < 0x100000 then .reserved
  else if w < 0x200000 then .sym (w - 0x100000)
  else if w < 0x400000 then .pay (w - 0x200000)
  else .reserved

/-- The address of each register (R33). -/
def Reg.addr : Reg → Addr
  | .id           => 0x000000
  | .version      => 0x000004
  | .ctrl         => 0x000008
  | .cmd          => 0x00000C
  | .status       => 0x000010
  | .symLen       => 0x000014
  | .payLen       => 0x000018
  | .bitLen       => 0x00001C
  | .pad          => 0x000020
  | .leafCount    => 0x000024
  | .nodeCount    => 0x000028
  | .rootWeightLo => 0x00002C
  | .rootWeightHi => 0x000030
  | .maxLen       => 0x000034
  | .symDepth     => 0x000038
  | .payDepth     => 0x00003C

/-- `FREQ[s]` on the bus (R57, R117). -/
def freqAddr (b : Byte) : Addr := BitVec.ofNat 24 (0x000400 + 4 * b.toNat)

/-- Word `k` of `CODE[s]` on the bus (R52, R117). -/
def codeAddr (b : Byte) (k : Nat) : Addr := BitVec.ofNat 24 (0x004000 + 64 * b.toNat + 4 * k)

/-- `NODE[i].Wk` on the bus (R51, R117). -/
def nodeAddr (i k : Nat) : Addr := BitVec.ofNat 24 (0x008000 + 16 * i + 4 * k)

/-- `SYM+j` on the bus (R57, R117). -/
def symAddr (j : Nat) : Addr := BitVec.ofNat 24 (0x100000 + j)

/-- `PAY+j` on the bus (R57, R117). -/
def payAddr (j : Nat) : Addr := BitVec.ofNat 24 (0x200000 + j)

/-! ### Reads -/

/-- ID: the ASCII bytes "HUFF" (R34). -/
def idWord : Word := 0x48554646

/-- VERSION: major 1, minor 0 (R35). -/
def versionWord : Word := 0x00010000

/-- What each register reads as while BUSY = 0 (R34 to R48). CTRL and CMD read 0 (R36, R37). -/
def State.regWord (s : State) : Reg → Word
  | .id           => idWord
  | .version      => versionWord
  | .ctrl         => 0
  | .cmd          => 0
  | .status       => s.statusWord
  | .symLen       => s.symLen
  | .payLen       => s.payLen
  | .bitLen       => s.bitLen
  | .pad          => s.pad.setWidth 32
  | .leafCount    => s.leafCount.setWidth 32
  | .nodeCount    => s.nodeCount.setWidth 32
  | .rootWeightLo => s.rootWeight.extractLsb' 0 32
  | .rootWeightHi => (s.rootWeight.extractLsb' 32 8).setWidth 32
  | .maxLen       => s.maxLen.setWidth 32
  | .symDepth     => BitVec.ofNat 32 s.symDepth
  | .payDepth     => BitVec.ofNat 32 s.payDepth

/-- Word `k` of a CODE entry (R52): LEN, BITS0 to BITS7, then unused words that read 0. -/
def CodeEntry.word (e : CodeEntry) (k : Nat) : Word :=
  if k = 0 then e.len.setWidth 32
  else if k ≤ 8 then e.field.extractLsb' (224 - 32 * (k - 1)) 32
  else 0

/-- Word `k` of a NODE entry (R51). -/
def Node.word (n : Node) (k : Nat) : Word :=
  match k with
  | 0 => flagBit n.isLeaf 31 ||| n.sym.setWidth 32
  | 1 => n.weight.extractLsb' 0 32
  | 2 => (n.weight.extractLsb' 32 8).setWidth 32
  | 3 => (n.left.setWidth 32 <<< 16) ||| n.right.setWidth 32
  | _ => 0

/-- A SYM window lane: 0 at or beyond SYM_DEPTH (R57). -/
def State.symLane (s : State) (i : Nat) : Byte := if i < s.symDepth then s.symByte i else 0

/-- A PAY window lane: 0 at or beyond PAY_DEPTH (R57). -/
def State.payLane (s : State) (i : Nat) : Byte := if i < s.payDepth then s.payByte i else 0

/-- What each target reads as while BUSY = 0 (R49 to R57, R85). -/
def State.targetWord (s : State) : Target → Word
  | .reg r    => s.regWord r
  | .freq b   => atSymbol s.freq b
  | .code b k => (atSymbol s.code b).word k
  | .node i k => match s.nodeAt i with
    | some n => n.word k
    | none   => 0
  | .sym j    => laneWord (s.symLane j) (s.symLane (j + 1)) (s.symLane (j + 2)) (s.symLane (j + 3))
  | .pay j    => laneWord (s.payLane j) (s.payLane (j + 1)) (s.payLane (j + 2)) (s.payLane (j + 3))
  | .reserved => 0

/-! ### Writes -/

/-- Write word `k` of a CODE entry (R52): LEN keeps bits 7:0, a BITS word is stored whole, an unused word
ignores the write. -/
def CodeEntry.setWord (e : CodeEntry) (k : Nat) (d : Word) : CodeEntry :=
  if k = 0 then { e with len := d.setWidth 8 }
  else if k ≤ 8 then
    let at_ := 224 - 32 * (k - 1)
    { e with field := (e.field &&& ~~~((BitVec.allOnes 32).setWidth 256 <<< at_))
                        ||| (d.setWidth 256 <<< at_) }
  else e

/-- Write lane `k` of a window word at index `j`: dropped at or beyond the depth (R57). -/
def storeLane (depth j : Nat) (d : Word) (m : Memory) (k : Nat) : Memory :=
  if j + k < depth then m.store (j + k) (laneByte d k) else m

/-- Write a SYM or PAY window word (R57, R82, R85). -/
def storeWord (depth j : Nat) (d : Word) (m : Memory) : Memory :=
  [0, 1, 2, 3].foldl (storeLane depth j d) m

/-- Whether a target is an unused word of a window, which R49 counts among the reserved addresses: no
storage is behind any bit of it (R52, R57). -/
def State.unused (s : State) : Target → Bool
  | .code _ k => 8 < k
  | .sym j    => s.symDepth ≤ j
  | .pay j    => s.payDepth ≤ j
  | _         => false

end Sys2Proof.Machine
end

