-- ==== Sys2Proof/Machine/Bus.lean ====
section
/-! DEFINITION. The host's transactions (20_memory.md R80 to R93) and the two resets (70_reset_and_hazards.md
R290, R291). -/

namespace Sys2Proof.Machine

/-! ### Resets -/

/-- Every register, FREQ, NODE, CODE and the latch at their reset values (R60). The buffers, the two
depths and the model's own fields are as before. -/
def clearAll (s : State) : State :=
  { s with
    pending    := none
    done       := false
    error      := false
    overrun    := false
    treeValid  := false
    tableValid := false
    errCode    := .none
    lastOp     := 0
    symLen     := 0
    payLen     := 0
    bitLen     := 0
    pad        := 0
    leafCount  := 0
    nodeCount  := 0
    rootWeight := 0
    maxLen     := 0
    freq       := Vector.replicate 256 0
    node       := Vector.replicate 511 Node.zero
    code       := Vector.replicate 256 CodeEntry.empty }

/-- Soft reset: a latched command is discarded unexecuted; SYM_BUF and PAY_BUF keep their contents
(R291). -/
def softReset (s : State) : State := clearAll s

/-- Hardware reset: as soft reset, and every byte of SYM_BUF and PAY_BUF is drawn anew (R290; 93 U1).
Log 5, log 13. -/
def hardReset (s : State) : State :=
  { clearAll s with sym := [], pay := [], resets := s.resets + 1 }

/-! ### Reads -/

/-- A read that returns the value `w`; a read has no other effect (R84). -/
def returnWord (w : Word) (s : State) : State := { s with readData := w }

/-- Draw an unspecified word and return it (R93; log 7). -/
def drawWord (s : State) : State :=
  { s with readData := Config.busyWord s.draws, draws := s.draws + 1 }

/-- A STATUS read while BUSY = 1 (R93; log 7). -/
def drawStatus (s : State) : State :=
  { s with readData := s.busyStatusWord (Config.busyWord s.draws), draws := s.draws + 1 }

/-- A read while BUSY = 1 (R93): constants, CTRL and reserved addresses read as always, the unused words
of the windows among them, which read 0 (R49); STATUS shows BUSY and OVERRUN; everything else is
unspecified. -/
def busyRead (t : Target) (s : State) : State :=
  match t with
  | .reg .id       => returnWord (s.targetWord t) s
  | .reg .version  => returnWord (s.targetWord t) s
  | .reg .ctrl     => returnWord (s.targetWord t) s
  | .reg .symDepth => returnWord (s.targetWord t) s
  | .reg .payDepth => returnWord (s.targetWord t) s
  | .reg .status   => drawStatus s
  | .reserved      => returnWord 0 s
  | _              => if s.unused t then returnWord 0 s else drawWord s

/-- `BusRead(a)` (R80, R81, R84). -/
def busRead (a : Addr) (s : State) : State :=
  if s.busy then busyRead (target a) s else returnWord (s.targetWord (target a)) s

/-! ### Writes -/

/-- A CTRL write: bit 0 = 1 is a soft reset, anything else has no effect (R36). -/
def writeCtrl (d : Word) (s : State) : State := if d.getLsbD 0 then softReset s else s

/-- A CODE window write: it clears TABLE_VALID at every address of the window, used or not (R52, R61;
log 8). -/
def writeCode (b : Byte) (k : Nat) (d : Word) (s : State) : State :=
  { s with
    code       := setSymbol s.code b ((atSymbol s.code b).setWord k d)
    tableValid := false }

/-- A write while BUSY = 0 (R36 to R57, R83, R84): read-only registers, the NODE window and reserved
addresses ignore it. -/
def idleWrite (t : Target) (d : Word) (s : State) : State :=
  match t with
  | .reg .ctrl   => writeCtrl d s
  | .reg .cmd    => issue d s
  | .reg .status => clearStatus d s
  | .reg .symLen => { s with symLen := d }
  | .reg .payLen => { s with payLen := d }
  | .freq b      => { s with freq := setSymbol s.freq b d }
  | .code b k    => writeCode b k d s
  | .sym j       => { s with sym := storeWord s.symDepth j d s.sym }
  | .pay j       => { s with pay := storeWord s.payDepth j d s.pay }
  | _            => s

/-- An ignored write that sets OVERRUN (R92). -/
def overrunWrite (s : State) : State := { s with overrun := true }

/-- A busy write to a window: ignored. It sets OVERRUN (R92); at an unused word of the window the rule
says both, and a free value decides (log 8). -/
def busyWindowWrite (w : Nat) (t : Target) (s : State) : State :=
  if s.unused t then { s with overrun := s.overrun || Config.unusedWordOverruns w }
  else overrunWrite s

/-- A write while BUSY = 1 (R92): CTRL and STATUS act as always; the blocked registers and windows ignore
it and set OVERRUN; everything else ignores it. -/
def busyWrite (w : Nat) (t : Target) (d : Word) (s : State) : State :=
  match t with
  | .reg .ctrl   => writeCtrl d s
  | .reg .status => clearStatus d s
  | .reg .cmd    => overrunWrite s
  | .reg .symLen => overrunWrite s
  | .reg .payLen => overrunWrite s
  | .freq _      => overrunWrite s
  | .code _ _    => busyWindowWrite w t s
  | .sym _       => busyWindowWrite w t s
  | .pay _       => busyWindowWrite w t s
  | _            => s

/-- `BusWrite(a, d)` (R80, R81, R92). -/
def busWrite (a : Addr) (d : Word) (s : State) : State :=
  if s.busy then busyWrite (wordAddress a) (target a) d s else idleWrite (target a) d s

/-- One host transaction (R80). -/
def transact (t : Transaction) (s : State) : State :=
  match t with
  | .read a    => busRead a s
  | .write a d => busWrite a d s

end Sys2Proof.Machine
end

