-- ==== Sys2Proof/Machine/Count.lean ====
section
/-! DEFINITION. FrequencyAnalyzer: COUNT (40_frequency_analyzer.md). -/

namespace Sys2Proof.Machine

/-- The counts of a symbol sequence, from all counts 0 (R140). No count can wrap (R143). -/
def countSymbols (bytes : List Byte) : Vector Word 256 :=
  bytes.foldl (fun f b => setSymbol f b (atSymbol f b + 1)) (Vector.replicate 256 0)

/-- The pseudocode of COUNT (R140), its checks in the order of R141. -/
def countBody (s : State) : Body :=
  let n := s.symLen.toNat
  if s.symDepth < n then .raise .capacity s
  else if n = 0 then .raise .emptyInput s
  else .finish { s with freq := countSymbols (s.symBytes 0 n) }

/-- COUNT (R140, R262). -/
def execCount (s : State) : Host.Outcome State Fault Refusal :=
  (countBody s).record Instr.count.opcode

end Sys2Proof.Machine
end

