-- ==== Sys2Proof/Machine/Pack.lean ====
section
/-! DEFINITION. BitPacker: ENCODE (43_bit_packer.md). -/

namespace Sys2Proof.Machine

/-- `code(SYM[0]) ++ … ++ code(SYM[n−1])`, in input order (R200). -/
def codeString (code : Vector CodeEntry 256) (bytes : List Byte) : Bits :=
  bytes.flatMap fun b => (atSymbol code b).bits

/-- The padding count `(8 − (bl mod 8)) mod 8` (R202). -/
def padCount (bl : Nat) : Nat := (8 - bl % 8) % 8

/-- The framed bit string: the header, the code string, the padding (R201). -/
def frame (d : Bits) : Bits :=
  be8 (BitVec.ofNat 8 (padCount d.length)) ++ d ++ zeros (padCount d.length)

/-- The pseudocode of ENCODE (R200), its six checks in the order of R203; check 5 never fails (R204). -/
def encodeBody (s : State) : Body :=
  let n := s.symLen.toNat
  if !s.tableValid then .raise .missingCodeTable s
  else if s.symDepth < n then .raise .capacity s
  else if n = 0 then .raise .emptyInput s
  else if (s.symBytes 0 n).any (fun b => !(atSymbol s.code b).hasCode) then .raise .missingCodeTable s
  else
    let d := codeString s.code (s.symBytes 0 n)
    let f := frame d
    if f.length % 8 ≠ 0 then .raise .packing s
    else if s.payDepth < f.length / 8 then .raise .capacity s
    else .finish { s with
      pay    := s.pay.storeBytes 0 (packMSB f)
      payLen := BitVec.ofNat 32 (f.length / 8)
      bitLen := BitVec.ofNat 32 d.length
      pad    := BitVec.ofNat 3 (padCount d.length) }

/-- ENCODE (R200, R262). -/
def execEncode (s : State) : Host.Outcome State Fault Refusal :=
  (encodeBody s).record Instr.encode.opcode

end Sys2Proof.Machine
end

