-- ==== Sys2Proof/Machine/Table.lean ====
section
/-! DEFINITION. CodeTableGenerator and table load: GEN and TABLE_COMMIT (42_code_table.md). -/

namespace Sys2Proof.Machine

/-- The leaves below node `i` with their paths, left before right: `visit(i, p)` of R180. `levels` bounds
the depth: a path of a tree of at most 256 leaves passes at most 256 nodes (R170). `none` when the walk
leaves the arena or goes deeper. -/
def visit (nodeAt : Nat → Option Node) : (levels i : Nat) → (p : Bits) → Option (List (Byte × Bits))
  | 0, _, _ => none
  | levels + 1, i, p =>
    match nodeAt i with
    | none   => none
    | some n =>
      if n.isLeaf then some [(n.sym, p)]
      else
        match visit nodeAt levels n.left.toNat (p ++ [false]) with
        | none   => none
        | some l =>
          match visit nodeAt levels n.right.toNat (p ++ [true]) with
          | none   => none
          | some r => some (l ++ r)

/-- The entry of a code: `len = |p|` and the field left-aligned, zeros after it (R180). -/
def codeEntry (p : Bits) : CodeEntry := { len := BitVec.ofNat 8 p.length, field := codeField p }

/-- The code table of a list of symbols and codes; every other symbol has `len = 0` and `field = 0`
(R180, R182). -/
def codeTable (codes : List (Byte × Bits)) : Vector CodeEntry 256 :=
  codes.foldl (fun c e => setSymbol c e.1 (codeEntry e.2)) (Vector.replicate 256 CodeEntry.empty)

/-- The symbols and codes of the tree with root `r` (R180): the code "0" where the root is a leaf (R184). -/
def treeCodes (nodeAt : Nat → Option Node) (r : Nat) : Option (List (Byte × Bits)) :=
  match nodeAt r with
  | none   => none
  | some n => if n.isLeaf then some [(n.sym, [false])] else visit nodeAt 256 r []

/-- The pseudocode of GEN (R180). SEQUENCE when TREE_VALID = 0, before any write (R185). -/
def genBody (s : State) : Body :=
  if s.treeValid then
    match treeCodes s.nodeAt (s.nodeCount.toNat - 1) with
    | none       => .stuck .nodeArenaIsNoTree
    | some codes =>
      .finish { s with
        code       := codeTable codes
        maxLen     := longestCode (codeTable codes)
        tableValid := true }
  else .raise .sequence s

/-- GEN (R180, R262). -/
def execGen (s : State) : Host.Outcome State Fault Refusal :=
  (genBody s).record Instr.gen.opcode

/-- Two distinct symbols have codes in a prefix relation, equal codes included (R190, R191). -/
def prefixClash (code : Vector CodeEntry 256) : Bool :=
  (codedSymbols code).any fun s => (codedSymbols code).any fun t =>
    s != t && isPrefix (atSymbol code s).bits (atSymbol code t).bits

/-- The pseudocode of TABLE_COMMIT (R190): the empty table is refused first, then a prefix clash; either
error clears TABLE_VALID and nothing else (R193). -/
def tableCommitBody (s : State) : Body :=
  if codedSymbols s.code = [] then .raise .tableFormat { s with tableValid := false }
  else if prefixClash s.code then .raise .tableFormat { s with tableValid := false }
  else .finish { s with maxLen := longestCode s.code, tableValid := true }

/-- TABLE_COMMIT (R190, R262). -/
def execTableCommit (s : State) : Host.Outcome State Fault Refusal :=
  (tableCommitBody s).record Instr.tableCommit.opcode

end Sys2Proof.Machine
end

