-- ==== Sys2Proof/Machine/Tree.lean ====
section
/-! DEFINITION. TreeBuilder: BUILD (41_tree_builder.md). -/

namespace Sys2Proof.Machine

/-- A node in the priority queue: its weight and its sequence number, which is its index in NODE (R162). -/
structure Queued where
  weight : Weight
  seq    : Nat
  deriving DecidableEq, Repr

/-- The priority order `a ≺ b`: by weight, then by sequence number (R163). -/
def Queued.before (a b : Queued) : Bool :=
  a.weight.toNat < b.weight.toNat || (a.weight.toNat == b.weight.toNat && a.seq < b.seq)

/-- Remove the least entry of a non-empty queue (R160 `argmin`, R163): the entry and what remains. -/
def removeLeast (a : Queued) : List Queued → Queued × List Queued
  | []     => (a, [])
  | b :: q =>
    if b.before a then
      let r := removeLeast b q
      (r.1, a :: r.2)
    else
      let r := removeLeast a q
      (r.1, b :: r.2)

/-- The symbols with a non-zero count, ascending (R161). -/
def presentSymbols (freq : Vector Word 256) : List Byte :=
  allSymbols.filter fun b => atSymbol freq b != 0

/-- The leaf of a symbol (R160): its count, zero-extended, is its weight. -/
def leafNode (freq : Vector Word 256) (b : Byte) : Node :=
  { isLeaf := true, sym := b, weight := (atSymbol freq b).setWidth 40, left := 0, right := 0 }

/-- The node a merge makes: first removed left, second removed right (R164). -/
def mergedNode (a b : Queued) : Node :=
  { isLeaf := false, sym := 0, weight := a.weight + b.weight
    left := BitVec.ofNat 9 a.seq, right := BitVec.ofNat 9 b.seq }

/-- The leaves in seed order (R161). -/
def seedArena (freq : Vector Word 256) : List Node := (presentSymbols freq).map (leafNode freq)

/-- The queue of the leaves: the k-th leaf has sequence number k (R162). -/
def seedQueue (freq : Vector Word 256) : List Queued :=
  (seedArena freq).zipIdx.map fun p => { weight := p.1.weight, seq := p.2 }

/-- The merge loop (R160), at most `fuel` merges: while two nodes are queued, remove the least two, append
their merged node to the arena and queue it. `L − 1` merges empty a queue of `L` leaves to its root
(R166). -/
def mergeLoop : Nat → List Node → List Queued → List Node
  | fuel + 1, arena, a0 :: b0 :: q =>
    let (a, rest) := removeLeast a0 (b0 :: q)
    match rest with
    | []      => arena
    | c0 :: r =>
      let (b, rest') := removeLeast c0 r
      let n := mergedNode a b
      mergeLoop fuel (arena ++ [n]) ({ weight := n.weight, seq := arena.length } :: rest')
  | _, arena, _ => arena

/-- The nodes BUILD makes, in index order (R160). -/
def buildArena (freq : Vector Word 256) : List Node :=
  mergeLoop (presentSymbols freq).length (seedArena freq) (seedQueue freq)

/-- The whole arena: unused entries are zeroed (R160, R165). -/
def toArena (nodes : List Node) : Vector Node 511 :=
  ⟨((nodes ++ List.replicate 511 Node.zero).take 511).toArray, by
    rw [List.size_toArray, List.length_take, List.length_append, List.length_replicate]; omega⟩

/-- The pseudocode of BUILD (R160). Its only error is EMPTY_INPUT, before any write (R168). -/
def buildBody (s : State) : Body :=
  let present := (presentSymbols s.freq).length
  if present = 0 then .raise .emptyInput s
  else
    let nodes := buildArena s.freq
    let next := nodes.length
    .finish { s with
      node       := toArena nodes
      leafCount  := BitVec.ofNat 9 present
      nodeCount  := BitVec.ofNat 9 next
      rootWeight := (nodes[next - 1]?.getD Node.zero).weight
      treeValid  := true }

/-- BUILD (R160, R262). -/
def execBuild (s : State) : Host.Outcome State Fault Refusal :=
  (buildBody s).record Instr.build.opcode

end Sys2Proof.Machine
end

