-- ==== Sys2Proof/Machine/Control.lean ====
section
/-! DEFINITION. The composite and control commands: COMPRESS, NOP and the execution of an illegal word
(45_composite_and_control.md). -/

namespace Sys2Proof.Machine

/-- The pseudocode of NOP (R241). -/
def nopBody (s : State) : Body := .finish s

/-- NOP (R241, R262). -/
def execNop (s : State) : Host.Outcome State Fault Refusal :=
  (nopBody s).record Instr.nop.opcode

/-- The pseudocode of COMPRESS (R240): the stages in order, to the first error. -/
def compressBody (s : State) : Body :=
  (((countBody s).andThen buildBody).andThen genBody).andThen encodeBody

/-- COMPRESS (R240, R262): one completion record for all its stages. -/
def execCompress (s : State) : Host.Outcome State Fault Refusal :=
  (compressBody s).record Instr.compress.opcode

/-- The pseudocode of an illegal word (R242): nothing but the error. -/
def illegalBody (s : State) : Body := .raise .illegalCommand s

/-- The execution of an illegal word `w` (R242, R268): LAST_OP is `w[7:0]`. -/
def execIllegal (w : Word) (s : State) : Host.Outcome State Fault Refusal :=
  (illegalBody s).record (w.extractLsb' 0 8)

end Sys2Proof.Machine
end

