-- ==== Sys2Proof/Machine/Unpack.lean ====
section
/-! DEFINITION. Decoder: DECODE (44_prefix_decoder.md). -/

namespace Sys2Proof.Machine

/-- The symbol whose code is exactly `b` (R53 `Rev`, R222). At most one matches in a table that is
prefix-free (R231); of several, the lowest symbol (log 12). -/
def revLookup (code : Vector CodeEntry 256) (b : Bits) : Option Byte :=
  allSymbols.find? fun s => (atSymbol code s).hasCode && (atSymbol code s).bits == b

/-- How the decoder's walk ends (R220). -/
inductive WalkEnd where
  /-- Every bit consumed and the buffer empty. -/
  | complete
  /-- A symbol matched when SYM_DEPTH symbols had been emitted: check 6. -/
  | full
  /-- The buffer is not empty after the last bit: check 7. -/
  | leftover
  deriving DecidableEq, Repr

/-- The ACCUMULATING state machine (R220, R222): the bits still to consume, the buffer `B`, the symbols
emitted so far. The result is how the walk ended and the emitted symbols. -/
def walk (rev : Bits → Option Byte) (depth : Nat) :
    (bits b : Bits) → (out : List Byte) → WalkEnd × List Byte
  | [], b, out => (if b = [] then .complete else .leftover, out)
  | x :: bits, b, out =>
    match rev (b ++ [x]) with
    | none   => walk rev depth bits (b ++ [x]) out
    | some s =>
      if out.length = depth then (.full, out)
      else walk rev depth bits [] (out ++ [s])

/-- The data bits of a payload: every bit after the header but the last `pad` (R220, R223, R225). -/
def payloadData (bytes : List Byte) (pad : Nat) : Bits :=
  (unpackMSB bytes).take ((unpackMSB bytes).length - pad)

/-- What the walk leaves (R220, R224): PAD and BIT_LEN, the emitted symbols in SYM, and SYM_LEN, which is
0 after an error. -/
def decoded (s : State) (pad : Nat) (d : Bits) (out : List Byte) (len : Nat) : State :=
  { s with
    pad    := BitVec.ofNat 3 pad
    bitLen := BitVec.ofNat 32 d.length
    sym    := s.sym.storeBytes 0 out
    symLen := BitVec.ofNat 32 len }

/-- The walk of DECODE and its checks 6 and 7 (R220, R224). -/
def decodeWalk (s : State) (pad : Nat) (d : Bits) : Body :=
  match walk (revLookup s.code) s.symDepth d [] [] with
  | (.complete, out) => .finish (decoded s pad d out out.length)
  | (.full, out)     => .raise .capacity (decoded s pad d out 0)
  | (.leftover, out) => .raise .corruptData (decoded s pad d out 0)

/-- The pseudocode of DECODE (R220), its checks in the order of R224. -/
def decodeBody (s : State) : Body :=
  let m := s.payLen.toNat
  let pad := (s.payByte 0).toNat
  let bytes := s.payBytes 1 (m - 1)
  if !s.tableValid then .raise .missingCodeTable s
  else if s.payDepth < m then .raise .capacity s
  else if m = 0 then .raise .corruptData s
  else if 7 < pad then .raise .corruptData s
  else if (unpackMSB bytes).length < pad then .raise .corruptData s
  else decodeWalk s pad (payloadData bytes pad)

/-- DECODE (R220, R262). -/
def execDecode (s : State) : Host.Outcome State Fault Refusal :=
  (decodeBody s).record Instr.decode.opcode

end Sys2Proof.Machine
end

