-- ==== Sys2Proof/Machine/Engine.lean ====
section
/-! DEFINITION. One event of the total order of host transactions and engine steps (20_memory.md R90,
R91), and the placing of a command for the next step. -/

namespace Sys2Proof.Machine

/-- The engine's step (R90, R112): enabled when a word is latched; it decodes the word and executes the
command, or completes with ILLEGAL_COMMAND. With nothing latched the engine is idle (R276; log 15). -/
def engineStep (s : State) : Host.Outcome State Fault Refusal :=
  match s.pending with
  | none   => .next s
  | some w =>
    match decode w with
    | .ok i    => exec i s
    | .error _ => execIllegal w s

/-- One poll of the host's WAIT loop (R118): a STATUS read. Bit 0 of the result is BUSY (R38, R93;
`busRead_status_bit0`). While it is 1 the loop goes on, after the engine's step, which weak fairness
(R306) promises (log 14). -/
def pollStatus (rest : List Event) (s : State) : State :=
  busRead Reg.status.addr { s with agenda := if s.busy then .engine :: .wait :: rest else rest }

/-- Take the first event of the agenda (R91); with none left, the engine moves (R306). -/
def nextEvent (s : State) : Host.Outcome State Fault Refusal :=
  match s.agenda with
  | []                => engineStep s
  | .bus t :: rest    => .next (transact t { s with agenda := rest })
  | .wait :: rest     => .next (pollStatus rest s)
  | .engine :: rest   => engineStep { s with agenda := rest }
  | .hardReset :: rest => .next (hardReset { s with agenda := rest })

/-- Latch a command word as an accepted CMD write does (R111), with the engine's step as the next event.
Log 2. -/
def latchNext (w : Word) (s : State) : State :=
  { issue w s with agenda := .engine :: s.agenda }

end Sys2Proof.Machine
end

