-- ==== Sys2Proof/Machine/Step.lean ====
section
/-! DEFINITION. One step of the machine, and the placing of the command the next step runs. -/

namespace Sys2Proof.Machine

/-- One step: the next event (R90, R91). -/
def step : State → Host.Outcome State Fault Refusal := nextEvent

/-- The state in which the very next step runs the command whose table bits are `w` (log 2). -/
def State.withFetchWord (s : State) (nbits w : Nat) : State := latchNext (tableWord nbits w) s

end Sys2Proof.Machine
end

