-- ==== Sys2Proof/Machine/Script.lean ====
section
/-! DEFINITION. Host scripts (30_encoding.md R117, R118): each line as data, and the events it expands to.
The text of a line is notation only (92_eei_decisions.md D33; log 16). -/

namespace Sys2Proof.Machine

/-- A line of a host script (R117) or a pseudo-instruction (R118). -/
inductive Line where
  | rd (a : Addr)
  | wr (a : Addr) (d : Word)
  | cmd (i : Instr)
  | wait
  | run (i : Instr)
  | decompress
  | srst
  | clrst
  | loadSym (bytes : List Byte)
  | loadPay (bytes : List Byte)
  | loadCode (s : Byte) (len : Word) (bits : Bits)
  deriving DecidableEq, Repr

/-- `RD addr`: one read (R117). -/
def rdEvent (a : Addr) : Event := .bus (.read a)

/-- `WR addr, data`: one write (R117). -/
def wrEvent (a : Addr) (d : Word) : Event := .bus (.write a d)

/-- Bytes as window words, lane 0 first, missing bytes 0 (R118). -/
def lanesOf : List Byte → List Word
  | b0 :: b1 :: b2 :: b3 :: rest => laneWord b0 b1 b2 b3 :: lanesOf rest
  | [b0, b1, b2] => [laneWord b0 b1 b2 0]
  | [b0, b1]     => [laneWord b0 b1 0 0]
  | [b0]         => [laneWord b0 0 0 0]
  | []           => []

/-- Writes of consecutive words from a byte address on. -/
def wrWords (a : Addr) (ws : List Word) : List Event :=
  ws.zipIdx.map fun p => wrEvent (a + BitVec.ofNat 24 (4 * p.2)) p.1

/-- BITS0 to BITS7 of a code: word `k` holds `c_{32k}` to `c_{32k+31}`, the first in bit 31, missing bits
0; bits from `c_256` on are in no word (R52, R118). -/
def codeWords (bits : Bits) : List Word :=
  (List.range 8).map fun k => (codeField (bits.take 256)).extractLsb' (224 - 32 * k) 32

/-- The events a line expands to (R117, R118). -/
def Line.events : Line → List Event
  | .rd a              => [rdEvent a]
  | .wr a d            => [wrEvent a d]
  | .cmd i             => [wrEvent Reg.cmd.addr (encode i)]
  | .wait              => [.wait]
  | .run i             => [wrEvent Reg.cmd.addr (encode i), .wait]
  | .decompress        => [wrEvent Reg.cmd.addr (encode .decode)]
  | .srst              => [wrEvent Reg.ctrl.addr 0x00000001]
  | .clrst             => [wrEvent Reg.status.addr 0x0000000A]
  | .loadSym bytes     =>
    wrEvent Reg.symLen.addr (BitVec.ofNat 32 bytes.length) :: wrWords (symAddr 0) (lanesOf bytes)
  | .loadPay bytes     =>
    wrEvent Reg.payLen.addr (BitVec.ofNat 32 bytes.length) :: wrWords (payAddr 0) (lanesOf bytes)
  | .loadCode s len bits =>
    wrEvent (codeAddr s 0) len :: wrWords (codeAddr s 1) (codeWords bits)

/-- The events of a script, line by line. -/
def scriptEvents (lines : List Line) : List Event := lines.flatMap Line.events

/-- The host issues a script from here on. -/
def State.runs (s : State) (lines : List Line) : State :=
  { s with agenda := s.agenda ++ scriptEvents lines }

end Sys2Proof.Machine
end

