-- ==== Sys2Proof/Safety.lean ====
section
/-! DEFINITION. The invariants of a run (10_state.md R62) and what counts as a safe one (70 R295; 93 U13). -/

namespace Sys2Proof.Machine

/-! ### The tree in NODE (R62 (1)) -/

/-- The shape of a binary tree whose nodes are arena indexes. -/
inductive Shape where
  | leaf (i : Nat)
  | node (i : Nat) (l r : Shape)
  deriving DecidableEq, Repr

/-- The index of the root. -/
def Shape.root : Shape → Nat
  | .leaf i     => i
  | .node i _ _ => i

/-- The indexes of all nodes. -/
def Shape.indices : Shape → List Nat
  | .leaf i     => [i]
  | .node i l r => i :: (l.indices ++ r.indices)

/-- The indexes of the leaves, left to right. -/
def Shape.leaves : Shape → List Nat
  | .leaf i     => [i]
  | .node _ l r => l.leaves ++ r.leaves

/-- The weight of arena entry `i`, as a natural number. -/
def weightAt (nodeAt : Nat → Option Node) (i : Nat) : Nat :=
  match nodeAt i with
  | some n => n.weight.toNat
  | none   => 0

/-- The symbol of arena entry `i`. -/
def symbolAt (nodeAt : Nat → Option Node) (i : Nat) : Byte :=
  match nodeAt i with
  | some n => n.sym
  | none   => 0

/-- The arena holds this tree: leaves have no children, an internal node names its two children and
weighs their sum (R51, R164). -/
def Shape.storedIn (nodeAt : Nat → Option Node) : Shape → Prop
  | .leaf i     => ∃ b w, nodeAt i = some { isLeaf := true, sym := b, weight := w, left := 0, right := 0 }
  | .node i l r =>
    (∃ n, nodeAt i = some n ∧ n.isLeaf = false ∧ n.sym = 0
      ∧ n.left.toNat = l.root ∧ n.right.toNat = r.root
      ∧ n.weight.toNat = weightAt nodeAt l.root + weightAt nodeAt r.root)
    ∧ l.storedIn nodeAt ∧ r.storedIn nodeAt

/-- NODE holds a full binary tree rooted at `NODE_COUNT − 1`, over exactly the entries below NODE_COUNT,
with LEAF_COUNT leaves of pairwise distinct symbols, the entries above it all zero (R62 (1), R165, R166). -/
structure TreeOk (s : State) : Prop where
  leafCount_pos  : 1 ≤ s.leafCount.toNat
  leafCount_le   : s.leafCount.toNat ≤ 256
  nodeCount_eq   : s.nodeCount.toNat = 2 * s.leafCount.toNat - 1
  tree           : ∃ t : Shape, t.storedIn s.nodeAt ∧ t.root = s.nodeCount.toNat - 1
    ∧ t.indices.Perm (List.range s.nodeCount.toNat)
    ∧ t.leaves.length = s.leafCount.toNat
    ∧ (t.leaves.map (symbolAt s.nodeAt)).Nodup
  unused_zero    : ∀ i, s.nodeCount.toNat ≤ i → i < 511 → s.nodeAt i = some Node.zero
  rootWeight_eq  : s.rootWeight.toNat = weightAt s.nodeAt (s.nodeCount.toNat - 1)

/-- The node reached from node `i` by a path, where "0" is a left and "1" a right edge (R181). -/
def follow (nodeAt : Nat → Option Node) : Nat → Bits → Option Nat
  | i, []     => some i
  | i, x :: p =>
    match nodeAt i with
    | none   => none
    | some n =>
      if n.isLeaf then none else follow nodeAt (if x then n.right.toNat else n.left.toNat) p

/-- Node `i` is a child of node `k`. -/
def childOf (nodeAt : Nat → Option Node) (i k : Nat) : Prop :=
  ∃ n, nodeAt k = some n ∧ n.isLeaf = false ∧ (n.left.toNat = i ∨ n.right.toNat = i)

/-- Node `i` waits in the priority queue when node `next` is about to be made: it exists and no node made
so far has it as a child (R160). -/
def waits (nodeAt : Nat → Option Node) (next i : Nat) : Prop :=
  i < next ∧ ∀ k, k < next → ¬ childOf nodeAt i k

/-- The priority order `i ≺ j` on node indexes (R163). -/
def precedes (nodeAt : Nat → Option Node) (i j : Nat) : Prop :=
  weightAt nodeAt i < weightAt nodeAt j ∨ (weightAt nodeAt i = weightAt nodeAt j ∧ i < j)

/-! ### The code table (R62 (2)) -/

/-- No code is a prefix of another symbol's code (R53, R191). -/
def PrefixFree (code : Vector CodeEntry 256) : Prop :=
  ∀ b c : Byte, b ≠ c → (atSymbol code b).hasCode = true → (atSymbol code c).hasCode = true →
    isPrefix (atSymbol code b).bits (atSymbol code c).bits = false

/-- A table that TABLE_VALID may announce: some code, and the codes prefix-free (R62 (2)). -/
structure TableOk (code : Vector CodeEntry 256) : Prop where
  nonempty   : ∃ b : Byte, (atSymbol code b).hasCode = true
  prefixFree : PrefixFree code

/-- The Kraft sum of the codes, in units of `2^(−255)` (R186). -/
def kraftSum (code : Vector CodeEntry 256) : Nat :=
  ((codedSymbols code).map fun b => 2 ^ (255 - (atSymbol code b).len.toNat)).sum

/-- The code table of a symbol sequence: COUNT, BUILD and GEN applied to it (R240). -/
def tableFor (symbols : List Byte) : Vector CodeEntry 256 :=
  let nodes := buildArena (countSymbols symbols)
  match treeCodes (fun i => nodes[i]?) (nodes.length - 1) with
  | some codes => codeTable codes
  | none       => Vector.replicate 256 CodeEntry.empty

/-! ### Words, addresses and events -/

/-- A word that is no command: RSV ≠ 0, or OP in 0x08 to 0xFF (R114). -/
def IllegalWord (w : Word) : Prop := w.extractLsb' 8 24 ≠ 0 ∨ 8 ≤ (w.extractLsb' 0 8).toNat

/-- An address the map of R33 marks reserved. -/
def ReservedAddress (a : Addr) : Prop :=
  (0x000040 ≤ a.toNat ∧ a.toNat ≤ 0x0003FF) ∨ (0x000800 ≤ a.toNat ∧ a.toNat ≤ 0x003FFF)
  ∨ (0x009FF0 ≤ a.toNat ∧ a.toNat ≤ 0x0FFFFF) ∨ 0x400000 ≤ a.toNat

/-- The next event is the engine's step, and the engine takes it in the state `u` (R90, R91). -/
def EngineNext (s u : State) : Prop :=
  (s.agenda = [] ∧ u = s) ∨ ∃ rest, s.agenda = .engine :: rest ∧ u = { s with agenda := rest }

/-- The next event is the engine's step, and the latched word is the command `i`. -/
def EngineRuns (s : State) (i : Instr) : Prop :=
  (∃ u, EngineNext s u) ∧ ∃ w, s.pending = some w ∧ decode w = .ok i

/-- The next event is a host write. -/
def HostWrites (s : State) (a : Addr) (d : Word) : Prop := ∃ rest, s.agenda = .bus (.write a d) :: rest

/-- The next event is a hardware reset. -/
def HardResets (s : State) : Prop := ∃ rest, s.agenda = .hardReset :: rest

/-- The next event is a soft reset: a CTRL write with bit 0 = 1 (R36). -/
def SoftResets (s : State) : Prop := ∃ a d, HostWrites s a d ∧ target a = .reg .ctrl ∧ d.getLsbD 0 = true

/-! ### The invariant -/

/-- The parameters SYM_DEPTH and PAY_DEPTH lie in the ranges of R7. -/
structure DepthsLegal (symDepth payDepth : Nat) : Prop where
  sym_pos : 1 ≤ symDepth
  sym_le  : symDepth ≤ 2 ^ 20
  pay_two : 2 ≤ payDepth
  pay_le  : payDepth ≤ 2 ^ 21

/-- The part of the invariant about data: R62 (1) and (2), the canonical form of the two buffers, the ranges
of the parameters, and MAX_LEN as R47 says while the table is valid. -/
structure DataInv (s : State) : Prop where
  depths  : DepthsLegal s.symDepth s.payDepth
  symWf   : Memory.wf s.symDepth s.sym
  payWf   : Memory.wf s.payDepth s.pay
  tree    : s.treeValid = true → TreeOk s
  table   : s.tableValid = true → TableOk s.code
  maxLen  : s.tableValid = true → s.maxLen = longestCode s.code

/-- What every step keeps: the data part, and the agreement of the completion fields of STATUS with each
other and with the latch (R38, R111, R262). -/
structure Inv (s : State) : Prop where
  data    : DataInv s
  errFlag : s.error = (s.errCode != .none)
  latched : s.busy = true → s.done = false ∧ s.error = false

/-- A run in which the host never broke the busy window ends with OVERRUN = 0 (R295; 93 U13). -/
def KeptBusyWindow (s : State) : Prop := s.overrun = false

/-- A safe step: it answers a next state, and that state keeps the invariant. -/
def SafeStep (s : State) : Prop := ∃ t, step s = .next t ∧ Inv t

end Sys2Proof.Machine
end

