-- ==== Sys2Proof/Certificates/Slice0/Obligations.lean ====
section
/-! DEFINITION. The statements about the machine, from the numbered rules of spec/. A statement about a
command's result names the whole next state, so it is the command's completion and its frame as well. -/

open Sys2Proof Sys2Proof.Machine

/-! ### Command words -/

/-- R110, R112 to R114: the encoder and the decoder agree on every command, and over all words a word is
exactly one of the eight commands, or illegal. -/
def Obligations.DecodeAndEncodeAgree : Prop :=
  (∀ i : Instr, i.wellFormed = true ∧ decode (encode i) = .ok i)
  ∧ ∀ w : Word,
    (∀ i, decode w = .ok i ↔ w = encode i)
    ∧ ((∃ r, decode w = .error r) ↔ IllegalWord w)

/-- R113: the eight words of the opcode map, and words R114 and R242 call illegal. -/
def Obligations.TabledWordsDecode : Prop :=
  decode 0x00000000 = .ok .nop ∧ decode 0x00000001 = .ok .count ∧ decode 0x00000002 = .ok .build
  ∧ decode 0x00000003 = .ok .gen ∧ decode 0x00000004 = .ok .encode ∧ decode 0x00000005 = .ok .decode
  ∧ decode 0x00000006 = .ok .tableCommit ∧ decode 0x00000007 = .ok .compress
  ∧ decode 0x00000008 = .error .opcodeOutOfRange ∧ decode 0x000000FF = .error .opcodeOutOfRange
  ∧ decode 0x00000101 = .error .reservedBitsSet ∧ decode 0x80000000 = .error .reservedBitsSet

/-- R112: the decoder, case by case, over all words. -/
def Obligations.DecoderCases : Prop :=
  ∀ w : Word,
    (w.extractLsb' 8 24 ≠ 0 → ∃ r, decode w = .error r)
    ∧ (w.extractLsb' 8 24 = 0 →
      (w.extractLsb' 0 8 = 0x00 → decode w = .ok .nop)
      ∧ (w.extractLsb' 0 8 = 0x01 → decode w = .ok .count)
      ∧ (w.extractLsb' 0 8 = 0x02 → decode w = .ok .build)
      ∧ (w.extractLsb' 0 8 = 0x03 → decode w = .ok .gen)
      ∧ (w.extractLsb' 0 8 = 0x04 → decode w = .ok .encode)
      ∧ (w.extractLsb' 0 8 = 0x05 → decode w = .ok .decode)
      ∧ (w.extractLsb' 0 8 = 0x06 → decode w = .ok .tableCommit)
      ∧ (w.extractLsb' 0 8 = 0x07 → decode w = .ok .compress)
      ∧ (8 ≤ (w.extractLsb' 0 8).toNat → ∃ r, decode w = .error r))

/-! ### Steps -/

/-- R90, R112: when the engine moves and the latched word decodes to a command, the step is that command's
execution in the state the engine takes its step in. The last clause is the model's own placing of a
command (log 2). -/
def Obligations.StepRunsTheLatchedCommand : Prop :=
  (∀ (s u : State) (w : Word) (i : Instr),
    EngineNext s u → s.pending = some w → decode w = .ok i → step s = exec i u)
  ∧ ∀ (s : State) (i : Instr),
    step (s.withFetchWord 32 (encode i).toNat) = exec i (issue (encode i) s)

/-- R114, R242, R268: executing an illegal word changes nothing but the completion record. -/
def Obligations.IllegalWordLeavesOnlyItsRecord : Prop :=
  ∀ (s u : State) (w : Word), EngineNext s u → s.pending = some w → IllegalWord w →
    step s = .next { u with
      done    := true
      error   := true
      errCode := .illegalCommand
      lastOp  := w.extractLsb' 0 8
      pending := none }

/-- R32, R80, R90, R91, R276: a host transaction is one event, and the engine's event with nothing latched
changes nothing. That the coming events are a field of State is the model's choice (log 1), and so is the
idle engine's event (log 15). R290: hardware reset; that it is one event, and that the events after it stay,
is the model's choice (log 13). -/
def Obligations.OneEventPerStep : Prop :=
  ∀ (s : State) (rest : List Event),
    (∀ a, s.agenda = .bus (.read a) :: rest → step s = .next (busRead a { s with agenda := rest }))
    ∧ (∀ a d, s.agenda = .bus (.write a d) :: rest →
      step s = .next (busWrite a d { s with agenda := rest }))
    ∧ (s.agenda = .hardReset :: rest → step s = .next (hardReset { s with agenda := rest }))
    ∧ ∀ u, EngineNext s u → s.pending = none → step s = .next u

/-- R262, R265, R271: every command that ends writes its completion record, and no command touches
OVERRUN, the parameters, the other command latch fields or the model's own fields. -/
def Obligations.EveryCommandEndsInItsRecord : Prop :=
  ∀ (i : Instr) (s t : State), exec i s = .next t →
    t.done = true ∧ t.error = (t.errCode != .none) ∧ t.lastOp = i.opcode ∧ t.pending = none
    ∧ t.overrun = s.overrun ∧ t.symDepth = s.symDepth ∧ t.payDepth = s.payDepth
    ∧ t.agenda = s.agenda ∧ t.readData = s.readData ∧ t.draws = s.draws ∧ t.resets = s.resets

/-- R204, R244, R260: the error codes each command can end with; PACKING is never one. -/
def Obligations.CommandsRaiseOnlyTheirErrors : Prop :=
  ∀ s t : State,
    (exec .nop s = .next t → t.errCode = .none)
    ∧ (exec .count s = .next t → t.errCode ∈ [.none, .emptyInput, .capacity])
    ∧ (exec .build s = .next t → t.errCode ∈ [.none, .emptyInput])
    ∧ (exec .gen s = .next t → t.errCode ∈ [.none, .sequence])
    ∧ (exec .encode s = .next t → t.errCode ∈ [.none, .emptyInput, .missingCodeTable, .capacity])
    ∧ (exec .decode s = .next t → t.errCode ∈ [.none, .corruptData, .missingCodeTable, .capacity])
    ∧ (exec .tableCommit s = .next t → t.errCode ∈ [.none, .tableFormat])
    ∧ (DepthsLegal s.symDepth s.payDepth → exec .compress s = .next t →
      t.errCode ∈ [.none, .emptyInput, .capacity])

/-! ### Bus reads -/

/-- R34, R35, R48: the constants, busy or not; no write and no step changes them. -/
def Obligations.ConstantsNeverChange : Prop :=
  ∀ s : State,
    busRead 0x000000 s = { s with readData := 0x48554646 }
    ∧ busRead 0x000004 s = { s with readData := 0x00010000 }
    ∧ busRead 0x000038 s = { s with readData := BitVec.ofNat 32 s.symDepth }
    ∧ busRead 0x00003C s = { s with readData := BitVec.ofNat 32 s.payDepth }
    ∧ (∀ d, busWrite 0x000000 d s = s ∧ busWrite 0x000004 d s = s
      ∧ busWrite 0x000038 d s = s ∧ busWrite 0x00003C d s = s)
    ∧ ∀ t, step s = .next t → t.symDepth = s.symDepth ∧ t.payDepth = s.payDepth

/-- R38, R260: the fields of STATUS while BUSY = 0, and the numbers of the error codes it shows. -/
def Obligations.StatusReadsItsFields : Prop :=
  (∀ s : State, s.busy = false →
    ∃ w, busRead 0x000010 s = { s with readData := w }
      ∧ w.getLsbD 0 = false ∧ w.getLsbD 1 = s.done ∧ w.getLsbD 2 = s.error ∧ w.getLsbD 3 = s.overrun
      ∧ w.getLsbD 4 = s.treeValid ∧ w.getLsbD 5 = s.tableValid ∧ w.extractLsb' 6 2 = 0
      ∧ w.extractLsb' 8 8 = s.errCode.code ∧ w.extractLsb' 16 8 = s.lastOp ∧ w.extractLsb' 24 8 = 0)
  ∧ [ErrCode.none, .emptyInput, .packing, .corruptData, .missingCodeTable, .capacity, .tableFormat,
      .sequence, .illegalCommand].map ErrCode.code
    = [0x00, 0x01, 0x02, 0x03, 0x04, 0x05, 0x06, 0x07, 0x08]

/-- R36, R37, R40 to R47: what the other registers read while BUSY = 0, and that SYM_LEN and PAY_LEN store
all 32 bits. -/
def Obligations.RegistersReadTheirState : Prop :=
  ∀ s : State, s.busy = false →
    busRead 0x000008 s = { s with readData := 0 }
    ∧ busRead 0x00000C s = { s with readData := 0 }
    ∧ busRead 0x000014 s = { s with readData := s.symLen }
    ∧ busRead 0x000018 s = { s with readData := s.payLen }
    ∧ busRead 0x00001C s = { s with readData := s.bitLen }
    ∧ busRead 0x000020 s = { s with readData := s.pad.setWidth 32 }
    ∧ busRead 0x000024 s = { s with readData := s.leafCount.setWidth 32 }
    ∧ busRead 0x000028 s = { s with readData := s.nodeCount.setWidth 32 }
    ∧ busRead 0x00002C s = { s with readData := BitVec.ofNat 32 (s.rootWeight.toNat % 2 ^ 32) }
    ∧ busRead 0x000030 s = { s with readData := BitVec.ofNat 32 (s.rootWeight.toNat / 2 ^ 32) }
    ∧ busRead 0x000034 s = { s with readData := s.maxLen.setWidth 32 }
    ∧ ∀ d, busWrite 0x000014 d s = { s with symLen := d } ∧ busWrite 0x000018 d s = { s with payLen := d }

/-- R84: a read changes nothing but the word it returns (and, busy, the model's own count of draws, log 7
and 10); while BUSY = 0 it can be repeated. R93: while BUSY = 1, a read of a register or window word whose
value the rule does not fix returns a word drawn afresh: the next free value, which no later read draws
again. -/
def Obligations.ReadsHaveNoSideEffect : Prop :=
  (∀ (a : Addr) (s : State),
    (∃ w n, busRead a s = { s with readData := w, draws := n })
    ∧ (s.busy = false → (busRead a s).draws = s.draws ∧ busRead a (busRead a s) = busRead a s))
  ∧ ∀ s : State, s.busy = true → ∀ a : Addr,
    (a ∈ ([0x00000C, 0x000014, 0x000018, 0x00001C, 0x000020, 0x000024, 0x000028, 0x00002C, 0x000030,
        0x000034] : List Addr)
      ∨ (∃ b, a = freqAddr b) ∨ (∃ b k, k ≤ 8 ∧ a = codeAddr b k)
      ∨ (∃ i k, i < 511 ∧ k < 4 ∧ a = nodeAddr i k)
      ∨ (∃ j, j % 4 = 0 ∧ j < 2 ^ 20 ∧ j < s.symDepth ∧ a = symAddr j)
      ∨ ∃ j, j % 4 = 0 ∧ j < 2 ^ 21 ∧ j < s.payDepth ∧ a = payAddr j) →
    busRead a s = { s with readData := Config.busyWord s.draws, draws := s.draws + 1 }

/-- R81: address bits 1:0 are ignored. -/
def Obligations.LowAddressBitsIgnored : Prop :=
  ∀ (a : Addr) (d : Word) (s : State),
    busRead a s = busRead (a - BitVec.ofNat 24 (a.toNat % 4)) s
    ∧ busWrite a d s = busWrite (a - BitVec.ofNat 24 (a.toNat % 4)) d s

/-- R49, R83, R92, R93: the addresses the map marks reserved read 0 and ignore writes, busy or not. -/
def Obligations.ReservedReadsZeroIgnoresWrites : Prop :=
  ∀ (a : Addr) (d : Word) (s : State), ReservedAddress a →
    busRead a s = { s with readData := 0 } ∧ busWrite a d s = s

/-- R31, R38, R93: bit 0 of a STATUS read is BUSY, which is `PENDING ≠ none`, busy or not. -/
def Obligations.BusyBitIsPending : Prop :=
  ∀ s : State, (busRead 0x000010 s).readData.getLsbD 0 = s.pending.isSome

/-- R49, R93: while BUSY = 1, CTRL and the unused words of the CODE, SYM and PAY windows read 0, and STATUS
shows BUSY and OVERRUN. Every other field of STATUS, a reserved one too, is that of a word drawn afresh
(log 7); `ReadsHaveNoSideEffect` has the registers and windows whose whole word is. -/
def Obligations.BusyReadsOfFixedFields : Prop :=
  ∀ s : State, s.busy = true →
    busRead 0x000008 s = { s with readData := 0 }
    ∧ (∀ (b : Byte) (k : Nat), 9 ≤ k → k < 16 → busRead (codeAddr b k) s = { s with readData := 0 })
    ∧ (∀ j, j % 4 = 0 → j < 2 ^ 20 → s.symDepth ≤ j → busRead (symAddr j) s = { s with readData := 0 })
    ∧ (∀ j, j % 4 = 0 → j < 2 ^ 21 → s.payDepth ≤ j → busRead (payAddr j) s = { s with readData := 0 })
    ∧ ∃ w, busRead 0x000010 s = { s with readData := w, draws := s.draws + 1 }
      ∧ w.getLsbD 0 = true ∧ w.getLsbD 3 = s.overrun
      ∧ ∀ i, i ≠ 0 → i ≠ 3 → w.getLsbD i = (Config.busyWord s.draws).getLsbD i

/-! ### Bus writes -/

/-- R111: what a CMD write does. -/
def Obligations.CmdWriteIssues : Prop :=
  ∀ (s : State) (w : Word),
    (s.busy = true → busWrite 0x00000C w s = { s with overrun := true })
    ∧ (s.busy = false → busWrite 0x00000C w s =
      { s with pending := some w, done := false, error := false, errCode := .none })

/-- R39: what a STATUS write does, busy or not; a STATUS read has no side effect on it. -/
def Obligations.StatusWriteClears : Prop :=
  ∀ (s : State) (d : Word),
    busWrite 0x000010 d s =
      { s with done := s.done && !d.getLsbD 1, overrun := s.overrun && !d.getLsbD 3 }
    ∧ ∃ w n, busRead 0x000010 s = { s with readData := w, draws := n }

/-- R36, R60, R291: what a CTRL write does, busy or not: with bit 0 = 1 every register, FREQ, NODE, CODE and
the latch take their reset values and SYM_BUF and PAY_BUF keep theirs. A CTRL read returns 0. That a soft
reset keeps the model's own fields (the coming events, the last word read, the counts of draws and of
resets) is the model's choice (log 17); an unwritten byte keeps its value because the count of resets, which
indexes its free value, is kept (log 5). -/
def Obligations.CtrlWriteSoftResets : Prop :=
  ∀ (s : State) (d : Word),
    busRead 0x000008 s = { s with readData := 0 }
    ∧ (d.getLsbD 0 = false → busWrite 0x000008 d s = s)
    ∧ (d.getLsbD 0 = true → busWrite 0x000008 d s = { s with
        pending := none, done := false, error := false, overrun := false, treeValid := false
        tableValid := false, errCode := .none, lastOp := 0, symLen := 0, payLen := 0, bitLen := 0
        pad := 0, leafCount := 0, nodeCount := 0, rootWeight := 0, maxLen := 0
        freq := Vector.replicate 256 0
        node := Vector.replicate 511 { isLeaf := false, sym := 0, weight := 0, left := 0, right := 0 }
        code := Vector.replicate 256 { len := 0, field := 0 } })

/-- R33, R83, R92: read-only registers and the NODE window ignore writes, busy or not. -/
def Obligations.ReadOnlyIgnoresWrites : Prop :=
  ∀ (s : State) (d : Word),
    (∀ a ∈ ([0x00001C, 0x000020, 0x000024, 0x000028, 0x00002C, 0x000030, 0x000034] : List Addr),
      busWrite a d s = s)
    ∧ ∀ i k, i < 511 → k < 4 → busWrite (nodeAddr i k) d s = s

/-- R50, R57, R61: a FREQ window write stores one count whole and clears no validity flag; a read returns the
count. -/
def Obligations.FreqWindowHoldsCounts : Prop :=
  ∀ (s : State) (b : Byte) (d : Word), s.busy = false →
    busRead (freqAddr b) s = { s with readData := atSymbol s.freq b }
    ∧ ∃ f, busWrite (freqAddr b) d s = { s with freq := f } ∧ atSymbol f b = d
      ∧ ∀ c, c ≠ b → atSymbol f c = atSymbol s.freq c

/-- R52, R57, R61: a CODE window write stores its word as the entry's layout says, leaves every other word
of the table as it was, and clears TABLE_VALID (at an unused word too: the model's reading of R52 and R49,
log 8). Words read back as written; LEN keeps 8 bits. R49: an unused word of any entry reads 0. -/
def Obligations.CodeWindowStoresAndInvalidates : Prop :=
  ∀ (s : State) (b : Byte) (k : Nat) (d : Word), s.busy = false → k < 16 →
    ∃ c, busWrite (codeAddr b k) d s = { s with code := c, tableValid := false }
      ∧ (∀ e, e ≠ b → atSymbol c e = atSymbol s.code e)
      ∧ ∀ l, l < 16 → (busRead (codeAddr b l) (busWrite (codeAddr b k) d s)).readData =
        (if l = k then (if k = 0 then d &&& 0xFF else if k ≤ 8 then d else 0)
         else (busRead (codeAddr b l) s).readData)
        ∧ (9 ≤ l → busRead (codeAddr b l) s = { s with readData := 0 })

/-- R52: code bit `c_i` is BITS(⌊i/32⌋) bit `31 − (i mod 32)`, and LEN is the code's length. -/
def Obligations.CodeBitsAreLeftAligned : Prop :=
  ∀ (s : State) (b : Byte), s.busy = false →
    (busRead (codeAddr b 0) s).readData.toNat = (atSymbol s.code b).bits.length
    ∧ ∀ (i : Nat) (x : Bool), (atSymbol s.code b).bits[i]? = some x →
      (busRead (codeAddr b (1 + i / 32)) s).readData.getLsbD (31 - i % 32) = x

/-- R51, R57: the four words of a NODE entry. -/
def Obligations.NodeWindowShowsEntries : Prop :=
  ∀ (s : State) (i : Nat) (n : Node), s.busy = false → s.nodeAt i = some n →
    ∃ w0 w1 w2 w3 : Word,
      busRead (nodeAddr i 0) s = { s with readData := w0 } ∧ w0.getLsbD 31 = n.isLeaf
      ∧ w0.extractLsb' 8 23 = 0 ∧ w0.extractLsb' 0 8 = n.sym
      ∧ busRead (nodeAddr i 1) s = { s with readData := w1 }
      ∧ busRead (nodeAddr i 2) s = { s with readData := w2 }
      ∧ w1.toNat + 2 ^ 32 * w2.toNat = n.weight.toNat
      ∧ busRead (nodeAddr i 3) s = { s with readData := w3 }
      ∧ w3.extractLsb' 16 9 = n.left ∧ w3.extractLsb' 0 9 = n.right
      ∧ w3.extractLsb' 25 7 = 0 ∧ w3.extractLsb' 9 7 = 0

/-- R57, R82, R85: a SYM window word: little-endian lanes; a lane at or beyond SYM_DEPTH reads 0 and drops
its write; every other byte is kept. -/
def Obligations.SymWindowLanes : Prop :=
  ∀ (s : State) (j : Nat) (d : Word), s.busy = false → j % 4 = 0 → j < 2 ^ 20 →
    (∃ w, busRead (symAddr j) s = { s with readData := w }
      ∧ ∀ k, k < 4 → w.extractLsb' (8 * k) 8 = if j + k < s.symDepth then s.symByte (j + k) else 0)
    ∧ ∃ m, busWrite (symAddr j) d s = { s with sym := m }
      ∧ ∀ i, (busWrite (symAddr j) d s).symByte i =
        if j ≤ i ∧ i < j + 4 ∧ i < s.symDepth then d.extractLsb' (8 * (i - j)) 8 else s.symByte i

/-- R57, R82, R85: a PAY window word, as a SYM window word. -/
def Obligations.PayWindowLanes : Prop :=
  ∀ (s : State) (j : Nat) (d : Word), s.busy = false → j % 4 = 0 → j < 2 ^ 21 →
    (∃ w, busRead (payAddr j) s = { s with readData := w }
      ∧ ∀ k, k < 4 → w.extractLsb' (8 * k) 8 = if j + k < s.payDepth then s.payByte (j + k) else 0)
    ∧ ∃ m, busWrite (payAddr j) d s = { s with pay := m }
      ∧ ∀ i, (busWrite (payAddr j) d s).payByte i =
        if j ≤ i ∧ i < j + 4 ∧ i < s.payDepth then d.extractLsb' (8 * (i - j)) 8 else s.payByte i

/-- R92: while BUSY = 1, a write to a blocked register or to a word of a blocked window is ignored and sets
OVERRUN; TABLE_VALID is kept. A write to an unused word of a window is ignored too, and changes OVERRUN at
most, which it never clears: whether it sets it is a free value (log 8). -/
def Obligations.BusyWritesAreBlocked : Prop :=
  ∀ (s : State) (d : Word), s.busy = true →
    (∀ a ∈ ([0x00000C, 0x000014, 0x000018] : List Addr), busWrite a d s = { s with overrun := true })
    ∧ (∀ b, busWrite (freqAddr b) d s = { s with overrun := true })
    ∧ (∀ b k, k ≤ 8 → busWrite (codeAddr b k) d s = { s with overrun := true })
    ∧ (∀ j, j % 4 = 0 → j < 2 ^ 20 → j < s.symDepth →
      busWrite (symAddr j) d s = { s with overrun := true })
    ∧ (∀ j, j % 4 = 0 → j < 2 ^ 21 → j < s.payDepth →
      busWrite (payAddr j) d s = { s with overrun := true })
    ∧ ∀ a : Addr, ((∃ b k, 9 ≤ k ∧ k < 16 ∧ a = codeAddr b k)
        ∨ (∃ j, j % 4 = 0 ∧ j < 2 ^ 20 ∧ s.symDepth ≤ j ∧ a = symAddr j)
        ∨ ∃ j, j % 4 = 0 ∧ j < 2 ^ 21 ∧ s.payDepth ≤ j ∧ a = payAddr j) →
      ∃ o, busWrite a d s = { s with overrun := o } ∧ (s.overrun = true → o = true)

/-! ### Resets -/

/-- R60, R290: hardware reset: every value of the table of R60; no byte of SYM_BUF or PAY_BUF is a written
one, and the model's own count of resets goes up, so that each byte is a free value of this reset and of no
earlier one (log 5, log 10). That reset is one event, which keeps the events after it, is the model's choice
(log 13). -/
def Obligations.HardwareResetValues : Prop :=
  ∀ (s : State) (rest : List Event), s.agenda = .hardReset :: rest →
    ∃ t, step s = .next t ∧ t.pending = none ∧ t.statusWord = 0
      ∧ t.symLen = 0 ∧ t.payLen = 0 ∧ t.bitLen = 0 ∧ t.pad = 0 ∧ t.leafCount = 0 ∧ t.nodeCount = 0
      ∧ t.rootWeight = 0 ∧ t.maxLen = 0 ∧ t.symDepth = s.symDepth ∧ t.payDepth = s.payDepth
      ∧ (∀ b, atSymbol t.freq b = 0)
      ∧ (∀ i, i < 511 → t.nodeAt i =
        some { isLeaf := false, sym := 0, weight := 0, left := 0, right := 0 })
      ∧ (∀ b, atSymbol t.code b = { len := 0, field := 0 })
      ∧ t.sym = [] ∧ t.pay = [] ∧ t.resets = s.resets + 1 ∧ t.agenda = rest
      ∧ (∀ i, t.symByte i = Config.symAtReset (s.resets + 1) i)
      ∧ ∀ i, t.payByte i = Config.payAtReset (s.resets + 1) i

/-- R292: after either reset STATUS reads 0, ID and VERSION their constants, and each command ends as its
rules say. -/
def Obligations.CommandsAfterReset : Prop :=
  ∀ s r : State, (r = busWrite 0x000008 1 s ∨ r = hardReset s) →
    (busRead 0x000010 r).readData = 0
    ∧ (busRead 0x000000 r).readData = 0x48554646 ∧ (busRead 0x000004 r).readData = 0x00010000
    ∧ exec .build r = .next (complete 0x02 .emptyInput r)
    ∧ exec .gen r = .next (complete 0x03 .sequence r)
    ∧ exec .encode r = .next (complete 0x04 .missingCodeTable r)
    ∧ exec .decode r = .next (complete 0x05 .missingCodeTable r)
    ∧ exec .tableCommit r = .next (complete 0x06 .tableFormat r)
    ∧ exec .count r = .next (complete 0x01 .emptyInput r)

/-! ### NOP and COUNT -/

/-- R241: NOP writes its completion record and nothing else. -/
def Obligations.NopCompletes : Prop :=
  (∀ s : State, exec .nop s = .next { s with
    done := true, error := false, errCode := .none, lastOp := 0x00, pending := none })
  ∧ ∃ t, exec .nop State.reset = .next t ∧ t.statusWord = 0x00000002

/-- R140, R142: COUNT stores for every symbol the number of its occurrences, and the counts sum to
SYM_LEN; nothing else changes but the completion record. -/
def Obligations.CountCountsOccurrences : Prop :=
  ∀ s : State, DepthsLegal s.symDepth s.payDepth → 1 ≤ s.symLen.toNat → s.symLen.toNat ≤ s.symDepth →
    ∃ f, exec .count s = .next (complete 0x01 .none { s with freq := f })
      ∧ (∀ b, (atSymbol f b).toNat
        = ((List.range s.symLen.toNat).filter fun i => s.symByte i == b).length)
      ∧ (allSymbols.map fun b => (atSymbol f b).toNat).sum = s.symLen.toNat

/-- R141: COUNT's two errors, in order, with nothing written. -/
def Obligations.CountErrors : Prop :=
  ∀ s : State,
    (s.symDepth < s.symLen.toNat → exec .count s = .next (complete 0x01 .capacity s))
    ∧ (s.symLen.toNat = 0 → exec .count s = .next (complete 0x01 .emptyInput s))

/-- R144: COUNT's result is a function of `SYM[0 .. SYM_LEN)` alone. -/
def Obligations.CountDependsOnItsInputAlone : Prop :=
  ∀ s u s' u' : State, s.symLen = u.symLen → s.symDepth = u.symDepth →
    (∀ i, i < s.symLen.toNat → s.symByte i = u.symByte i) →
    exec .count s = .next s' → exec .count u = .next u' →
    s'.errCode = u'.errCode ∧ (s'.errCode = .none → s'.freq = u'.freq)

/-! ### BUILD -/

/-- R168: BUILD raises EMPTY_INPUT on an empty table with nothing written, and has no other error. -/
def Obligations.BuildEmptyInput : Prop :=
  ∀ s : State,
    ((∀ b, atSymbol s.freq b = 0) → exec .build s = .next (complete 0x02 .emptyInput s))
    ∧ ∀ t, exec .build s = .next t → t.errCode ≠ .none → t.errCode = .emptyInput

/-- R62 (1), R165, R166, R167: on a non-empty table BUILD writes the tree, its three registers and
TREE_VALID, zeroes the unused entries, and nothing else changes but the completion record; the root's
weight is the sum of the counts. -/
def Obligations.BuildWritesTheTree : Prop :=
  ∀ s : State, (∃ b, atSymbol s.freq b ≠ 0) →
    ∃ N l c w, exec .build s = .next (complete 0x02 .none { s with
        node := N, leafCount := l, nodeCount := c, rootWeight := w, treeValid := true })
      ∧ TreeOk { s with node := N, leafCount := l, nodeCount := c, rootWeight := w, treeValid := true }
      ∧ l.toNat = (allSymbols.filter fun b => atSymbol s.freq b != 0).length
      ∧ c.toNat = 2 * l.toNat - 1
      ∧ (∀ i, c.toNat ≤ i → i < 511 →
        N[i]? = some { isLeaf := false, sym := 0, weight := 0, left := 0, right := 0 })
      ∧ w.toNat = (allSymbols.map fun b => (atSymbol s.freq b).toNat).sum

/-- R161, R162: the leaf of the `k`-th smallest symbol with a non-zero count is entry `k` of the arena, its
count its weight; no other entry is a leaf. -/
def Obligations.BuildSeedsLeavesAscending : Prop :=
  ∀ s : State, (∃ b, atSymbol s.freq b ≠ 0) →
    ∃ t, exec .build s = .next t
      ∧ (∀ (k : Nat) (b : Byte), (allSymbols.filter fun b => atSymbol s.freq b != 0)[k]? = some b →
        t.nodeAt k = some
          { isLeaf := true, sym := b, weight := (atSymbol s.freq b).setWidth 40, left := 0, right := 0 })
      ∧ ∀ i n, t.nodeAt i = some n → n.isLeaf = true →
        (allSymbols.filter fun b => atSymbol s.freq b != 0)[i]? = some n.sym

/-- R160, R162, R163, R164: every internal node is the merge of the two least waiting nodes at its making,
the least to the left, and weighs their sum. -/
def Obligations.BuildMergesTheTwoLeast : Prop :=
  ∀ s : State, (∃ b, atSymbol s.freq b ≠ 0) →
    ∃ t, exec .build s = .next t ∧ ∀ i, t.leafCount.toNat ≤ i → i < t.nodeCount.toNat →
      ∃ n, t.nodeAt i = some n ∧ n.isLeaf = false ∧ n.sym = 0
        ∧ waits t.nodeAt i n.left.toNat ∧ waits t.nodeAt i n.right.toNat
        ∧ precedes t.nodeAt n.left.toNat n.right.toNat
        ∧ (∀ j, waits t.nodeAt i j → j ≠ n.left.toNat → j ≠ n.right.toNat →
          precedes t.nodeAt n.right.toNat j)
        ∧ n.weight.toNat = weightAt t.nodeAt n.left.toNat + weightAt t.nodeAt n.right.toNat

/-! ### GEN -/

/-- R185: GEN raises SEQUENCE when TREE_VALID = 0, with nothing written. -/
def Obligations.GenNeedsATree : Prop :=
  ∀ s : State, s.treeValid = false → exec .gen s = .next (complete 0x03 .sequence s)

/-- R180, R181, R182, R184: GEN writes for every leaf the path from the root, left "0" and right "1" ("0"
where the root is the leaf), with zeros after it, no code for any other symbol, MAX_LEN and TABLE_VALID;
nothing else changes but the completion record. -/
def Obligations.GenDerivesTheCodes : Prop :=
  ∀ s : State, TreeOk s → s.treeValid = true →
    ∃ c m, exec .gen s = .next (complete 0x03 .none { s with
        code := c, maxLen := m, tableValid := true })
      ∧ (∀ i n, s.nodeAt i = some n → n.isLeaf = true → i < s.nodeCount.toNat →
        ∃ p, follow s.nodeAt (s.nodeCount.toNat - 1) p = some i
          ∧ (atSymbol c n.sym).bits = (if p = [] then [false] else p)
          ∧ ∀ j, (atSymbol c n.sym).len.toNat ≤ j → j < 256 → (atSymbol c n.sym).field.getMsbD j = false)
      ∧ (∀ b, (∀ i n, s.nodeAt i = some n → n.isLeaf = true → n.sym ≠ b) →
        atSymbol c b = { len := 0, field := 0 })
      ∧ (∀ b, (atSymbol c b).len.toNat ≤ m.toNat) ∧ ∃ b, (atSymbol c b).len = m

/-- R183, R187: GEN's table is a prefix code with one code per leaf, of lengths 1 to `max(1, L − 1)`. -/
def Obligations.GenTableIsAPrefixCode : Prop :=
  ∀ s : State, TreeOk s → s.treeValid = true →
    ∃ t, exec .gen s = .next t ∧ TableOk t.code
      ∧ (codedSymbols t.code).length = s.leafCount.toNat
      ∧ ∀ b, (atSymbol t.code b).hasCode = true →
        1 ≤ (atSymbol t.code b).len.toNat ∧ (atSymbol t.code b).len.toNat ≤ max 1 (s.leafCount.toNat - 1)

/-- R186: the Kraft inequality of every table TABLE_VALID may announce. -/
def Obligations.KraftInequality : Prop :=
  ∀ code : Vector CodeEntry 256, TableOk code → kraftSum code ≤ 2 ^ 255

/-! ### TABLE_COMMIT -/

/-- R190, R191, R192: a table with a code and no prefix clash is accepted, whatever its Kraft sum and its
bits past LEN: MAX_LEN and TABLE_VALID are written and nothing else but the completion record. -/
def Obligations.TableCommitAccepts : Prop :=
  ∀ s : State, TableOk s.code →
    ∃ m, exec .tableCommit s = .next (complete 0x06 .none { s with maxLen := m, tableValid := true })
      ∧ (∀ b, (atSymbol s.code b).len.toNat ≤ m.toNat) ∧ ∃ b, (atSymbol s.code b).len = m

/-- R190, R191, R193: a table without a code, or with two codes in a prefix relation, is refused:
TABLE_VALID is cleared, MAX_LEN and CODE are kept. -/
def Obligations.TableCommitRefuses : Prop :=
  ∀ s : State,
    ((∀ b, (atSymbol s.code b).len = 0) →
      exec .tableCommit s = .next (complete 0x06 .tableFormat { s with tableValid := false }))
    ∧ ∀ b c : Byte, b ≠ c → (atSymbol s.code b).len ≠ 0 → (atSymbol s.code c).len ≠ 0 →
      (atSymbol s.code b).bits <+: (atSymbol s.code c).bits →
      exec .tableCommit s = .next (complete 0x06 .tableFormat { s with tableValid := false })

/-! ### ENCODE -/

/-- R203, R206: ENCODE's checks in order, each with nothing written. -/
def Obligations.EncodeErrorsInOrder : Prop :=
  ∀ s : State,
    (s.tableValid = false → exec .encode s = .next (complete 0x04 .missingCodeTable s))
    ∧ (s.tableValid = true → s.symDepth < s.symLen.toNat →
      exec .encode s = .next (complete 0x04 .capacity s))
    ∧ (s.tableValid = true → s.symLen.toNat = 0 → exec .encode s = .next (complete 0x04 .emptyInput s))
    ∧ (s.tableValid = true → s.symLen.toNat ≤ s.symDepth →
      (∃ i, i < s.symLen.toNat ∧ (atSymbol s.code (s.symByte i)).len = 0) →
      exec .encode s = .next (complete 0x04 .missingCodeTable s))
    ∧ (s.tableValid = true → s.symLen.toNat ≤ s.symDepth → s.symLen.toNat ≠ 0 →
      (∀ i, i < s.symLen.toNat → (atSymbol s.code (s.symByte i)).len ≠ 0) →
      s.payDepth < 1 + ((codeString s.code (s.symBytes 0 s.symLen.toNat)).length + 7) / 8 →
      exec .encode s = .next (complete 0x04 .capacity s))

/-- R200 to R202, R205 to R207: ENCODE writes PAY_LEN, BIT_LEN, PAD and the payload: the padding count, then
the codes in input order and zero bits, most significant bit first; bytes beyond the payload keep their
values, and nothing else changes but the completion record. -/
def Obligations.EncodePacksThePayload : Prop :=
  ∀ s : State, DepthsLegal s.symDepth s.payDepth → s.tableValid = true →
    1 ≤ s.symLen.toNat → s.symLen.toNat ≤ s.symDepth →
    (∀ i, i < s.symLen.toNat → (atSymbol s.code (s.symByte i)).len ≠ 0) →
    ∀ d : Bits, d = (List.range s.symLen.toNat).flatMap (fun i => (atSymbol s.code (s.symByte i)).bits) →
    1 + (d.length + 7) / 8 ≤ s.payDepth →
    ∃ t P L B p, t = { s with pay := P, payLen := L, bitLen := B, pad := p }
      ∧ exec .encode s = .next (complete 0x04 .none t)
      ∧ L.toNat = 1 + (d.length + 7) / 8 ∧ B.toNat = d.length ∧ p.toNat = (8 - d.length % 8) % 8
      ∧ (t.payByte 0).toNat = (8 - d.length % 8) % 8
      ∧ (∀ q, q < 8 * (L.toNat - 1) → (t.payByte (1 + q / 8)).getMsbD (q % 8) = d[q]?.getD false)
      ∧ ∀ i, L.toNat ≤ i → t.payByte i = s.payByte i

/-! ### DECODE -/

/-- R224: DECODE's checks 1 to 5 in order, each with nothing written. -/
def Obligations.DecodeHeaderErrorsInOrder : Prop :=
  ∀ s : State,
    (s.tableValid = false → exec .decode s = .next (complete 0x05 .missingCodeTable s))
    ∧ (s.tableValid = true → s.payDepth < s.payLen.toNat →
      exec .decode s = .next (complete 0x05 .capacity s))
    ∧ (s.tableValid = true → s.payLen.toNat = 0 → exec .decode s = .next (complete 0x05 .corruptData s))
    ∧ (s.tableValid = true → s.payLen.toNat ≤ s.payDepth → s.payLen.toNat ≠ 0 →
      7 < (s.payByte 0).toNat → exec .decode s = .next (complete 0x05 .corruptData s))
    ∧ (s.tableValid = true → s.payLen.toNat ≤ s.payDepth → s.payLen.toNat ≠ 0 →
      (s.payByte 0).toNat ≤ 7 → 8 * (s.payLen.toNat - 1) < (s.payByte 0).toNat →
      exec .decode s = .next (complete 0x05 .corruptData s))

/-- R220 to R225: past its header checks, DECODE splits the data bits into codes. All bits used: it emits
their symbols and succeeds. Bits left over of which no beginning is a code: CORRUPT_DATA, the emitted
symbols kept and SYM_LEN = 0. One code more than SYM_DEPTH: CAPACITY, SYM_DEPTH symbols kept and
SYM_LEN = 0. In each case PAD and BIT_LEN are written, bytes beyond the emitted symbols keep their values,
and nothing else changes but the completion record. -/
def Obligations.DecodeEmitsTheCodes : Prop :=
  ∀ (s : State) (S : List Byte) (rest : Bits), DepthsLegal s.symDepth s.payDepth →
    s.tableValid = true → TableOk s.code → 1 ≤ s.payLen.toNat → s.payLen.toNat ≤ s.payDepth →
    (s.payByte 0).toNat ≤ 7 → (s.payByte 0).toNat ≤ 8 * (s.payLen.toNat - 1) →
    (∀ b ∈ S, (atSymbol s.code b).hasCode = true) →
    ∀ d : Bits, d = (unpackMSB (s.payBytes 1 (s.payLen.toNat - 1))).take
        (8 * (s.payLen.toNat - 1) - (s.payByte 0).toNat) →
    d = codeString s.code S ++ rest →
    (rest = [] → S.length ≤ s.symDepth →
      ∃ t M, t = { s with pad := (s.payByte 0).setWidth 3, bitLen := BitVec.ofNat 32 d.length, sym := M
                          symLen := BitVec.ofNat 32 S.length }
        ∧ exec .decode s = .next (complete 0x05 .none t)
        ∧ t.symLen.toNat = S.length ∧ t.bitLen.toNat = d.length
        ∧ ∀ i, t.symByte i = S[i]?.getD (s.symByte i))
    ∧ (rest ≠ [] → (∀ b, (atSymbol s.code b).hasCode = true → ¬ (atSymbol s.code b).bits <+: rest) →
      S.length ≤ s.symDepth →
      ∃ t M, t = { s with pad := (s.payByte 0).setWidth 3, bitLen := BitVec.ofNat 32 d.length, sym := M
                          symLen := 0 }
        ∧ exec .decode s = .next (complete 0x05 .corruptData t)
        ∧ ∀ i, t.symByte i = S[i]?.getD (s.symByte i))
    ∧ (S.length = s.symDepth + 1 →
      ∃ t M, t = { s with pad := (s.payByte 0).setWidth 3, bitLen := BitVec.ofNat 32 d.length, sym := M
                          symLen := 0 }
        ∧ exec .decode s = .next (complete 0x05 .capacity t)
        ∧ ∀ i, t.symByte i = (S.take s.symDepth)[i]?.getD (s.symByte i))

/-- R222, R231: every bit string splits, in one way, into codes and a rest of which no beginning is a code:
the three cases of `DecodeEmitsTheCodes` leave none out. -/
def Obligations.EveryBitStringSplitsIntoCodes : Prop :=
  ∀ (code : Vector CodeEntry 256) (d : Bits), TableOk code →
    ∃ S rest, (∀ b ∈ S, (atSymbol code b).hasCode = true) ∧ d = codeString code S ++ rest
      ∧ (∀ b, (atSymbol code b).hasCode = true → ¬ (atSymbol code b).bits <+: rest)
      ∧ ∀ S' rest', (∀ b ∈ S', (atSymbol code b).hasCode = true) → d = codeString code S' ++ rest' →
        (∀ b, (atSymbol code b).hasCode = true → ¬ (atSymbol code b).bits <+: rest') → S' = S ∧ rest' = rest

/-- R228: the one-byte payload 0x00 decodes to no symbols, without error. -/
def Obligations.DecodeOfHeaderAlone : Prop :=
  ∀ s : State, DepthsLegal s.symDepth s.payDepth → s.tableValid = true → s.payLen = 1 →
    s.payByte 0 = 0x00 →
    exec .decode s = .next (complete 0x05 .none { s with pad := 0, bitLen := 0, symLen := 0 })

/-- R226: payloads that differ only in their padding bits decode alike. -/
def Obligations.DecodeIgnoresPaddingBits : Prop :=
  ∀ (s t : State) (P : Memory),
    { s with pay := P }.payByte 0 = s.payByte 0 →
    (∀ q, q < 8 * (s.payLen.toNat - 1) - (s.payByte 0).toNat →
      ({ s with pay := P }.payByte (1 + q / 8)).getMsbD (q % 8) = (s.payByte (1 + q / 8)).getMsbD (q % 8)) →
    exec .decode s = .next t → exec .decode { s with pay := P } = .next { t with pay := P }

/-! ### COMPRESS -/

/-- R240: COMPRESS is COUNT, BUILD, GEN and ENCODE, to the first error, with one completion record. -/
def Obligations.CompressIsItsStages : Prop :=
  ∀ s s1 : State, exec .count s = .next s1 →
    (s1.errCode ≠ .none → exec .compress s = .next { s1 with lastOp := 0x07 })
    ∧ ∀ s2, s1.errCode = .none → exec .build s1 = .next s2 →
      (s2.errCode ≠ .none → exec .compress s = .next { s2 with lastOp := 0x07 })
      ∧ ∀ s3, s2.errCode = .none → exec .gen s2 = .next s3 →
        (s3.errCode ≠ .none → exec .compress s = .next { s3 with lastOp := 0x07 })
        ∧ ∀ s4, s3.errCode = .none → exec .encode s3 = .next s4 →
          exec .compress s = .next { s4 with lastOp := 0x07 }

/-- R141, R240, R244: COMPRESS on an input COUNT refuses changes nothing but the completion record. -/
def Obligations.CompressInputErrors : Prop :=
  ∀ s : State,
    (s.symDepth < s.symLen.toNat → exec .compress s = .next (complete 0x07 .capacity s))
    ∧ (s.symLen.toNat = 0 → exec .compress s = .next (complete 0x07 .emptyInput s))

/-- R140, R160, R180, R200, R240, R244: on an input COUNT accepts, COMPRESS leaves the counts, a tree and the
table of the input, and the payload of the input in that table where it fits; where it does not, CAPACITY
with the payload and its registers as they were. SYM and SYM_LEN are kept. -/
def Obligations.CompressEncodesItsInput : Prop :=
  ∀ (s : State) (S : List Byte) (d : Bits), DepthsLegal s.symDepth s.payDepth →
    1 ≤ s.symLen.toNat → s.symLen.toNat ≤ s.symDepth → S = s.symBytes 0 s.symLen.toNat →
    d = codeString (tableFor S) S →
    ∃ t, exec .compress s = .next t ∧ TreeOk t ∧ t.treeValid = true ∧ TableOk t.code
      ∧ t.tableValid = true ∧ t.code = tableFor S ∧ (∀ b ∈ S, (atSymbol t.code b).hasCode = true)
      ∧ t.maxLen = longestCode t.code ∧ (∀ b, (atSymbol t.freq b).toNat = S.count b)
      ∧ t.lastOp = 0x07 ∧ t.sym = s.sym ∧ t.symLen = s.symLen
      ∧ (1 + (d.length + 7) / 8 ≤ s.payDepth →
        t.errCode = .none ∧ t.payLen.toNat = 1 + (d.length + 7) / 8 ∧ t.bitLen.toNat = d.length
        ∧ t.pad.toNat = (8 - d.length % 8) % 8
        ∧ t.payBytes 0 t.payLen.toNat
          = packMSB (be8 (BitVec.ofNat 8 ((8 - d.length % 8) % 8)) ++ d ++ zeros ((8 - d.length % 8) % 8))
        ∧ ∀ i, t.payLen.toNat ≤ i → t.payByte i = s.payByte i)
      ∧ (s.payDepth < 1 + (d.length + 7) / 8 →
        t.errCode = .capacity ∧ t.pay = s.pay ∧ t.payLen = s.payLen ∧ t.bitLen = s.bitLen ∧ t.pad = s.pad)

/-- R229: COMPRESS (or COUNT, BUILD, GEN, ENCODE) and then DECODE, with no host write between, gives the
symbols back. -/
def Obligations.CompressThenDecodeIsIdentity : Prop :=
  ∀ s : State, DepthsLegal s.symDepth s.payDepth → 1 ≤ s.symLen.toNat → s.symLen.toNat ≤ s.symDepth →
    (∀ d, d = codeString (tableFor (s.symBytes 0 s.symLen.toNat)) (s.symBytes 0 s.symLen.toNat) →
      1 + (d.length + 7) / 8 ≤ s.payDepth) →
    ∃ t u, exec .compress s = .next t ∧ exec .decode t = .next u
      ∧ (∃ s1 s2 s3 s4 v, exec .count s = .next s1 ∧ exec .build s1 = .next s2 ∧ exec .gen s2 = .next s3
        ∧ exec .encode s3 = .next s4 ∧ exec .decode s4 = .next v ∧ v = u)
      ∧ u.errCode = .none ∧ u.symLen = s.symLen
      ∧ ∀ i, i < s.symLen.toNat → u.symByte i = s.symByte i

/-! ### The whole machine -/

/-- R62: the invariant holds after hardware reset. -/
def Obligations.InvariantAtReset : Prop := Inv State.reset

/-- R62: every step keeps the invariant. -/
def Obligations.EveryStepKeepsTheInvariant : Prop :=
  ∀ s t : State, Inv s → step s = .next t → Inv t

/-- R62, R83, R306: no step stops in a state that has the invariant: every transaction completes and every
command ends. -/
def Obligations.NoStopWhereTheInvariantHolds : Prop :=
  ∀ s : State, Inv s → SafeStep s

/-- R61: the events that change TREE_VALID and TABLE_VALID. -/
def Obligations.ValidityChangesOnlyAsListed : Prop :=
  ∀ s t : State, step s = .next t →
    (s.treeValid = false → t.treeValid = true →
      (EngineRuns s .build ∧ t.errCode = .none) ∨ EngineRuns s .compress)
    ∧ (s.treeValid = true → t.treeValid = false → HardResets s ∨ SoftResets s)
    ∧ (s.tableValid = false → t.tableValid = true →
      (EngineRuns s .gen ∧ t.errCode = .none) ∨ (EngineRuns s .tableCommit ∧ t.errCode = .none)
      ∨ EngineRuns s .compress)
    ∧ (s.tableValid = true → t.tableValid = false →
      HardResets s ∨ SoftResets s ∨ (EngineRuns s .tableCommit ∧ t.errCode = .tableFormat)
      ∨ ∃ a d b k, HostWrites s a d ∧ target a = .code b k ∧ s.busy = false)

/-- R38, R92, R265: OVERRUN is set only by a host write while BUSY = 1. -/
def Obligations.OverrunMarksABusyWrite : Prop :=
  ∀ s t : State, step s = .next t → s.overrun = false → t.overrun = true →
    s.busy = true ∧ ∃ a d, HostWrites s a d

/-- R94, R118, R306: a poll of a WAIT is a STATUS read, and the WAIT ends with the poll that reads bit 0 as
0: the first while BUSY = 0, and else the one after the engine's step. Three steps at most (the order of
those events is the model's, log 14). -/
def Obligations.WaitEnds : Prop :=
  ∀ (s : State) (rest : List Event), s.agenda = .wait :: rest →
    (s.busy = false → ∃ t, t = busRead 0x000010 { s with agenda := rest }
      ∧ step s = .next t ∧ t.readData.getLsbD 0 = false ∧ t.agenda = rest)
    ∧ (s.busy = true → Inv s → ∃ t u v, t = busRead 0x000010 { s with agenda := .engine :: .wait :: rest }
      ∧ step s = .next t ∧ t.readData.getLsbD 0 = true
      ∧ step t = .next u ∧ u.agenda = .wait :: rest ∧ u.busy = false
      ∧ v = busRead 0x000010 { u with agenda := rest }
      ∧ step u = .next v ∧ v.readData.getLsbD 0 = false ∧ v.agenda = rest ∧ v.busy = false)
end

