-- ==== Sys2Proof/Laws/Bits.lean ====
section
/-! SUPPORT. The laws of bit strings: packing and unpacking are inverse (R9), a code field holds its code
(R52). -/

namespace Sys2Proof.Machine

@[simp] theorem length_zeros (n : Nat) : (zeros n).length = n := by simp [zeros]

@[simp] theorem length_be8 (v : Byte) : (be8 v).length = 8 := by simp [be8]

@[simp] theorem length_unpackMSB (bytes : List Byte) : (unpackMSB bytes).length = 8 * bytes.length := by
  induction bytes with
  | nil => rfl
  | cons b bs ih =>
    simp only [unpackMSB, List.flatMap_cons, List.length_append, length_be8, List.length_cons]
    simp only [unpackMSB] at ih
    omega

theorem bitsToNat_lt (b : Bits) : bitsToNat b < 2 ^ b.length := by
  induction b with
  | nil => simp [bitsToNat]
  | cons x xs ih =>
    simp only [bitsToNat, List.length_cons, Nat.pow_succ]
    have : x.toNat ≤ 1 := by cases x <;> simp
    nlinarith

/-- Bit `j` from the front of a bit string is the bit of weight `2^(n−1−j)` of its number. -/
theorem testBit_bitsToNat (b : Bits) : ∀ j, j < b.length →
    (bitsToNat b).testBit (b.length - 1 - j) = b[j]?.getD false := by
  induction b with
  | nil => intro j hj; simp at hj
  | cons x xs ih =>
    intro j hj
    have hlt := bitsToNat_lt xs
    simp only [bitsToNat]
    cases j with
    | zero =>
      simp only [List.length_cons, Nat.add_sub_cancel, Nat.sub_zero, List.getElem?_cons_zero,
        Option.getD_some]
      rw [Nat.mul_comm, Nat.testBit_two_pow_mul_add _ hlt]
      cases x <;> simp
    | succ j =>
      simp only [List.length_cons] at hj
      rw [show (x :: xs).length - 1 - (j + 1) = xs.length - 1 - j by simp; omega,
        Nat.mul_comm, Nat.testBit_two_pow_mul_add _ hlt, if_pos (by omega), ih j (by omega)]
      simp

/-- Field bit `255 − j` of a code field is `p[j]`, and 0 past the code (R52, R180). -/
theorem codeField_getMsbD (p : Bits) (hp : p.length ≤ 256) (j : Nat) (hj : j < 256) :
    (codeField p).getMsbD j = p[j]?.getD false := by
  have hlen : (p ++ zeros (256 - p.length)).length = 256 := by simp; omega
  have h := testBit_bitsToNat (p ++ zeros (256 - p.length)) j (by omega)
  rw [hlen] at h
  rw [BitVec.getMsbD_eq_getLsbD]
  simp only [codeField, BitVec.getLsbD_ofNat]
  rw [h]
  simp only [hj, decide_true, Bool.true_and]
  rw [show decide (256 - 1 - j < 256) = true by simp; omega, Bool.true_and]
  by_cases hjp : j < p.length
  · rw [List.getElem?_append_left hjp]
  · rw [List.getElem?_append_right (by omega), List.getElem?_eq_none (l := p) (by omega)]
    simp only [zeros, List.getElem?_replicate]
    split <;> rfl

/-- Eight bits as a byte and back. -/
theorem be8_ofBits (b : Bits) (h : b.length = 8) : be8 (BitVec.ofNat 8 (bitsToNat b)) = b := by
  apply List.ext_getElem
  · simp [h]
  intro i h1 h2
  have h3 := testBit_bitsToNat b i h2
  simp only [h] at h3 h2
  simp only [be8, List.getElem_map, List.getElem_range, BitVec.getMsbD_eq_getLsbD, BitVec.getLsbD_ofNat]
  rw [show (8 - 1 - i) = 7 - i by omega] at h3 ⊢
  rw [h3]
  simp [h2, h]
  omega

/-- A byte of eight bits is determined by them. -/
theorem ofBits_be8 (v : Byte) : BitVec.ofNat 8 (bitsToNat (be8 v)) = v := by
  apply BitVec.eq_of_getMsbD_eq
  intro i hi
  have h := congrArg (fun l : Bits => l[i]?) (be8_ofBits (be8 v) (length_be8 v))
  simpa [be8, hi] using h

/-- `unpackMSB` undoes `packMSB` on whole bytes (R9). -/
theorem unpackMSB_packMSB (b : Bits) (h : b.length % 8 = 0) : unpackMSB (packMSB b) = b := by
  induction b using packMSB.induct with
  | case1 b0 b1 b2 b3 b4 b5 b6 b7 rest ih =>
    have hr : rest.length % 8 = 0 := by simp only [List.length_cons] at h; omega
    simp only [packMSB, unpackMSB, List.flatMap_cons]
    rw [be8_ofBits _ (by rfl)]
    simpa [unpackMSB] using ih hr
  | case2 t hne =>
    match t, h, hne with
    | [], _, _ => rfl
    | b0 :: b1 :: b2 :: b3 :: b4 :: b5 :: b6 :: b7 :: rest, _, hne =>
      exact absurd rfl (hne b0 b1 b2 b3 b4 b5 b6 b7 rest)

theorem length_packMSB (b : Bits) : (packMSB b).length = b.length / 8 := by
  induction b using packMSB.induct with
  | case1 b0 b1 b2 b3 b4 b5 b6 b7 rest ih => simp [packMSB, ih]; omega
  | case2 t hne =>
    match t, hne with
    | [], _ | [_], _ | [_, _], _ | [_, _, _], _ | [_, _, _, _], _ | [_, _, _, _, _], _
    | [_, _, _, _, _, _], _ | [_, _, _, _, _, _, _], _ => simp [packMSB]
    | b0 :: b1 :: b2 :: b3 :: b4 :: b5 :: b6 :: b7 :: rest, hne =>
      exact absurd rfl (hne b0 b1 b2 b3 b4 b5 b6 b7 rest)

theorem packMSB_append8 (b rest : Bits) (h : b.length = 8) :
    packMSB (b ++ rest) = BitVec.ofNat 8 (bitsToNat b) :: packMSB rest := by
  match b, h with
  | [b0, b1, b2, b3, b4, b5, b6, b7], _ => simp [packMSB]

/-- `packMSB` undoes `unpackMSB` (R9). -/
theorem packMSB_unpackMSB (bytes : List Byte) : packMSB (unpackMSB bytes) = bytes := by
  induction bytes with
  | nil => rfl
  | cons v vs ih =>
    simp only [unpackMSB, List.flatMap_cons] at ih ⊢
    rw [packMSB_append8 _ _ (length_be8 v), ofBits_be8, ih]

/-- `isPrefix` is the library's relation of lists. -/
theorem isPrefix_iff (a b : Bits) : isPrefix a b = true ↔ a <+: b := by
  simp only [isPrefix, Bool.and_eq_true, decide_eq_true_eq, beq_iff_eq]
  constructor
  · rintro ⟨_, h⟩; exact h ▸ List.take_prefix _ _
  · intro h; exact ⟨h.length_le, (List.prefix_iff_eq_take.1 h).symm⟩

theorem isPrefix_eq_false (a b : Bits) : isPrefix a b = false ↔ ¬ a <+: b := by
  rw [← isPrefix_iff]; simp

@[simp] theorem CodeEntry.length_bits (e : CodeEntry) : e.bits.length = e.len.toNat := by
  simp [CodeEntry.bits]

/-- A code has at least one bit exactly when the entry holds a code (R52, R184). -/
theorem CodeEntry.hasCode_iff (e : CodeEntry) : e.hasCode = true ↔ 1 ≤ e.bits.length := by
  simp only [CodeEntry.hasCode, bne_iff_ne, CodeEntry.length_bits, ne_eq, ← BitVec.toNat_inj]
  simp; omega

end Sys2Proof.Machine
end

