-- ==== Sys2Proof/Laws/Memory.lean ====
section
/-! SUPPORT. The laws of the byte memories: read after write, the canonical form, and that equal contents
are equal data. -/

namespace Sys2Proof.Machine

@[simp] theorem lookup_store_same (m : Memory) (i : Nat) (v : Byte) :
    (m.store i v).lookup i = some v := by
  induction m with
  | nil => simp [Memory.store, Memory.lookup]
  | cons c rest ih =>
    obtain ⟨j, w⟩ := c
    unfold Memory.store
    split
    · simp [Memory.lookup]
    · split
      · simp [Memory.lookup]
      · have : j ≠ i := by omega
        simp [Memory.lookup, this, ih]

@[simp] theorem lookup_store_ne (m : Memory) (i k : Nat) (v : Byte) (h : k ≠ i) :
    (m.store i v).lookup k = m.lookup k := by
  induction m with
  | nil => simp [Memory.store, Memory.lookup, Ne.symm h]
  | cons c rest ih =>
    obtain ⟨j, w⟩ := c
    unfold Memory.store
    split
    · simp [Memory.lookup, Ne.symm h]
    · split
      · subst i; simp [Memory.lookup, Ne.symm h]
      · simp [Memory.lookup, ih]

theorem lookup_store (m : Memory) (i k : Nat) (v : Byte) :
    (m.store i v).lookup k = if k = i then some v else m.lookup k := by
  by_cases h : k = i
  · subst h; simp
  · simp [h]

/-- Where a run of bytes is written, the memory holds it; elsewhere it is as before. -/
theorem lookup_storeBytes (vs : List Byte) : ∀ (m : Memory) (i k : Nat),
    (m.storeBytes i vs).lookup k
      = if i ≤ k ∧ k < i + vs.length then vs[k - i]? else m.lookup k := by
  induction vs with
  | nil => intro m i k; rw [if_neg (by simp)]; rfl
  | cons v vs ih =>
    intro m i k
    rw [Memory.storeBytes, ih, lookup_store]
    by_cases hk : k = i
    · subst hk; simp
    · by_cases hr : i + 1 ≤ k ∧ k < i + 1 + vs.length
      · have h2 : i ≤ k ∧ k < i + (v :: vs).length := by simp; omega
        rw [if_pos hr, if_pos h2]
        obtain ⟨d, rfl⟩ : ∃ d, k = i + 1 + d := ⟨k - (i + 1), by omega⟩
        rw [show i + 1 + d - i = d + 1 by omega, show i + 1 + d - (i + 1) = d by omega]
        simp
      · have h2 : ¬ (i ≤ k ∧ k < i + (v :: vs).length) := by simp at hr ⊢; omega
        rw [if_neg hr, if_neg h2, if_neg hk]

/-- An entry of a memory after a write is an old entry or the new one. -/
theorem mem_store {m : Memory} {i : Nat} {v : Byte} {c : Host.Cell} (h : c ∈ m.store i v) :
    c = (i, v) ∨ c ∈ m := by
  induction m with
  | nil => simpa [Memory.store] using h
  | cons d rest ih =>
    rw [Memory.store] at h
    split_ifs at h <;> simp only [List.mem_cons] at h ⊢ <;> tauto

theorem store_sorted {m : Memory} (i : Nat) (v : Byte)
    (h : m.Pairwise fun a b => a.1 < b.1) : (m.store i v).Pairwise fun a b => a.1 < b.1 := by
  induction m with
  | nil => simp [Memory.store]
  | cons c rest ih =>
    obtain ⟨j, w⟩ := c
    have ⟨hlt, hrest⟩ := List.pairwise_cons.1 h
    unfold Memory.store
    split
    case isTrue hij =>
      refine List.pairwise_cons.2 ⟨fun d hd => ?_, h⟩
      rcases List.mem_cons.1 hd with rfl | hd
      · exact hij
      · exact Nat.lt_trans hij (hlt d hd)
    case isFalse hij =>
      split
      case isTrue he => subst he; exact List.pairwise_cons.2 ⟨hlt, hrest⟩
      case isFalse he =>
        refine List.pairwise_cons.2 ⟨fun d hd => ?_, ih hrest⟩
        rcases mem_store hd with rfl | hd
        · show j < i; omega
        · exact hlt d hd

/-- Writing a byte below the depth keeps the canonical form. -/
theorem store_wf {depth : Nat} {m : Memory} (h : m.wf depth) {i : Nat} (hi : i < depth) (v : Byte) :
    (m.store i v).wf depth :=
  ⟨store_sorted i v h.1, fun c hc => by
    rcases mem_store hc with rfl | hc
    · exact hi
    · exact h.2 c hc⟩

theorem storeBytes_wf {depth : Nat} (vs : List Byte) : ∀ {m : Memory} (_ : m.wf depth) {i : Nat}
    (_ : i + vs.length ≤ depth), (m.storeBytes i vs).wf depth := by
  induction vs with
  | nil => intro m h i _; exact h
  | cons v vs ih =>
    intro m h i hi
    simp only [List.length_cons] at hi
    exact ih (store_wf h (by omega) v) (by omega)

theorem storeLane_wf {depth j : Nat} {d : Word} {m : Memory} (h : m.wf depth) (k : Nat) :
    (storeLane depth j d m k).wf depth := by
  unfold storeLane
  split
  · exact store_wf h ‹_› _
  · exact h

theorem storeWord_wf {depth j : Nat} {d : Word} {m : Memory} (h : m.wf depth) :
    (storeWord depth j d m).wf depth := by
  simp only [storeWord, List.foldl_cons, List.foldl_nil]
  exact storeLane_wf (storeLane_wf (storeLane_wf (storeLane_wf h 0) 1) 2) 3

theorem lookup_storeLane (depth j : Nat) (d : Word) (m : Memory) (k i : Nat) :
    (storeLane depth j d m k).lookup i
      = if i = j + k ∧ i < depth then some (laneByte d k) else m.lookup i := by
  unfold storeLane
  by_cases h : j + k < depth
  · rw [if_pos h, lookup_store]
    by_cases hi : i = j + k
    · simp [hi, h]
    · simp [hi]
  · rw [if_neg h, if_neg (by omega)]

/-- A window word's write: the lanes below the depth hold the word's bytes, all else is as before. -/
theorem lookup_storeWord (depth j : Nat) (d : Word) (m : Memory) (i : Nat) :
    (storeWord depth j d m).lookup i
      = if j ≤ i ∧ i < j + 4 ∧ i < depth then some (laneByte d (i - j)) else m.lookup i := by
  simp only [storeWord, List.foldl_cons, List.foldl_nil, lookup_storeLane]
  by_cases h : j ≤ i ∧ i < j + 4 ∧ i < depth
  · obtain ⟨k, rfl⟩ : ∃ k, i = j + k := ⟨i - j, by omega⟩
    have hk : k < 4 := by omega
    rw [if_pos h, show j + k - j = k by omega]
    match k, hk with
    | 0, _ => simp; omega
    | 1, _ | 2, _ | 3, _ => simp [h.2.2]
  · rw [if_neg h]
    repeat rw [if_neg (by omega)]

/-- Nothing is listed at an index below every entry. -/
theorem lookup_eq_none {m : Memory} {i : Nat} (h : ∀ c ∈ m, i < c.1) : m.lookup i = none := by
  induction m with
  | nil => rfl
  | cons c rest ih =>
    obtain ⟨j, w⟩ := c
    have : j ≠ i := by have := h (j, w) List.mem_cons_self; simp at this; omega
    simp [Memory.lookup, this, ih fun c hc => h c (List.mem_cons_of_mem _ hc)]

/-- Memories in canonical form with the same written bytes are the same data. -/
theorem memory_ext {m m' : Memory} (h : m.Pairwise fun a b => a.1 < b.1)
    (h' : m'.Pairwise fun a b => a.1 < b.1) (e : ∀ i, m.lookup i = m'.lookup i) : m = m' := by
  induction m generalizing m' with
  | nil =>
    cases m' with
    | nil => rfl
    | cons c rest => have := e c.1; simp [Memory.lookup] at this
  | cons c rest ih =>
    cases m' with
    | nil => have := e c.1; simp [Memory.lookup] at this
    | cons c' rest' =>
      obtain ⟨j, w⟩ := c
      obtain ⟨j', w'⟩ := c'
      have ⟨hl, hr⟩ := List.pairwise_cons.1 h
      have ⟨hl', hr'⟩ := List.pairwise_cons.1 h'
      have hj : j = j' := by
        rcases Nat.lt_trichotomy j j' with hlt | heq | hgt
        · have hn : Memory.lookup ((j', w') :: rest') j = none := lookup_eq_none fun c hc => by
            rcases List.mem_cons.1 hc with rfl | hc
            · exact hlt
            · exact Nat.lt_trans hlt (hl' c hc)
          have := e j; rw [hn] at this; simp [Memory.lookup] at this
        · exact heq
        · have hn : Memory.lookup ((j, w) :: rest) j' = none := lookup_eq_none fun c hc => by
            rcases List.mem_cons.1 hc with rfl | hc
            · exact hgt
            · exact Nat.lt_trans hgt (hl c hc)
          have := e j'; rw [hn] at this; simp [Memory.lookup] at this
      subst hj
      have hw : w = w' := by have := e j; simpa [Memory.lookup] using this
      subst hw
      congr 1
      refine ih hr hr' fun i => ?_
      by_cases hi : j = i
      · subst hi; rw [lookup_eq_none hl, lookup_eq_none hl']
      · have := e i; simpa [Memory.lookup, hi] using this

end Sys2Proof.Machine
end

