-- ==== Sys2Proof/Laws/State.lean ====
section
/-! SUPPORT. What each named update of State leaves in each field: one lemma per field per update, so that no
proof unfolds a record update. -/

namespace Sys2Proof.Machine

/-! ### `complete` -/

@[simp] theorem complete_pending (op : Byte) (e : ErrCode) (s : State) : (complete op e s).pending = none := rfl
@[simp] theorem complete_done (op : Byte) (e : ErrCode) (s : State) : (complete op e s).done = true := rfl
@[simp] theorem complete_error (op : Byte) (e : ErrCode) (s : State) : (complete op e s).error = (e != .none) := rfl
@[simp] theorem complete_overrun (op : Byte) (e : ErrCode) (s : State) : (complete op e s).overrun = s.overrun := rfl
@[simp] theorem complete_treeValid (op : Byte) (e : ErrCode) (s : State) : (complete op e s).treeValid = s.treeValid := rfl
@[simp] theorem complete_tableValid (op : Byte) (e : ErrCode) (s : State) : (complete op e s).tableValid = s.tableValid := rfl
@[simp] theorem complete_errCode (op : Byte) (e : ErrCode) (s : State) : (complete op e s).errCode = e := rfl
@[simp] theorem complete_lastOp (op : Byte) (e : ErrCode) (s : State) : (complete op e s).lastOp = op := rfl
@[simp] theorem complete_symLen (op : Byte) (e : ErrCode) (s : State) : (complete op e s).symLen = s.symLen := rfl
@[simp] theorem complete_payLen (op : Byte) (e : ErrCode) (s : State) : (complete op e s).payLen = s.payLen := rfl
@[simp] theorem complete_bitLen (op : Byte) (e : ErrCode) (s : State) : (complete op e s).bitLen = s.bitLen := rfl
@[simp] theorem complete_pad (op : Byte) (e : ErrCode) (s : State) : (complete op e s).pad = s.pad := rfl
@[simp] theorem complete_leafCount (op : Byte) (e : ErrCode) (s : State) : (complete op e s).leafCount = s.leafCount := rfl
@[simp] theorem complete_nodeCount (op : Byte) (e : ErrCode) (s : State) : (complete op e s).nodeCount = s.nodeCount := rfl
@[simp] theorem complete_rootWeight (op : Byte) (e : ErrCode) (s : State) : (complete op e s).rootWeight = s.rootWeight := rfl
@[simp] theorem complete_maxLen (op : Byte) (e : ErrCode) (s : State) : (complete op e s).maxLen = s.maxLen := rfl
@[simp] theorem complete_symDepth (op : Byte) (e : ErrCode) (s : State) : (complete op e s).symDepth = s.symDepth := rfl
@[simp] theorem complete_payDepth (op : Byte) (e : ErrCode) (s : State) : (complete op e s).payDepth = s.payDepth := rfl
@[simp] theorem complete_freq (op : Byte) (e : ErrCode) (s : State) : (complete op e s).freq = s.freq := rfl
@[simp] theorem complete_node (op : Byte) (e : ErrCode) (s : State) : (complete op e s).node = s.node := rfl
@[simp] theorem complete_code (op : Byte) (e : ErrCode) (s : State) : (complete op e s).code = s.code := rfl
@[simp] theorem complete_sym (op : Byte) (e : ErrCode) (s : State) : (complete op e s).sym = s.sym := rfl
@[simp] theorem complete_pay (op : Byte) (e : ErrCode) (s : State) : (complete op e s).pay = s.pay := rfl
@[simp] theorem complete_readData (op : Byte) (e : ErrCode) (s : State) : (complete op e s).readData = s.readData := rfl
@[simp] theorem complete_draws (op : Byte) (e : ErrCode) (s : State) : (complete op e s).draws = s.draws := rfl
@[simp] theorem complete_resets (op : Byte) (e : ErrCode) (s : State) : (complete op e s).resets = s.resets := rfl
@[simp] theorem complete_agenda (op : Byte) (e : ErrCode) (s : State) : (complete op e s).agenda = s.agenda := rfl

/-! ### `issue` -/

@[simp] theorem issue_pending (w : Word) (s : State) : (issue w s).pending = some w := rfl
@[simp] theorem issue_done (w : Word) (s : State) : (issue w s).done = false := rfl
@[simp] theorem issue_error (w : Word) (s : State) : (issue w s).error = false := rfl
@[simp] theorem issue_overrun (w : Word) (s : State) : (issue w s).overrun = s.overrun := rfl
@[simp] theorem issue_treeValid (w : Word) (s : State) : (issue w s).treeValid = s.treeValid := rfl
@[simp] theorem issue_tableValid (w : Word) (s : State) : (issue w s).tableValid = s.tableValid := rfl
@[simp] theorem issue_errCode (w : Word) (s : State) : (issue w s).errCode = .none := rfl
@[simp] theorem issue_lastOp (w : Word) (s : State) : (issue w s).lastOp = s.lastOp := rfl
@[simp] theorem issue_symLen (w : Word) (s : State) : (issue w s).symLen = s.symLen := rfl
@[simp] theorem issue_payLen (w : Word) (s : State) : (issue w s).payLen = s.payLen := rfl
@[simp] theorem issue_bitLen (w : Word) (s : State) : (issue w s).bitLen = s.bitLen := rfl
@[simp] theorem issue_pad (w : Word) (s : State) : (issue w s).pad = s.pad := rfl
@[simp] theorem issue_leafCount (w : Word) (s : State) : (issue w s).leafCount = s.leafCount := rfl
@[simp] theorem issue_nodeCount (w : Word) (s : State) : (issue w s).nodeCount = s.nodeCount := rfl
@[simp] theorem issue_rootWeight (w : Word) (s : State) : (issue w s).rootWeight = s.rootWeight := rfl
@[simp] theorem issue_maxLen (w : Word) (s : State) : (issue w s).maxLen = s.maxLen := rfl
@[simp] theorem issue_symDepth (w : Word) (s : State) : (issue w s).symDepth = s.symDepth := rfl
@[simp] theorem issue_payDepth (w : Word) (s : State) : (issue w s).payDepth = s.payDepth := rfl
@[simp] theorem issue_freq (w : Word) (s : State) : (issue w s).freq = s.freq := rfl
@[simp] theorem issue_node (w : Word) (s : State) : (issue w s).node = s.node := rfl
@[simp] theorem issue_code (w : Word) (s : State) : (issue w s).code = s.code := rfl
@[simp] theorem issue_sym (w : Word) (s : State) : (issue w s).sym = s.sym := rfl
@[simp] theorem issue_pay (w : Word) (s : State) : (issue w s).pay = s.pay := rfl
@[simp] theorem issue_readData (w : Word) (s : State) : (issue w s).readData = s.readData := rfl
@[simp] theorem issue_draws (w : Word) (s : State) : (issue w s).draws = s.draws := rfl
@[simp] theorem issue_resets (w : Word) (s : State) : (issue w s).resets = s.resets := rfl
@[simp] theorem issue_agenda (w : Word) (s : State) : (issue w s).agenda = s.agenda := rfl

/-! ### `clearStatus` -/

@[simp] theorem clearStatus_pending (d : Word) (s : State) : (clearStatus d s).pending = s.pending := rfl
@[simp] theorem clearStatus_done (d : Word) (s : State) : (clearStatus d s).done = (s.done && !d.getLsbD 1) := rfl
@[simp] theorem clearStatus_error (d : Word) (s : State) : (clearStatus d s).error = s.error := rfl
@[simp] theorem clearStatus_overrun (d : Word) (s : State) : (clearStatus d s).overrun = (s.overrun && !d.getLsbD 3) := rfl
@[simp] theorem clearStatus_treeValid (d : Word) (s : State) : (clearStatus d s).treeValid = s.treeValid := rfl
@[simp] theorem clearStatus_tableValid (d : Word) (s : State) : (clearStatus d s).tableValid = s.tableValid := rfl
@[simp] theorem clearStatus_errCode (d : Word) (s : State) : (clearStatus d s).errCode = s.errCode := rfl
@[simp] theorem clearStatus_lastOp (d : Word) (s : State) : (clearStatus d s).lastOp = s.lastOp := rfl
@[simp] theorem clearStatus_symLen (d : Word) (s : State) : (clearStatus d s).symLen = s.symLen := rfl
@[simp] theorem clearStatus_payLen (d : Word) (s : State) : (clearStatus d s).payLen = s.payLen := rfl
@[simp] theorem clearStatus_bitLen (d : Word) (s : State) : (clearStatus d s).bitLen = s.bitLen := rfl
@[simp] theorem clearStatus_pad (d : Word) (s : State) : (clearStatus d s).pad = s.pad := rfl
@[simp] theorem clearStatus_leafCount (d : Word) (s : State) : (clearStatus d s).leafCount = s.leafCount := rfl
@[simp] theorem clearStatus_nodeCount (d : Word) (s : State) : (clearStatus d s).nodeCount = s.nodeCount := rfl
@[simp] theorem clearStatus_rootWeight (d : Word) (s : State) : (clearStatus d s).rootWeight = s.rootWeight := rfl
@[simp] theorem clearStatus_maxLen (d : Word) (s : State) : (clearStatus d s).maxLen = s.maxLen := rfl
@[simp] theorem clearStatus_symDepth (d : Word) (s : State) : (clearStatus d s).symDepth = s.symDepth := rfl
@[simp] theorem clearStatus_payDepth (d : Word) (s : State) : (clearStatus d s).payDepth = s.payDepth := rfl
@[simp] theorem clearStatus_freq (d : Word) (s : State) : (clearStatus d s).freq = s.freq := rfl
@[simp] theorem clearStatus_node (d : Word) (s : State) : (clearStatus d s).node = s.node := rfl
@[simp] theorem clearStatus_code (d : Word) (s : State) : (clearStatus d s).code = s.code := rfl
@[simp] theorem clearStatus_sym (d : Word) (s : State) : (clearStatus d s).sym = s.sym := rfl
@[simp] theorem clearStatus_pay (d : Word) (s : State) : (clearStatus d s).pay = s.pay := rfl
@[simp] theorem clearStatus_readData (d : Word) (s : State) : (clearStatus d s).readData = s.readData := rfl
@[simp] theorem clearStatus_draws (d : Word) (s : State) : (clearStatus d s).draws = s.draws := rfl
@[simp] theorem clearStatus_resets (d : Word) (s : State) : (clearStatus d s).resets = s.resets := rfl
@[simp] theorem clearStatus_agenda (d : Word) (s : State) : (clearStatus d s).agenda = s.agenda := rfl

/-! ### `softReset` -/

@[simp] theorem softReset_pending (s : State) : (softReset s).pending = none := rfl
@[simp] theorem softReset_done (s : State) : (softReset s).done = false := rfl
@[simp] theorem softReset_error (s : State) : (softReset s).error = false := rfl
@[simp] theorem softReset_overrun (s : State) : (softReset s).overrun = false := rfl
@[simp] theorem softReset_treeValid (s : State) : (softReset s).treeValid = false := rfl
@[simp] theorem softReset_tableValid (s : State) : (softReset s).tableValid = false := rfl
@[simp] theorem softReset_errCode (s : State) : (softReset s).errCode = .none := rfl
@[simp] theorem softReset_lastOp (s : State) : (softReset s).lastOp = 0 := rfl
@[simp] theorem softReset_symLen (s : State) : (softReset s).symLen = 0 := rfl
@[simp] theorem softReset_payLen (s : State) : (softReset s).payLen = 0 := rfl
@[simp] theorem softReset_bitLen (s : State) : (softReset s).bitLen = 0 := rfl
@[simp] theorem softReset_pad (s : State) : (softReset s).pad = 0 := rfl
@[simp] theorem softReset_leafCount (s : State) : (softReset s).leafCount = 0 := rfl
@[simp] theorem softReset_nodeCount (s : State) : (softReset s).nodeCount = 0 := rfl
@[simp] theorem softReset_rootWeight (s : State) : (softReset s).rootWeight = 0 := rfl
@[simp] theorem softReset_maxLen (s : State) : (softReset s).maxLen = 0 := rfl
@[simp] theorem softReset_symDepth (s : State) : (softReset s).symDepth = s.symDepth := rfl
@[simp] theorem softReset_payDepth (s : State) : (softReset s).payDepth = s.payDepth := rfl
@[simp] theorem softReset_freq (s : State) : (softReset s).freq = Vector.replicate 256 0 := rfl
@[simp] theorem softReset_node (s : State) : (softReset s).node = Vector.replicate 511 Node.zero := rfl
@[simp] theorem softReset_code (s : State) : (softReset s).code = Vector.replicate 256 CodeEntry.empty := rfl
@[simp] theorem softReset_sym (s : State) : (softReset s).sym = s.sym := rfl
@[simp] theorem softReset_pay (s : State) : (softReset s).pay = s.pay := rfl
@[simp] theorem softReset_readData (s : State) : (softReset s).readData = s.readData := rfl
@[simp] theorem softReset_draws (s : State) : (softReset s).draws = s.draws := rfl
@[simp] theorem softReset_resets (s : State) : (softReset s).resets = s.resets := rfl
@[simp] theorem softReset_agenda (s : State) : (softReset s).agenda = s.agenda := rfl

/-! ### `hardReset` -/

@[simp] theorem hardReset_pending (s : State) : (hardReset s).pending = none := rfl
@[simp] theorem hardReset_done (s : State) : (hardReset s).done = false := rfl
@[simp] theorem hardReset_error (s : State) : (hardReset s).error = false := rfl
@[simp] theorem hardReset_overrun (s : State) : (hardReset s).overrun = false := rfl
@[simp] theorem hardReset_treeValid (s : State) : (hardReset s).treeValid = false := rfl
@[simp] theorem hardReset_tableValid (s : State) : (hardReset s).tableValid = false := rfl
@[simp] theorem hardReset_errCode (s : State) : (hardReset s).errCode = .none := rfl
@[simp] theorem hardReset_lastOp (s : State) : (hardReset s).lastOp = 0 := rfl
@[simp] theorem hardReset_symLen (s : State) : (hardReset s).symLen = 0 := rfl
@[simp] theorem hardReset_payLen (s : State) : (hardReset s).payLen = 0 := rfl
@[simp] theorem hardReset_bitLen (s : State) : (hardReset s).bitLen = 0 := rfl
@[simp] theorem hardReset_pad (s : State) : (hardReset s).pad = 0 := rfl
@[simp] theorem hardReset_leafCount (s : State) : (hardReset s).leafCount = 0 := rfl
@[simp] theorem hardReset_nodeCount (s : State) : (hardReset s).nodeCount = 0 := rfl
@[simp] theorem hardReset_rootWeight (s : State) : (hardReset s).rootWeight = 0 := rfl
@[simp] theorem hardReset_maxLen (s : State) : (hardReset s).maxLen = 0 := rfl
@[simp] theorem hardReset_symDepth (s : State) : (hardReset s).symDepth = s.symDepth := rfl
@[simp] theorem hardReset_payDepth (s : State) : (hardReset s).payDepth = s.payDepth := rfl
@[simp] theorem hardReset_freq (s : State) : (hardReset s).freq = Vector.replicate 256 0 := rfl
@[simp] theorem hardReset_node (s : State) : (hardReset s).node = Vector.replicate 511 Node.zero := rfl
@[simp] theorem hardReset_code (s : State) : (hardReset s).code = Vector.replicate 256 CodeEntry.empty := rfl
@[simp] theorem hardReset_sym (s : State) : (hardReset s).sym = [] := rfl
@[simp] theorem hardReset_pay (s : State) : (hardReset s).pay = [] := rfl
@[simp] theorem hardReset_readData (s : State) : (hardReset s).readData = s.readData := rfl
@[simp] theorem hardReset_draws (s : State) : (hardReset s).draws = s.draws := rfl
@[simp] theorem hardReset_resets (s : State) : (hardReset s).resets = s.resets + 1 := rfl
@[simp] theorem hardReset_agenda (s : State) : (hardReset s).agenda = s.agenda := rfl

/-! ### `returnWord` -/

@[simp] theorem returnWord_pending (w : Word) (s : State) : (returnWord w s).pending = s.pending := rfl
@[simp] theorem returnWord_done (w : Word) (s : State) : (returnWord w s).done = s.done := rfl
@[simp] theorem returnWord_error (w : Word) (s : State) : (returnWord w s).error = s.error := rfl
@[simp] theorem returnWord_overrun (w : Word) (s : State) : (returnWord w s).overrun = s.overrun := rfl
@[simp] theorem returnWord_treeValid (w : Word) (s : State) : (returnWord w s).treeValid = s.treeValid := rfl
@[simp] theorem returnWord_tableValid (w : Word) (s : State) : (returnWord w s).tableValid = s.tableValid := rfl
@[simp] theorem returnWord_errCode (w : Word) (s : State) : (returnWord w s).errCode = s.errCode := rfl
@[simp] theorem returnWord_lastOp (w : Word) (s : State) : (returnWord w s).lastOp = s.lastOp := rfl
@[simp] theorem returnWord_symLen (w : Word) (s : State) : (returnWord w s).symLen = s.symLen := rfl
@[simp] theorem returnWord_payLen (w : Word) (s : State) : (returnWord w s).payLen = s.payLen := rfl
@[simp] theorem returnWord_bitLen (w : Word) (s : State) : (returnWord w s).bitLen = s.bitLen := rfl
@[simp] theorem returnWord_pad (w : Word) (s : State) : (returnWord w s).pad = s.pad := rfl
@[simp] theorem returnWord_leafCount (w : Word) (s : State) : (returnWord w s).leafCount = s.leafCount := rfl
@[simp] theorem returnWord_nodeCount (w : Word) (s : State) : (returnWord w s).nodeCount = s.nodeCount := rfl
@[simp] theorem returnWord_rootWeight (w : Word) (s : State) : (returnWord w s).rootWeight = s.rootWeight := rfl
@[simp] theorem returnWord_maxLen (w : Word) (s : State) : (returnWord w s).maxLen = s.maxLen := rfl
@[simp] theorem returnWord_symDepth (w : Word) (s : State) : (returnWord w s).symDepth = s.symDepth := rfl
@[simp] theorem returnWord_payDepth (w : Word) (s : State) : (returnWord w s).payDepth = s.payDepth := rfl
@[simp] theorem returnWord_freq (w : Word) (s : State) : (returnWord w s).freq = s.freq := rfl
@[simp] theorem returnWord_node (w : Word) (s : State) : (returnWord w s).node = s.node := rfl
@[simp] theorem returnWord_code (w : Word) (s : State) : (returnWord w s).code = s.code := rfl
@[simp] theorem returnWord_sym (w : Word) (s : State) : (returnWord w s).sym = s.sym := rfl
@[simp] theorem returnWord_pay (w : Word) (s : State) : (returnWord w s).pay = s.pay := rfl
@[simp] theorem returnWord_readData (w : Word) (s : State) : (returnWord w s).readData = w := rfl
@[simp] theorem returnWord_draws (w : Word) (s : State) : (returnWord w s).draws = s.draws := rfl
@[simp] theorem returnWord_resets (w : Word) (s : State) : (returnWord w s).resets = s.resets := rfl
@[simp] theorem returnWord_agenda (w : Word) (s : State) : (returnWord w s).agenda = s.agenda := rfl

/-! ### `overrunWrite` -/

@[simp] theorem overrunWrite_pending (s : State) : (overrunWrite s).pending = s.pending := rfl
@[simp] theorem overrunWrite_done (s : State) : (overrunWrite s).done = s.done := rfl
@[simp] theorem overrunWrite_error (s : State) : (overrunWrite s).error = s.error := rfl
@[simp] theorem overrunWrite_overrun (s : State) : (overrunWrite s).overrun = true := rfl
@[simp] theorem overrunWrite_treeValid (s : State) : (overrunWrite s).treeValid = s.treeValid := rfl
@[simp] theorem overrunWrite_tableValid (s : State) : (overrunWrite s).tableValid = s.tableValid := rfl
@[simp] theorem overrunWrite_errCode (s : State) : (overrunWrite s).errCode = s.errCode := rfl
@[simp] theorem overrunWrite_lastOp (s : State) : (overrunWrite s).lastOp = s.lastOp := rfl
@[simp] theorem overrunWrite_symLen (s : State) : (overrunWrite s).symLen = s.symLen := rfl
@[simp] theorem overrunWrite_payLen (s : State) : (overrunWrite s).payLen = s.payLen := rfl
@[simp] theorem overrunWrite_bitLen (s : State) : (overrunWrite s).bitLen = s.bitLen := rfl
@[simp] theorem overrunWrite_pad (s : State) : (overrunWrite s).pad = s.pad := rfl
@[simp] theorem overrunWrite_leafCount (s : State) : (overrunWrite s).leafCount = s.leafCount := rfl
@[simp] theorem overrunWrite_nodeCount (s : State) : (overrunWrite s).nodeCount = s.nodeCount := rfl
@[simp] theorem overrunWrite_rootWeight (s : State) : (overrunWrite s).rootWeight = s.rootWeight := rfl
@[simp] theorem overrunWrite_maxLen (s : State) : (overrunWrite s).maxLen = s.maxLen := rfl
@[simp] theorem overrunWrite_symDepth (s : State) : (overrunWrite s).symDepth = s.symDepth := rfl
@[simp] theorem overrunWrite_payDepth (s : State) : (overrunWrite s).payDepth = s.payDepth := rfl
@[simp] theorem overrunWrite_freq (s : State) : (overrunWrite s).freq = s.freq := rfl
@[simp] theorem overrunWrite_node (s : State) : (overrunWrite s).node = s.node := rfl
@[simp] theorem overrunWrite_code (s : State) : (overrunWrite s).code = s.code := rfl
@[simp] theorem overrunWrite_sym (s : State) : (overrunWrite s).sym = s.sym := rfl
@[simp] theorem overrunWrite_pay (s : State) : (overrunWrite s).pay = s.pay := rfl
@[simp] theorem overrunWrite_readData (s : State) : (overrunWrite s).readData = s.readData := rfl
@[simp] theorem overrunWrite_draws (s : State) : (overrunWrite s).draws = s.draws := rfl
@[simp] theorem overrunWrite_resets (s : State) : (overrunWrite s).resets = s.resets := rfl
@[simp] theorem overrunWrite_agenda (s : State) : (overrunWrite s).agenda = s.agenda := rfl

/-! ### `writeCode` -/

@[simp] theorem writeCode_pending (b : Byte) (k : Nat) (d : Word) (s : State) : (writeCode b k d s).pending = s.pending := rfl
@[simp] theorem writeCode_done (b : Byte) (k : Nat) (d : Word) (s : State) : (writeCode b k d s).done = s.done := rfl
@[simp] theorem writeCode_error (b : Byte) (k : Nat) (d : Word) (s : State) : (writeCode b k d s).error = s.error := rfl
@[simp] theorem writeCode_overrun (b : Byte) (k : Nat) (d : Word) (s : State) : (writeCode b k d s).overrun = s.overrun := rfl
@[simp] theorem writeCode_treeValid (b : Byte) (k : Nat) (d : Word) (s : State) : (writeCode b k d s).treeValid = s.treeValid := rfl
@[simp] theorem writeCode_tableValid (b : Byte) (k : Nat) (d : Word) (s : State) : (writeCode b k d s).tableValid = false := rfl
@[simp] theorem writeCode_errCode (b : Byte) (k : Nat) (d : Word) (s : State) : (writeCode b k d s).errCode = s.errCode := rfl
@[simp] theorem writeCode_lastOp (b : Byte) (k : Nat) (d : Word) (s : State) : (writeCode b k d s).lastOp = s.lastOp := rfl
@[simp] theorem writeCode_symLen (b : Byte) (k : Nat) (d : Word) (s : State) : (writeCode b k d s).symLen = s.symLen := rfl
@[simp] theorem writeCode_payLen (b : Byte) (k : Nat) (d : Word) (s : State) : (writeCode b k d s).payLen = s.payLen := rfl
@[simp] theorem writeCode_bitLen (b : Byte) (k : Nat) (d : Word) (s : State) : (writeCode b k d s).bitLen = s.bitLen := rfl
@[simp] theorem writeCode_pad (b : Byte) (k : Nat) (d : Word) (s : State) : (writeCode b k d s).pad = s.pad := rfl
@[simp] theorem writeCode_leafCount (b : Byte) (k : Nat) (d : Word) (s : State) : (writeCode b k d s).leafCount = s.leafCount := rfl
@[simp] theorem writeCode_nodeCount (b : Byte) (k : Nat) (d : Word) (s : State) : (writeCode b k d s).nodeCount = s.nodeCount := rfl
@[simp] theorem writeCode_rootWeight (b : Byte) (k : Nat) (d : Word) (s : State) : (writeCode b k d s).rootWeight = s.rootWeight := rfl
@[simp] theorem writeCode_maxLen (b : Byte) (k : Nat) (d : Word) (s : State) : (writeCode b k d s).maxLen = s.maxLen := rfl
@[simp] theorem writeCode_symDepth (b : Byte) (k : Nat) (d : Word) (s : State) : (writeCode b k d s).symDepth = s.symDepth := rfl
@[simp] theorem writeCode_payDepth (b : Byte) (k : Nat) (d : Word) (s : State) : (writeCode b k d s).payDepth = s.payDepth := rfl
@[simp] theorem writeCode_freq (b : Byte) (k : Nat) (d : Word) (s : State) : (writeCode b k d s).freq = s.freq := rfl
@[simp] theorem writeCode_node (b : Byte) (k : Nat) (d : Word) (s : State) : (writeCode b k d s).node = s.node := rfl
@[simp] theorem writeCode_code (b : Byte) (k : Nat) (d : Word) (s : State) : (writeCode b k d s).code = setSymbol s.code b ((atSymbol s.code b).setWord k d) := rfl
@[simp] theorem writeCode_sym (b : Byte) (k : Nat) (d : Word) (s : State) : (writeCode b k d s).sym = s.sym := rfl
@[simp] theorem writeCode_pay (b : Byte) (k : Nat) (d : Word) (s : State) : (writeCode b k d s).pay = s.pay := rfl
@[simp] theorem writeCode_readData (b : Byte) (k : Nat) (d : Word) (s : State) : (writeCode b k d s).readData = s.readData := rfl
@[simp] theorem writeCode_draws (b : Byte) (k : Nat) (d : Word) (s : State) : (writeCode b k d s).draws = s.draws := rfl
@[simp] theorem writeCode_resets (b : Byte) (k : Nat) (d : Word) (s : State) : (writeCode b k d s).resets = s.resets := rfl
@[simp] theorem writeCode_agenda (b : Byte) (k : Nat) (d : Word) (s : State) : (writeCode b k d s).agenda = s.agenda := rfl

/-! ### What depends only on some fields -/

/-- NODE as the engine reads it depends on NODE only. -/
theorem nodeAt_congr {s t : State} (h : s.node = t.node) : s.nodeAt = t.nodeAt := by
  funext i; simp [State.nodeAt, h]

@[simp] theorem complete_busy (op : Byte) (e : ErrCode) (s : State) : (complete op e s).busy = false := rfl

@[simp] theorem issue_busy (w : Word) (s : State) : (issue w s).busy = true := rfl

@[simp] theorem complete_symByte (op : Byte) (e : ErrCode) (s : State) (i : Nat) :
    (complete op e s).symByte i = s.symByte i := rfl

@[simp] theorem complete_payByte (op : Byte) (e : ErrCode) (s : State) (i : Nat) :
    (complete op e s).payByte i = s.payByte i := rfl

end Sys2Proof.Machine
end

