-- ==== Sys2Proof/Laws/Tables.lean ====
section
/-! SUPPORT. The laws of the arrays indexed by symbol, of the node arena and of the code table. -/

namespace Sys2Proof.Machine

/-! ### Arrays indexed by symbol -/

theorem atSymbol_setSymbol {α : Type} (v : Vector α 256) (b c : Byte) (x : α) :
    atSymbol (setSymbol v b x) c = if c = b then x else atSymbol v c := by
  simp only [atSymbol, setSymbol, Vector.getElem_set]
  by_cases h : c = b
  · subst h; simp
  · have : ¬ b.toNat = c.toNat := fun e => h (BitVec.eq_of_toNat_eq e.symm)
    rw [if_neg this, if_neg h]

@[simp] theorem atSymbol_setSymbol_same {α : Type} (v : Vector α 256) (b : Byte) (x : α) :
    atSymbol (setSymbol v b x) b = x := by simp [atSymbol_setSymbol]

@[simp] theorem atSymbol_setSymbol_ne {α : Type} (v : Vector α 256) (b c : Byte) (x : α) (h : c ≠ b) :
    atSymbol (setSymbol v b x) c = atSymbol v c := by simp [atSymbol_setSymbol, h]

@[simp] theorem atSymbol_replicate {α : Type} (b : Byte) (x : α) :
    atSymbol (Vector.replicate 256 x) b = x := by simp [atSymbol]

/-- Arrays that agree at every symbol are equal. -/
theorem symbols_ext {α : Type} {v w : Vector α 256} (h : ∀ b, atSymbol v b = atSymbol w b) : v = w := by
  apply Vector.ext
  intro i hi
  have := h (BitVec.ofNat 8 i)
  simpa [atSymbol, Nat.mod_eq_of_lt hi] using this

@[simp] theorem mem_allSymbols (b : Byte) : b ∈ allSymbols :=
  List.mem_map.2 ⟨b.toNat, List.mem_range.2 b.isLt, by simp⟩

theorem allSymbols_nodup : allSymbols.Nodup := by
  refine (List.nodup_map_iff_inj_on List.nodup_range).2 fun a ha b hb h => ?_
  have := congrArg BitVec.toNat h
  simp only [List.mem_range] at ha hb
  simpa [BitVec.toNat_ofNat, Nat.mod_eq_of_lt ha, Nat.mod_eq_of_lt hb] using this

@[simp] theorem length_allSymbols : allSymbols.length = 256 := by simp [allSymbols]

/-- The symbols are listed in ascending value (R161). -/
theorem allSymbols_sorted : allSymbols.Pairwise fun a b => a.toNat < b.toNat := by
  refine List.pairwise_map.2 (List.Pairwise.imp_of_mem ?_ List.pairwise_lt_range)
  intro a b ha hb h
  simp only [List.mem_range] at ha hb
  simpa [BitVec.toNat_ofNat, Nat.mod_eq_of_lt ha, Nat.mod_eq_of_lt hb] using h

@[simp] theorem mem_codedSymbols (code : Vector CodeEntry 256) (b : Byte) :
    b ∈ codedSymbols code ↔ (atSymbol code b).hasCode = true := by simp [codedSymbols]

@[simp] theorem mem_presentSymbols (freq : Vector Word 256) (b : Byte) :
    b ∈ presentSymbols freq ↔ atSymbol freq b ≠ 0 := by simp [presentSymbols]

theorem presentSymbols_nodup (freq : Vector Word 256) : (presentSymbols freq).Nodup :=
  allSymbols_nodup.filter _

theorem length_presentSymbols_le (freq : Vector Word 256) : (presentSymbols freq).length ≤ 256 :=
  length_allSymbols ▸ List.length_filter_le _ _

/-! ### COUNT -/

/-- The count of a symbol is the number of its occurrences, below the width of a count (R142, R143). -/
theorem countSymbols_toNat (bytes : List Byte) (h : bytes.length < 2 ^ 32) (b : Byte) :
    (atSymbol (countSymbols bytes) b).toNat = bytes.count b := by
  suffices H : ∀ (l : List Byte) (f : Vector Word 256),
      (atSymbol f b).toNat + l.length < 2 ^ 32 →
      (atSymbol (l.foldl (fun f b => setSymbol f b (atSymbol f b + 1)) f) b).toNat
        = (atSymbol f b).toNat + l.count b by
    simpa [countSymbols] using H bytes (Vector.replicate 256 0) (by simpa using h)
  intro l
  induction l with
  | nil => intro f _; simp
  | cons c l ih =>
    intro f hf
    simp only [List.length_cons] at hf
    by_cases hc : c = b
    · subst hc
      have h1 : (atSymbol f c + 1).toNat = (atSymbol f c).toNat + 1 := by
        rw [BitVec.toNat_add]; simp; omega
      rw [List.foldl_cons, ih _ (by simp only [atSymbol_setSymbol_same, h1]; omega)]
      simp only [atSymbol_setSymbol_same, h1, List.count_cons_self]
      omega
    · rw [List.foldl_cons, ih _ (by rw [atSymbol_setSymbol_ne _ _ _ _ (Ne.symm hc)]; omega)]
      rw [atSymbol_setSymbol_ne _ _ _ _ (Ne.symm hc), List.count_cons_of_ne hc]

/-! ### The node arena -/

/-- An arena's entry: the node made, or the all-zero entry (R165). -/
theorem toArena_getElem? (nodes : List Node) (i : Nat) (hi : i < 511) :
    (toArena nodes)[i]? = some (nodes[i]?.getD Node.zero) := by
  rw [← Vector.getElem?_toList]
  have : (toArena nodes).toList = (nodes ++ List.replicate 511 Node.zero).take 511 := rfl
  rw [this, List.getElem?_take_of_lt hi]
  by_cases hn : i < nodes.length
  · rw [List.getElem?_append_left hn, List.getElem?_eq_getElem hn]; rfl
  · rw [List.getElem?_append_right (by omega), List.getElem?_replicate, if_pos (by omega),
      List.getElem?_eq_none (by omega)]
    rfl

/-! ### Codes -/

/-- The entry made for a code holds that code (R180). -/
@[simp] theorem codeEntry_bits (p : Bits) (h : p.length ≤ 255) : (codeEntry p).bits = p := by
  have hl : (BitVec.ofNat 8 p.length).toNat = p.length := by simp; omega
  apply List.ext_getElem
  · simp only [CodeEntry.length_bits, codeEntry, hl]
  intro i h1 h2
  simp only [CodeEntry.bits, codeEntry, List.getElem_map, List.getElem_range]
  rw [codeField_getMsbD p (by omega) i (by omega)]
  simp [h2]

theorem codeEntry_hasCode (p : Bits) (h : p.length ≤ 255) :
    (codeEntry p).hasCode = true ↔ p ≠ [] := by
  rw [CodeEntry.hasCode_iff, codeEntry_bits p h]
  cases p <;> simp

/-- Entries written for other symbols leave a symbol's entry alone. -/
theorem foldl_setSymbol_of_not_mem {b : Byte} (codes : List (Byte × Bits)) (c : Vector CodeEntry 256)
    (h : b ∉ codes.map Prod.fst) :
    atSymbol (codes.foldl (fun c e => setSymbol c e.1 (codeEntry e.2)) c) b = atSymbol c b := by
  induction codes generalizing c with
  | nil => rfl
  | cons e codes ih =>
    simp only [List.map_cons, List.mem_cons, not_or] at h
    rw [List.foldl_cons, ih _ h.2, atSymbol_setSymbol_ne _ _ _ _ h.1]

/-- A symbol the list does not name has no code (R182). -/
theorem codeTable_of_not_mem (codes : List (Byte × Bits)) (b : Byte) (h : b ∉ codes.map Prod.fst) :
    atSymbol (codeTable codes) b = CodeEntry.empty := by
  rw [codeTable, foldl_setSymbol_of_not_mem codes _ h, atSymbol_replicate]

/-- A symbol the list names once has its code's entry (R180, R182). -/
theorem codeTable_of_mem (codes : List (Byte × Bits)) (hn : (codes.map Prod.fst).Nodup)
    (b : Byte) (p : Bits) (h : (b, p) ∈ codes) : atSymbol (codeTable codes) b = codeEntry p := by
  obtain ⟨before, later, rfl⟩ := List.append_of_mem h
  have hb : b ∉ later.map Prod.fst := by
    simp only [List.map_append, List.map_cons, List.nodup_append, List.nodup_cons] at hn
    exact hn.2.1.1
  rw [codeTable, List.foldl_append, List.foldl_cons, foldl_setSymbol_of_not_mem later _ hb,
    atSymbol_setSymbol_same]

/-- No entry among the symbols is longer than their longest. -/
theorem len_le_longestAmong {code : Vector CodeEntry 256} {symbols : List Byte} {b : Byte}
    (hb : b ∈ symbols) : (atSymbol code b).len.toNat ≤ longestAmong code symbols := by
  induction symbols with
  | nil => cases hb
  | cons c symbols ih =>
    rw [longestAmong, le_max_iff]
    exact (List.mem_cons.1 hb).imp (by rintro rfl; exact le_rfl) ih

/-- The longest among some symbols is the length of one of them. -/
theorem exists_longestAmong (code : Vector CodeEntry 256) (c : Byte) (symbols : List Byte) :
    ∃ b, longestAmong code (c :: symbols) = (atSymbol code b).len.toNat := by
  induction symbols generalizing c with
  | nil => exact ⟨c, Nat.max_zero _⟩
  | cons e symbols ih =>
    obtain ⟨b, hb⟩ := ih e
    rw [longestAmong, hb]
    exact (max_choice _ _).elim (⟨c, ·⟩) (⟨b, ·⟩)

/-- The longest length is some symbol's (R180, R190). -/
theorem exists_longestCode (code : Vector CodeEntry 256) :
    ∃ b, (atSymbol code b).len = longestCode code := by
  obtain ⟨b, hb⟩ := exists_longestAmong code 0 allSymbols.tail
  exact ⟨b, by rw [longestCode, show allSymbols = 0 :: allSymbols.tail from rfl, hb, BitVec.ofNat_toNat,
    BitVec.setWidth_eq]⟩

/-- No code is longer than the longest (R180, R190). -/
theorem len_le_longestCode (code : Vector CodeEntry 256) (b : Byte) :
    (atSymbol code b).len.toNat ≤ (longestCode code).toNat := by
  obtain ⟨c, hc⟩ := exists_longestAmong code 0 allSymbols.tail
  have hlong : (longestCode code).toNat = longestAmong code allSymbols := by
    rw [longestCode, BitVec.toNat_ofNat, show allSymbols = 0 :: allSymbols.tail from rfl, hc]
    exact Nat.mod_eq_of_lt (atSymbol code c).len.isLt
  exact hlong ▸ len_le_longestAmong (mem_allSymbols b)

/-- What the reverse table finds has that code (R53, R222). -/
theorem revLookup_some {code : Vector CodeEntry 256} {p : Bits} {b : Byte}
    (h : revLookup code p = some b) : (atSymbol code b).hasCode = true ∧ (atSymbol code b).bits = p := by
  have := List.find?_some h
  simpa using this

/-- The reverse table finds nothing exactly when no symbol has that code (R53, R222). -/
theorem revLookup_none {code : Vector CodeEntry 256} {p : Bits} :
    revLookup code p = none ↔ ∀ b, (atSymbol code b).hasCode = true → (atSymbol code b).bits ≠ p := by
  simp [revLookup, List.find?_eq_none]

end Sys2Proof.Machine
end

