-- ==== Sys2Proof/Laws/Bus.lean ====
section
/-! SUPPORT. The address map (10_state.md R33, R57) and what a transaction can do (20_memory.md R84, R92,
R93). -/

namespace Sys2Proof.Machine

/-! ### The address map -/

theorem wordAddress_eq (a : Addr) : wordAddress a = 4 * (a.toNat / 4) := by unfold wordAddress; omega

/-- Address bits 1:0 are ignored (R81). -/
theorem target_congr {a b : Addr} (h : a.toNat / 4 = b.toNat / 4) : target a = target b := by
  simp only [target, wordAddress_eq, h]

@[simp] theorem target_reg (r : Reg) : target r.addr = .reg r := by cases r <;> decide

theorem toNat_ofNat24 {n : Nat} (h : n < 2 ^ 24) : (BitVec.ofNat 24 n).toNat = n := by
  rw [BitVec.toNat_ofNat]; exact Nat.mod_eq_of_lt h

@[simp] theorem target_freq (b : Byte) : target (freqAddr b) = .freq b := by
  have hb := b.isLt
  have h : wordAddress (freqAddr b) = 0x400 + 4 * b.toNat := by
    rw [wordAddress_eq, freqAddr, toNat_ofNat24 (by omega)]; omega
  simp only [target, h]
  split_ifs <;> first | omega | simp

theorem target_code (b : Byte) (k : Nat) (hk : k < 16) : target (codeAddr b k) = .code b k := by
  have hb := b.isLt
  have h : wordAddress (codeAddr b k) = 0x4000 + 64 * b.toNat + 4 * k := by
    rw [wordAddress_eq, codeAddr, toNat_ofNat24 (by omega)]; omega
  have hs : (0x4000 + 64 * b.toNat + 4 * k - 0x4000) / 64 = b.toNat := by omega
  have hw : (0x4000 + 64 * b.toNat + 4 * k - 0x4000) % 64 / 4 = k := by omega
  simp only [target, h]
  split_ifs <;> first | omega | simp [hs, hw]

theorem target_node (i k : Nat) (hi : i < 511) (hk : k < 4) : target (nodeAddr i k) = .node i k := by
  have h : wordAddress (nodeAddr i k) = 0x8000 + 16 * i + 4 * k := by
    rw [wordAddress_eq, nodeAddr, toNat_ofNat24 (by omega)]; omega
  have hs : (0x8000 + 16 * i + 4 * k - 0x8000) / 16 = i := by omega
  have hw : (0x8000 + 16 * i + 4 * k - 0x8000) % 16 / 4 = k := by omega
  simp only [target, h]
  split_ifs <;> first | omega | simp [hs, hw]

theorem target_sym (j : Nat) (h4 : j % 4 = 0) (hj : j < 2 ^ 20) : target (symAddr j) = .sym j := by
  have h : wordAddress (symAddr j) = 0x100000 + j := by
    rw [wordAddress_eq, symAddr, toNat_ofNat24 (by omega)]; omega
  simp only [target, h]
  split_ifs <;> first | omega | simp

theorem target_pay (j : Nat) (h4 : j % 4 = 0) (hj : j < 2 ^ 21) : target (payAddr j) = .pay j := by
  have h : wordAddress (payAddr j) = 0x200000 + j := by
    rw [wordAddress_eq, payAddr, toNat_ofNat24 (by omega)]; omega
  simp only [target, h]
  split_ifs <;> first | omega | simp

/-! ### Reads -/

/-- A read changes only the word it returns and the count of draws (R84). -/
theorem busRead_effect (a : Addr) (s : State) :
    ∃ w n, busRead a s = { s with readData := w, draws := n } := by
  unfold busRead
  split
  · unfold busyRead
    repeat' split
    all_goals exact ⟨_, _, rfl⟩
  · exact ⟨_, _, rfl⟩

/-- Bit 0 of a STATUS read is BUSY, whatever is drawn (R38, R93). -/
theorem busRead_status_bit0 (s : State) :
    (busRead Reg.status.addr s).readData.getLsbD 0 = s.busy := by
  unfold busRead
  by_cases h : s.busy = true
  · simp [h, busyRead, drawStatus, State.busyStatusWord, flagBit]
  · have h' : s.busy = false := by simpa using h
    simp only [h', Bool.false_eq_true, if_false, target_reg, returnWord_readData, State.targetWord,
      State.regWord, State.statusWord, flagBit]
    cases s.done <;> cases s.error <;> cases s.overrun <;> cases s.treeValid <;> cases s.tableValid <;>
      simp

/-! ### Writes -/

/-- What a write can do: a soft reset, the issue of a command, a STATUS clear, a write of one register or
one window word, an overrun, or nothing (R36 to R57, R83, R92). -/
theorem busWrite_cases (a : Addr) (d : Word) (s : State) :
    busWrite a d s = s ∨ busWrite a d s = softReset s ∨ busWrite a d s = clearStatus d s
    ∨ (∃ o, busWrite a d s = { s with overrun := o } ∧ s.busy = true)
    ∨ (s.busy = false ∧ (busWrite a d s = issue d s ∨ busWrite a d s = { s with symLen := d }
      ∨ busWrite a d s = { s with payLen := d }
      ∨ (∃ b, busWrite a d s = { s with freq := setSymbol s.freq b d })
      ∨ (∃ b k, busWrite a d s = writeCode b k d s)
      ∨ (∃ j, busWrite a d s = { s with sym := storeWord s.symDepth j d s.sym })
      ∨ (∃ j, busWrite a d s = { s with pay := storeWord s.payDepth j d s.pay }))) := by
  unfold busWrite
  by_cases hb : s.busy = true
  · simp only [hb, if_true]
    unfold busyWrite
    split
    case h_1 => unfold writeCtrl; split <;> simp
    case h_2 => simp
    case h_7 => unfold busyWindowWrite overrunWrite; split <;> exact .inr (.inr (.inr (.inl ⟨_, rfl, trivial⟩)))
    case h_8 => unfold busyWindowWrite overrunWrite; split <;> exact .inr (.inr (.inr (.inl ⟨_, rfl, trivial⟩)))
    case h_9 => unfold busyWindowWrite overrunWrite; split <;> exact .inr (.inr (.inr (.inl ⟨_, rfl, trivial⟩)))
    case h_10 => simp
    all_goals exact .inr (.inr (.inr (.inl ⟨true, rfl, trivial⟩)))
  · have hb' : s.busy = false := by simpa using hb
    simp only [hb', Bool.false_eq_true, if_false]
    unfold idleWrite
    split
    case h_1 => unfold writeCtrl; split <;> simp
    case h_2 => exact .inr (.inr (.inr (.inr ⟨trivial, .inl rfl⟩)))
    case h_3 => simp
    case h_4 => exact .inr (.inr (.inr (.inr ⟨trivial, .inr (.inl rfl)⟩)))
    case h_5 => exact .inr (.inr (.inr (.inr ⟨trivial, .inr (.inr (.inl rfl))⟩)))
    case h_6 => exact .inr (.inr (.inr (.inr ⟨trivial, .inr (.inr (.inr (.inl ⟨_, rfl⟩)))⟩)))
    case h_7 => exact .inr (.inr (.inr (.inr ⟨trivial, .inr (.inr (.inr (.inr (.inl ⟨_, _, rfl⟩))))⟩)))
    case h_8 =>
      exact .inr (.inr (.inr (.inr ⟨trivial, .inr (.inr (.inr (.inr (.inr (.inl ⟨_, rfl⟩)))))⟩)))
    case h_9 =>
      exact .inr (.inr (.inr (.inr ⟨trivial, .inr (.inr (.inr (.inr (.inr (.inr ⟨_, rfl⟩)))))⟩)))
    case h_10 => simp

/-! ### Unused words of the windows -/

/-- An unused word of a window reads 0 while BUSY = 1, as reserved addresses do (R49, R93). -/
theorem busRead_busy_unused {a : Addr} {s : State} (hb : s.busy = true) (hu : s.unused (target a) = true) :
    busRead a s = { s with readData := 0 } := by
  rw [busRead, if_pos hb]
  cases ht : target a <;> simp_all [busyRead, returnWord, State.unused]

/-- A busy write to an unused word of a window changes OVERRUN at most, and never clears it (R92; log 8). -/
theorem busWrite_busy_unused {a : Addr} {s : State} (d : Word) (hb : s.busy = true)
    (hu : s.unused (target a) = true) :
    ∃ o, busWrite a d s = { s with overrun := o } ∧ (s.overrun = true → o = true) := by
  rw [busWrite, if_pos hb]
  refine ⟨s.overrun || Config.unusedWordOverruns (wordAddress a), ?_, fun h => by simp [h]⟩
  cases ht : target a <;> simp_all [busyWrite, busyWindowWrite, State.unused]

/-! ### Words of the windows -/

/-- Code bit `c_i` is BITS(⌊i/32⌋) bit `31 − (i mod 32)` (R52). -/
theorem CodeEntry.word_bit (e : CodeEntry) (i : Nat) (hi : i < 256) :
    (e.word (1 + i / 32)).getLsbD (31 - i % 32) = e.field.getMsbD i := by
  have h1 : ¬ 1 + i / 32 = 0 := by omega
  have h2 : 1 + i / 32 ≤ 8 := by omega
  rw [CodeEntry.word, if_neg h1, if_pos h2, BitVec.getMsbD_eq_getLsbD, BitVec.getLsbD_extractLsb']
  rw [show 224 - 32 * (1 + i / 32 - 1) + (31 - i % 32) = 256 - 1 - i by omega]
  simp [hi]; omega

/-- Writing a word of an entry and reading any word back (R52). -/
theorem CodeEntry.word_setWord (e : CodeEntry) (k l : Nat) (d : Word) :
    (e.setWord k d).word l = if l = k then (if k = 0 then d &&& 0xFF else if k ≤ 8 then d else 0)
      else e.word l := by
  unfold CodeEntry.setWord
  by_cases hk0 : k = 0
  · subst hk0
    by_cases hl : l = 0
    · subst hl
      simp only [if_true, CodeEntry.word]
      apply BitVec.eq_of_getLsbD_eq
      intro i hi
      simp only [BitVec.getLsbD_setWidth, BitVec.getLsbD_and, hi, decide_true, Bool.true_and]
      rw [show (0xFF : Word) = BitVec.ofNat 32 (2 ^ 8 - 1) by rfl, BitVec.getLsbD_ofNat,
        Nat.testBit_two_pow_sub_one]
      simp only [hi, decide_true, Bool.true_and]
      cases h8 : decide (i < 8) <;> simp
    · simp [CodeEntry.word, hl]
  · rw [if_neg hk0]
    by_cases hk8 : k ≤ 8
    · rw [if_pos hk8, if_neg hk0, if_pos hk8]
      by_cases hl : l = k
      · subst hl
        rw [if_pos rfl]
        simp only [CodeEntry.word, if_neg hk0, if_pos hk8]
        apply BitVec.eq_of_getLsbD_eq
        intro i hi
        simp only [BitVec.getLsbD_extractLsb', BitVec.getLsbD_or, BitVec.getLsbD_and, BitVec.getLsbD_not,
          BitVec.getLsbD_shiftLeft, BitVec.getLsbD_setWidth, BitVec.getLsbD_allOnes, hi, decide_true,
          Bool.true_and]
        have h1 : 224 - 32 * (l - 1) + i < 256 := by omega
        have h2 : ¬ (224 - 32 * (l - 1) + i < 224 - 32 * (l - 1)) := by omega
        have h3 : 224 - 32 * (l - 1) + i - (224 - 32 * (l - 1)) = i := by omega
        have h4 : i < 256 := by omega
        simp [h1, h2, h3, h4, hi]
      · rw [if_neg hl]
        by_cases hl0 : l = 0
        · subst hl0; simp [CodeEntry.word]
        by_cases hl8 : l ≤ 8
        · simp only [CodeEntry.word, if_neg hl0, if_pos hl8]
          apply BitVec.eq_of_getLsbD_eq
          intro i hi
          simp only [BitVec.getLsbD_extractLsb', BitVec.getLsbD_or, BitVec.getLsbD_and, BitVec.getLsbD_not,
            BitVec.getLsbD_shiftLeft, BitVec.getLsbD_setWidth, BitVec.getLsbD_allOnes, hi, decide_true,
            Bool.true_and]
          have h1 : 224 - 32 * (l - 1) + i < 256 := by omega
          rcases Nat.lt_or_gt_of_ne hl with h | h
          · have h2 : ¬ (224 - 32 * (l - 1) + i < 224 - 32 * (k - 1)) := by omega
            have h3 : ¬ (224 - 32 * (l - 1) + i - (224 - 32 * (k - 1)) < 32) := by omega
            have h4 : d.getLsbD (224 - 32 * (l - 1) + i - (224 - 32 * (k - 1))) = false :=
              BitVec.getLsbD_of_ge _ _ (by omega)
            simp [h1, h2, h3, h4]
          · have h2 : 224 - 32 * (l - 1) + i < 224 - 32 * (k - 1) := by omega
            simp [h1, h2]
        · simp [CodeEntry.word, hl0, hl8]
    · rw [if_neg hk8]
      by_cases hl : l = k
      · subst hl; simp [CodeEntry.word, hk0, hk8]
      · simp [hl]

end Sys2Proof.Machine
end

