-- ==== Sys2Proof/Laws/Tree.lean ====
section
/-! SUPPORT. BUILD makes a tree (41_tree_builder.md): the queue always holds the roots of a forest over the
arena, and a merge joins two of its trees. -/

namespace Sys2Proof.Machine

/-! ### The priority queue (R163) -/

theorem Queued.before_iff (a b : Queued) : a.before b = true ↔
    a.weight.toNat < b.weight.toNat ∨ (a.weight.toNat = b.weight.toNat ∧ a.seq < b.seq) := by
  simp [Queued.before]

/-- The order is transitive. -/
theorem Queued.before_trans {a b c : Queued} (h1 : a.before b = true) (h2 : b.before c = true) :
    a.before c = true := by
  rw [Queued.before_iff] at *; omega

/-- The order is total on distinct sequence numbers. -/
theorem Queued.before_total {a b : Queued} (h : a.seq ≠ b.seq) (h' : b.before a = false) :
    a.before b = true := by
  rw [← Bool.not_eq_true, Queued.before_iff] at h'
  rw [Queued.before_iff]; omega

/-- Removing the least entry loses and adds nothing. -/
theorem removeLeast_perm (q : List Queued) : ∀ a : Queued,
    ((removeLeast a q).1 :: (removeLeast a q).2).Perm (a :: q) := by
  induction q with
  | nil => intro a; exact List.Perm.refl _
  | cons b q ih =>
    intro a
    unfold removeLeast
    split
    · refine (List.Perm.swap _ _ _).trans ?_
      exact (ih b).cons a
    · refine (List.Perm.swap _ _ _).trans ?_
      exact ((ih a).cons b).trans (List.Perm.swap _ _ _)

/-- No entry of the queue comes before the one removed (R160 `argmin`). -/
theorem removeLeast_least (q : List Queued) : ∀ a : Queued, ∀ x ∈ a :: q,
    x.before (removeLeast a q).1 = false := by
  induction q with
  | nil =>
    intro a x hx
    rcases List.mem_cons.1 hx with rfl | hx
    · rw [← Bool.not_eq_true, Queued.before_iff]; simp [removeLeast]
    · simp at hx
  | cons b q ih =>
    intro a x hx
    unfold removeLeast
    split
    case isTrue hba =>
      have hb := ih b b List.mem_cons_self
      rcases List.mem_cons.1 hx with rfl | hx
      · rw [← Bool.not_eq_true] at hb ⊢
        exact fun h => hb (Queued.before_trans hba h)
      · exact ih b x hx
    case isFalse hba =>
      have ha := ih a a List.mem_cons_self
      rcases List.mem_cons.1 hx with rfl | hx
      · exact ha
      rcases List.mem_cons.1 hx with rfl | hx
      · show x.before (removeLeast a q).1 = false
        rw [← Bool.not_eq_true, Queued.before_iff] at ha ⊢
        rw [Queued.before_iff] at hba
        omega
      · exact ih a x (List.mem_cons_of_mem _ hx)

theorem length_removeLeast (q : List Queued) (a : Queued) : (removeLeast a q).2.length = q.length := by
  have := (removeLeast_perm q a).length_eq
  simpa using this

/-- The least entry is a member, and so is every entry that remains. -/
theorem removeLeast_mem (q : List Queued) (a : Queued) : (removeLeast a q).1 ∈ a :: q :=
  (removeLeast_perm q a).mem_iff.1 List.mem_cons_self

/-! ### Trees stored in an arena -/

theorem Shape.root_mem_indices (t : Shape) : t.root ∈ t.indices := by
  cases t <;> simp [Shape.root, Shape.indices]

theorem Shape.storedIn_root {nodeAt : Nat → Option Node} {t : Shape} (h : t.storedIn nodeAt) :
    ∃ n, nodeAt t.root = some n := by
  cases t with
  | leaf i => obtain ⟨b, w, h⟩ := h; exact ⟨_, h⟩
  | node i l r => obtain ⟨⟨n, h, -⟩, -⟩ := h; exact ⟨n, h⟩

/-- An arena that keeps every entry keeps every tree. -/
theorem Shape.storedIn_mono {f g : Nat → Option Node} {t : Shape}
    (hfg : ∀ i ∈ t.indices, ∀ n, f i = some n → g i = some n) (h : t.storedIn f) : t.storedIn g := by
  induction t with
  | leaf i =>
    obtain ⟨b, w, h⟩ := h
    exact ⟨b, w, hfg i (by simp [Shape.indices]) _ h⟩
  | node i l r ihl ihr =>
    obtain ⟨⟨n, hn, h1, h2, h3, h4, h5⟩, hl, hr⟩ := h
    obtain ⟨nl, hnl⟩ := Shape.storedIn_root hl
    obtain ⟨nr, hnr⟩ := Shape.storedIn_root hr
    have hl' : ∀ j ∈ l.indices, ∀ n, f j = some n → g j = some n :=
      fun j hj => hfg j (by simp [Shape.indices, hj])
    have hr' : ∀ j ∈ r.indices, ∀ n, f j = some n → g j = some n :=
      fun j hj => hfg j (by simp [Shape.indices, hj])
    refine ⟨⟨n, hfg i (by simp [Shape.indices]) n hn, h1, h2, h3, h4, ?_⟩, ihl hl' hl, ihr hr' hr⟩
    rw [h5]
    simp [weightAt, hnl, hnr, hl' _ l.root_mem_indices _ hnl, hr' _ r.root_mem_indices _ hnr]

theorem Shape.length_indices (t : Shape) : t.indices.length + 1 = 2 * t.leaves.length := by
  induction t with
  | leaf i => rfl
  | node i l r ihl ihr => simp [Shape.indices, Shape.leaves]; omega

theorem Shape.leaves_subset (t : Shape) : t.leaves ⊆ t.indices := by
  induction t with
  | leaf i => simp [Shape.leaves, Shape.indices]
  | node i l r ihl ihr =>
    intro x hx
    simp only [Shape.leaves, List.mem_append] at hx
    simp only [Shape.indices, List.mem_cons, List.mem_append]
    rcases hx with hx | hx
    · exact .inr (.inl (ihl hx))
    · exact .inr (.inr (ihr hx))

/-! ### The forest of the merge loop -/

/-- The entries of an arena under construction. -/
abbrev entries (arena : List Node) : Nat → Option Node := fun i => arena[i]?

/-- The queue holds the roots of trees that partition the arena, with their weights; `L` leaves come
first. -/
structure Forest (L : Nat) (arena : List Node) (queue : List Queued) (trees : List Shape) : Prop where
  roots   : (trees.map Shape.root).Perm (queue.map Queued.seq)
  stored  : ∀ t ∈ trees, t.storedIn (entries arena)
  weights : ∀ q ∈ queue, weightAt (entries arena) q.seq = q.weight.toNat
  indices : (trees.flatMap Shape.indices).Perm (List.range arena.length)
  leaves  : (trees.flatMap Shape.leaves).Perm (List.range L)
  last    : ∀ q, queue = [q] → q.seq = arena.length - 1

/-- The total weight of a queue. -/
def totalWeight (queue : List Queued) : Nat := (queue.map fun q => q.weight.toNat).sum

/-- A queued root is the root of one tree of the forest, and the other trees have the other roots. -/
theorem exists_tree_of_root {trees : List Shape} {root : Nat} {roots : List Nat}
    (h : (trees.map Shape.root).Perm (root :: roots)) :
    ∃ t others, trees.Perm (t :: others) ∧ t.root = root ∧ (others.map Shape.root).Perm roots := by
  obtain ⟨t, ht, hroot⟩ := List.mem_map.1 (h.symm.subset List.mem_cons_self)
  refine ⟨t, trees.erase t, List.perm_cons_erase ht, hroot, List.Perm.cons_inv (a := root) ?_⟩
  rw [← hroot, ← List.map_cons]
  exact hroot ▸ ((List.perm_cons_erase ht).map _).symm.trans h

/-- A merge joins two trees of the forest. -/
theorem Forest.merge {L : Nat} {arena : List Node} {queue rest : List Queued} {trees : List Shape}
    {a b : Queued} (F : Forest L arena queue trees) (hq : queue.Perm (a :: b :: rest))
    (hlen : arena.length < 511) (hw : totalWeight queue < 2 ^ 40) :
    ∃ trees', Forest L (arena ++ [mergedNode a b])
      ({ weight := (mergedNode a b).weight, seq := arena.length } :: rest) trees' := by
  have hr : (trees.map Shape.root).Perm (a.seq :: b.seq :: rest.map Queued.seq) :=
    F.roots.trans (hq.map Queued.seq)
  obtain ⟨ta, ts, hp1, hta, hr1⟩ := exists_tree_of_root hr
  obtain ⟨tb, us, hp2, htb, hr2⟩ := exists_tree_of_root hr1
  have hp : trees.Perm (ta :: tb :: us) := hp1.trans (hp2.cons ta)
  have hidx : ∀ t ∈ trees, ∀ i ∈ t.indices, i < arena.length := fun t ht i hi =>
    List.mem_range.1 (F.indices.mem_iff.1 (List.mem_flatMap.2 ⟨t, ht, hi⟩))
  have hkeep : ∀ i, i < arena.length → ∀ n, entries arena i = some n →
      entries (arena ++ [mergedNode a b]) i = some n := by
    intro i hi n hn
    simpa [entries, List.getElem?_append_left hi] using hn
  have hstored : ∀ t ∈ trees, t.storedIn (entries (arena ++ [mergedNode a b])) := fun t ht =>
    Shape.storedIn_mono (fun i hi n hn => hkeep i (hidx t ht i hi) n hn) (F.stored t ht)
  have hma : ta ∈ trees := hp.mem_iff.2 (by simp)
  have hmb : tb ∈ trees := hp.mem_iff.2 (by simp)
  have hia : ta.root < arena.length := hidx ta hma _ ta.root_mem_indices
  have hib : tb.root < arena.length := hidx tb hmb _ tb.root_mem_indices
  have hweight : ∀ i, i < arena.length →
      weightAt (entries (arena ++ [mergedNode a b])) i = weightAt (entries arena) i := by
    intro i hi
    simp [weightAt, entries, List.getElem?_append_left hi]
  have hsum : a.weight.toNat + b.weight.toNat < 2 ^ 40 := by
    have := (hq.map fun q => q.weight.toNat).sum_eq
    simp only [totalWeight] at hw
    rw [this] at hw
    simp only [List.map_cons, List.sum_cons] at hw
    omega
  have hmw : (mergedNode a b).weight.toNat = a.weight.toNat + b.weight.toNat := by
    simp only [mergedNode, BitVec.toNat_add]
    exact Nat.mod_eq_of_lt hsum
  have hnew : entries (arena ++ [mergedNode a b]) arena.length = some (mergedNode a b) := by
    simp [entries]
  refine ⟨.node arena.length ta tb :: us, ?_, ?_, ?_, ?_, ?_, ?_⟩
  · exact hr2.cons arena.length
  · intro t ht
    rcases List.mem_cons.1 ht with rfl | ht
    · refine ⟨⟨mergedNode a b, hnew, rfl, rfl, ?_, ?_, ?_⟩, hstored ta hma, hstored tb hmb⟩
      · simp only [mergedNode, BitVec.toNat_ofNat, hta]; omega
      · simp only [mergedNode, BitVec.toNat_ofNat, htb]; omega
      · rw [hweight _ hia, hweight _ hib, hta, htb, F.weights a (hq.mem_iff.2 (by simp)),
          F.weights b (hq.mem_iff.2 (by simp)), hmw]
    · exact hstored t (hp.mem_iff.2 (by simp [ht]))
  · intro q hqm
    rcases List.mem_cons.1 hqm with rfl | hqm
    · simp [weightAt]
    · have hqq : q ∈ queue := hq.mem_iff.2 (by simp [hqm])
      obtain ⟨t, ht, hts⟩ := List.mem_map.1 (F.roots.mem_iff.2 (List.mem_map.2 ⟨q, hqq, rfl⟩))
      rw [hweight _ (hts ▸ hidx t ht _ t.root_mem_indices), F.weights q hqq]
  · rw [List.length_append, List.length_singleton, List.range_succ]
    have h1 : (ta.indices ++ (tb.indices ++ us.flatMap Shape.indices)).Perm (List.range arena.length) := by
      simpa using (hp.flatMap_right Shape.indices).symm.trans F.indices
    have h2 := (h1.cons arena.length).trans (List.perm_append_singleton _ _).symm
    simpa [Shape.indices] using h2
  · simpa [Shape.leaves] using (hp.flatMap_right Shape.leaves).symm.trans F.leaves
  · rintro q hqe
    obtain ⟨rfl, -⟩ : q = _ ∧ rest = [] := by simpa using hqe.symm
    simp

/-- The total weight is kept by a merge (R167). -/
theorem totalWeight_merge {queue rest : List Queued} {a b : Queued} (n : Nat)
    (hq : queue.Perm (a :: b :: rest)) (hw : totalWeight queue < 2 ^ 40) :
    totalWeight ({ weight := (mergedNode a b).weight, seq := n } :: rest) = totalWeight queue := by
  have h := (hq.map fun q => q.weight.toNat).sum_eq
  simp only [totalWeight] at *
  rw [h] at hw ⊢
  simp only [List.map_cons, List.sum_cons, mergedNode, BitVec.toNat_add] at *
  rw [Nat.mod_eq_of_lt (by omega)]
  omega

/-- The merge loop ends with one tree over an arena that extends the first, `#queue − 1` nodes longer, and
keeps the total weight (R160, R166, R167). -/
theorem mergeLoop_tree (L : Nat) : ∀ (fuel : Nat) (arena : List Node) (queue : List Queued)
    (trees : List Shape), Forest L arena queue trees → queue ≠ [] → queue.length ≤ fuel + 1 →
    arena.length + queue.length ≤ 512 → totalWeight queue < 2 ^ 40 →
    ∃ (q : Queued) (t : Shape), Forest L (mergeLoop fuel arena queue) [q] [t]
      ∧ arena <+: mergeLoop fuel arena queue
      ∧ (mergeLoop fuel arena queue).length + 1 = arena.length + queue.length
      ∧ q.weight.toNat = totalWeight queue := by
  intro fuel
  induction fuel with
  | zero =>
    intro arena queue trees F hne hlen _ _
    match queue, hne, hlen with
    | [q], _, _ =>
      obtain ⟨t, ts, hp, hroot, hts⟩ := exists_tree_of_root (root := q.seq) (roots := [])
        (by simpa using F.roots)
      have : ts = [] := by simpa using hts
      subst this
      have : trees = [t] := by simpa using hp
      subst this
      exact ⟨q, t, F, List.prefix_rfl, rfl, by simp [totalWeight]⟩
  | succ fuel ih =>
    intro arena queue trees F hne hlen hroom hw
    match queue, hne, hlen with
    | [q], _, _ =>
      obtain ⟨t, ts, hp, hroot, hts⟩ := exists_tree_of_root (root := q.seq) (roots := [])
        (by simpa using F.roots)
      have : ts = [] := by simpa using hts
      subst this
      have : trees = [t] := by simpa using hp
      subst this
      exact ⟨q, t, F, List.prefix_rfl, rfl, by simp [totalWeight]⟩
    | a0 :: b0 :: q, _, hlen =>
      have hp1 := removeLeast_perm (b0 :: q) a0
      have hl1 := length_removeLeast (b0 :: q) a0
      rcases hrest : (removeLeast a0 (b0 :: q)).2 with - | ⟨c0, r⟩
      · rw [hrest] at hl1; simp at hl1
      · have hp2 := removeLeast_perm r c0
        have hl2 := length_removeLeast r c0
        rw [hrest] at hp1 hl1
        have hq := (hp1.symm).trans ((hp2.symm).cons (removeLeast a0 (b0 :: q)).1)
        simp only [List.length_cons] at hl1 hlen hroom
        obtain ⟨trees', F'⟩ := F.merge hq (by omega) hw
        have hw' := totalWeight_merge arena.length hq hw
        have hstep : mergeLoop (fuel + 1) arena (a0 :: b0 :: q)
            = mergeLoop fuel (arena ++ [mergedNode (removeLeast a0 (b0 :: q)).1 (removeLeast c0 r).1])
                ({ weight := (mergedNode (removeLeast a0 (b0 :: q)).1 (removeLeast c0 r).1).weight
                   seq := arena.length } :: (removeLeast c0 r).2) := by
          rw [mergeLoop]; simp only [hrest]
        obtain ⟨q', t, G, hpre, hlen', hwt⟩ := ih _ _ trees' F' (by simp)
          (by simp only [List.length_cons]; omega)
          (by simp only [List.length_cons, List.length_append, List.length_nil]; omega)
          (by rw [hw']; exact hw)
        rw [hstep]
        refine ⟨q', t, G, (List.prefix_append _ _).trans hpre, ?_, hwt.trans hw'⟩
        simp only [List.length_cons, List.length_append, List.length_nil] at hlen' ⊢
        omega

/-! ### BUILD -/

theorem length_seedQueue (freq : Vector Word 256) :
    (seedQueue freq).length = (presentSymbols freq).length := by simp [seedQueue, seedArena]

theorem seedArena_getElem? (freq : Vector Word 256) (k : Nat) :
    (seedArena freq)[k]? = (presentSymbols freq)[k]?.map (leafNode freq) := by simp [seedArena]

theorem map_seq_seedQueue (freq : Vector Word 256) :
    (seedQueue freq).map Queued.seq = List.range (presentSymbols freq).length := by
  simp only [seedQueue, List.map_map]
  have : (Queued.seq ∘ fun p : Node × Nat => ({ weight := p.1.weight, seq := p.2 } : Queued)) = Prod.snd := rfl
  rw [this, List.zipIdx_map_snd, List.range_eq_range']
  simp [seedArena]

/-- A leaf's weight is its count (R160, R167). -/
theorem leafNode_weight (freq : Vector Word 256) (b : Byte) :
    (leafNode freq b).weight.toNat = (atSymbol freq b).toNat := by
  have := (atSymbol freq b).isLt
  simp only [leafNode, BitVec.toNat_setWidth]
  omega

theorem totalWeight_seedQueue (freq : Vector Word 256) : totalWeight (seedQueue freq)
    = ((presentSymbols freq).map fun b => (atSymbol freq b).toNat).sum := by
  simp only [totalWeight, seedQueue, List.map_map]
  have : ((fun q : Queued => q.weight.toNat) ∘ fun p : Node × Nat => ({ weight := p.1.weight, seq := p.2 } : Queued))
      = (fun n : Node => n.weight.toNat) ∘ Prod.fst := rfl
  rw [this, ← List.map_map, List.zipIdx_map_fst, seedArena, List.map_map]
  exact congrArg List.sum (List.map_congr_left fun b _ => leafNode_weight freq b)

/-- No weight wraps: the counts of 256 symbols sum below 2^40 (R167). -/
theorem totalWeight_seedQueue_lt (freq : Vector Word 256) : totalWeight (seedQueue freq) < 2 ^ 40 := by
  rw [totalWeight_seedQueue]
  have h1 : ∀ x ∈ (presentSymbols freq).map fun b => (atSymbol freq b).toNat, x ≤ 2 ^ 32 - 1 := by
    intro x hx
    obtain ⟨b, -, rfl⟩ := List.mem_map.1 hx
    have := (atSymbol freq b).isLt
    omega
  have h2 := List.sum_le_card_nsmul _ _ h1
  have h3 := length_presentSymbols_le freq
  rw [List.length_map, smul_eq_mul] at h2
  have : (presentSymbols freq).length * (2 ^ 32 - 1) ≤ 256 * (2 ^ 32 - 1) := Nat.mul_le_mul_right _ h3
  omega

/-- The seeded leaves are a forest of single nodes (R161, R162). -/
theorem seed_forest (freq : Vector Word 256) : Forest (presentSymbols freq).length (seedArena freq)
    (seedQueue freq) ((List.range (presentSymbols freq).length).map Shape.leaf) := by
  have hlen : (seedArena freq).length = (presentSymbols freq).length := by simp [seedArena]
  have hid : ∀ n, ((List.range n).map Shape.leaf).flatMap Shape.indices = List.range n := by
    intro n; simp [List.flatMap_map, Shape.indices]
  have hlv : ∀ n, ((List.range n).map Shape.leaf).flatMap Shape.leaves = List.range n := by
    intro n; simp [List.flatMap_map, Shape.leaves]
  refine ⟨?_, ?_, ?_, ?_, ?_, ?_⟩
  · rw [map_seq_seedQueue, List.map_map]
    have : Shape.root ∘ Shape.leaf = id := rfl
    simp [this]
  · intro t ht
    obtain ⟨k, hk, rfl⟩ := List.mem_map.1 ht
    have hk' : k < (presentSymbols freq).length := List.mem_range.1 hk
    refine ⟨(presentSymbols freq)[k], (atSymbol freq (presentSymbols freq)[k]).setWidth 40, ?_⟩
    show (seedArena freq)[k]? = _
    rw [seedArena_getElem?, List.getElem?_eq_getElem hk']; rfl
  · intro q hq
    obtain ⟨⟨n, k⟩, hnk, rfl⟩ := List.mem_map.1 hq
    have := List.mem_zipIdx_iff_getElem?.1 hnk
    simp only at this
    simp [weightAt, entries, this]
  · rw [hid, hlen]
  · rw [hlv]
  · intro q hq
    have h1 := map_seq_seedQueue freq
    have h2 := length_seedQueue freq
    rw [hq] at h1 h2
    simp only [List.length_singleton] at h2
    rw [← h2] at h1
    have : q.seq = 0 := by simpa using h1
    rw [hlen, ← h2, this]

/-- BUILD's arena is one tree: `2L − 1` nodes, the leaves first, the root last, the root's weight the sum
of the counts (R160 to R167). -/
theorem buildArena_tree (freq : Vector Word 256) (h : (presentSymbols freq).length ≠ 0) :
    ∃ t : Shape, t.storedIn (entries (buildArena freq))
      ∧ t.root = (buildArena freq).length - 1
      ∧ t.indices.Perm (List.range (buildArena freq).length)
      ∧ t.leaves.Perm (List.range (presentSymbols freq).length)
      ∧ seedArena freq <+: buildArena freq
      ∧ (buildArena freq).length = 2 * (presentSymbols freq).length - 1
      ∧ weightAt (entries (buildArena freq)) ((buildArena freq).length - 1)
        = ((presentSymbols freq).map fun b => (atSymbol freq b).toNat).sum := by
  have hlq := length_seedQueue freq
  have hla : (seedArena freq).length = (presentSymbols freq).length := by simp [seedArena]
  have hle := length_presentSymbols_le freq
  obtain ⟨q, t, G, hpre, hlen, hw⟩ := mergeLoop_tree (presentSymbols freq).length
    (presentSymbols freq).length (seedArena freq) (seedQueue freq) _ (seed_forest freq)
    (by intro he; rw [he] at hlq; exact h hlq.symm) (by omega) (by omega)
    (totalWeight_seedQueue_lt freq)
  have hroot : t.root = q.seq := by simpa using G.roots
  have hlast := G.last q rfl
  refine ⟨t, G.stored t (by simp), ?_, ?_, ?_, hpre, ?_, ?_⟩
  · rw [hroot, hlast]; rfl
  · have := G.indices; rwa [List.flatMap_singleton] at this
  · have := G.leaves; rwa [List.flatMap_singleton] at this
  · unfold buildArena; omega
  · have := G.weights q (by simp)
    rw [hlast, hw, totalWeight_seedQueue] at this
    exact this

end Sys2Proof.Machine
end

