-- ==== Sys2Proof/Laws/Codes.lean ====
section
/-! SUPPORT. GEN makes a prefix code of a tree (42_code_table.md R180 to R187). -/

namespace Sys2Proof.Machine

/-- The number of edges on the longest path. -/
def Shape.height : Shape → Nat
  | .leaf _     => 0
  | .node _ l r => max l.height r.height + 1

/-- The leaves with their paths, left before right (R180, R181). -/
def Shape.paths : Shape → Bits → List (Nat × Bits)
  | .leaf i, p     => [(i, p)]
  | .node _ l r, p => l.paths (p ++ [false]) ++ r.paths (p ++ [true])

/-- A tree is no deeper than its leaves are many, less one (R170). -/
theorem Shape.height_lt_leaves (t : Shape) : t.height + 1 ≤ t.leaves.length := by
  induction t with
  | leaf i => simp [Shape.height, Shape.leaves]
  | node i l r ihl ihr => simp only [Shape.height, Shape.leaves, List.length_append]; omega

theorem Shape.map_fst_paths (t : Shape) : ∀ p, (t.paths p).map Prod.fst = t.leaves := by
  induction t with
  | leaf i => intro p; rfl
  | node i l r ihl ihr => intro p; simp [Shape.paths, Shape.leaves, ihl, ihr]

/-- Every path extends the path to the root it starts from, by no more than the height. -/
theorem Shape.paths_extend (t : Shape) : ∀ p, ∀ x ∈ t.paths p,
    p <+: x.2 ∧ x.2.length ≤ p.length + t.height := by
  induction t with
  | leaf i => intro p x hx; simp only [Shape.paths, List.mem_singleton] at hx; subst hx; simp
  | node i l r ihl ihr =>
    intro p x hx
    simp only [Shape.paths, List.mem_append] at hx
    simp only [Shape.height]
    rcases hx with hx | hx
    · obtain ⟨h1, h2⟩ := ihl _ x hx
      simp only [List.length_append, List.length_singleton] at h2
      exact ⟨(List.prefix_append _ _).trans h1, by omega⟩
    · obtain ⟨h1, h2⟩ := ihr _ x hx
      simp only [List.length_append, List.length_singleton] at h2
      exact ⟨(List.prefix_append _ _).trans h1, by omega⟩

/-- Two codes in no prefix relation. -/
def Apart (x y : Bits) : Prop := ¬ x <+: y ∧ ¬ y <+: x

/-- Distinct entries of a pairwise apart list are apart. -/
theorem apart_of_mem {l : List (Byte × Bits)} (h : l.Pairwise fun x y => Apart x.2 y.2)
    {x y : Byte × Bits} (hx : x ∈ l) (hy : y ∈ l) (hne : x ≠ y) : Apart x.2 y.2 :=
  have : Std.Symm fun x y : Byte × Bits => Apart x.2 y.2 := ⟨fun _ _ => And.symm⟩
  h.forall hx hy hne

/-- Paths that part at an edge are in no prefix relation. -/
theorem apart_of_fork {p x y : Bits} (hx : p ++ [false] <+: x) (hy : p ++ [true] <+: y) : Apart x y := by
  obtain ⟨x', rfl⟩ := hx
  obtain ⟨y', rfl⟩ := hy
  constructor <;> intro h <;> simp at h

/-- The paths of a tree's leaves are a prefix code (R183). -/
theorem Shape.paths_apart (t : Shape) : ∀ p, (t.paths p).Pairwise fun x y => Apart x.2 y.2 := by
  induction t with
  | leaf i => intro p; simp [Shape.paths]
  | node i l r ihl ihr =>
    intro p
    refine List.pairwise_append.2 ⟨ihl _, ihr _, fun x hx y hy => ?_⟩
    exact apart_of_fork (l.paths_extend _ x hx).1 (r.paths_extend _ y hy).1

/-- The walk of GEN over a stored tree finds its leaves and paths (R180). -/
theorem visit_stored {nodeAt : Nat → Option Node} (t : Shape) (h : t.storedIn nodeAt) :
    ∀ levels p, t.height < levels →
      visit nodeAt levels t.root p = some ((t.paths p).map fun x => (symbolAt nodeAt x.1, x.2)) := by
  induction t with
  | leaf i =>
    intro levels p hl
    obtain ⟨b, w, h⟩ := h
    match levels, hl with
    | levels + 1, _ => simp [visit, Shape.root, h, Shape.paths, symbolAt]
  | node i l r ihl ihr =>
    intro levels p hl
    obtain ⟨⟨n, hn, h1, h2, h3, h4, h5⟩, hsl, hsr⟩ := h
    simp only [Shape.height] at hl
    match levels, hl with
    | levels + 1, hl =>
      have hroot : (Shape.node i l r).root = i := rfl
      rw [hroot, visit, hn]
      simp only [h1, h3, h4, ihl hsl levels (p ++ [false]) (by omega),
        ihr hsr levels (p ++ [true]) (by omega)]
      simp [Shape.paths]

/-- The symbols and codes of a tree: "0" where it is a single leaf (R184). -/
def Shape.codes (nodeAt : Nat → Option Node) : Shape → List (Byte × Bits)
  | .leaf i     => [(symbolAt nodeAt i, [false])]
  | .node i l r => ((Shape.node i l r).paths []).map fun x => (symbolAt nodeAt x.1, x.2)

theorem treeCodes_stored {nodeAt : Nat → Option Node} (t : Shape) (h : t.storedIn nodeAt)
    (hl : t.leaves.length ≤ 256) : treeCodes nodeAt t.root = some (t.codes nodeAt) := by
  cases t with
  | leaf i =>
    obtain ⟨b, w, h⟩ := h
    simp [treeCodes, Shape.root, h, Shape.codes, symbolAt]
  | node i l r =>
    have hv := visit_stored (.node i l r) h 256 []
      (by have := (Shape.node i l r).height_lt_leaves; omega)
    obtain ⟨⟨n, hn, h1, -⟩, -⟩ := h
    simp only [treeCodes, Shape.root] at hv ⊢
    rw [hn]
    simp only [h1]
    exact hv

/-- One code per leaf (R183). -/
theorem Shape.map_fst_codes (nodeAt : Nat → Option Node) (t : Shape) :
    (t.codes nodeAt).map Prod.fst = t.leaves.map (symbolAt nodeAt) := by
  cases t with
  | leaf i => rfl
  | node i l r =>
    rw [← (Shape.node i l r).map_fst_paths []]
    simp only [Shape.codes, List.map_map]
    rfl

/-- Code lengths lie between 1 and `max(1, L − 1)` (R187). -/
theorem Shape.length_codes (nodeAt : Nat → Option Node) (t : Shape) (x : Byte × Bits)
    (hx : x ∈ t.codes nodeAt) : 1 ≤ x.2.length ∧ x.2.length ≤ max 1 (t.leaves.length - 1) := by
  cases t with
  | leaf i => simp only [Shape.codes, List.mem_singleton] at hx; subst hx; simp
  | node i l r =>
    obtain ⟨y, hy, rfl⟩ := List.mem_map.1 hx
    have h1 := ((Shape.node i l r).paths_extend [] y hy).2
    have h2 := (Shape.node i l r).height_lt_leaves
    refine ⟨?_, by simp only [List.length_nil] at h1; show y.2.length ≤ _; omega⟩
    show 1 ≤ y.2.length
    simp only [Shape.paths, List.mem_append] at hy
    rcases hy with hy | hy
    · have := (l.paths_extend _ y hy).1.length_le; simpa using this
    · have := (r.paths_extend _ y hy).1.length_le; simpa using this

theorem Shape.codes_apart (nodeAt : Nat → Option Node) (t : Shape) :
    (t.codes nodeAt).Pairwise fun x y => Apart x.2 y.2 := by
  cases t with
  | leaf i => simp [Shape.codes]
  | node i l r => exact List.pairwise_map.2 ((Shape.node i l r).paths_apart [])

/-- A table of codes in no prefix relation is one TABLE_VALID may announce (R62 (2), R183). -/
theorem codeTable_ok {codes : List (Byte × Bits)} (hne : codes ≠ [])
    (hn : (codes.map Prod.fst).Nodup) (hlen : ∀ x ∈ codes, 1 ≤ x.2.length ∧ x.2.length ≤ 255)
    (hap : codes.Pairwise fun x y => Apart x.2 y.2) : TableOk (codeTable codes) := by
  have hent : ∀ b, (atSymbol (codeTable codes) b).hasCode = true → ∃ p, (b, p) ∈ codes := by
    intro b hb
    by_contra hno
    have : b ∉ codes.map Prod.fst := by
      intro hm
      obtain ⟨⟨b', p⟩, hx, rfl⟩ := List.mem_map.1 hm
      exact hno ⟨p, hx⟩
    rw [codeTable_of_not_mem codes b this] at hb
    simp [CodeEntry.hasCode, CodeEntry.empty] at hb
  refine ⟨?_, fun b c hbc hb hc => ?_⟩
  · obtain ⟨⟨b, p⟩, hx⟩ := List.exists_mem_of_ne_nil _ hne
    refine ⟨b, ?_⟩
    have := hlen _ hx
    rw [codeTable_of_mem codes hn b p hx, codeEntry_hasCode p this.2]
    intro he; simp [he] at this
  · obtain ⟨p, hp⟩ := hent b hb
    obtain ⟨q, hq⟩ := hent c hc
    rw [codeTable_of_mem codes hn b p hp, codeTable_of_mem codes hn c q hq,
      codeEntry_bits p (hlen _ hp).2, codeEntry_bits q (hlen _ hq).2, isPrefix_eq_false]
    exact (apart_of_mem hap hp hq (by simp [hbc])).1

/-- What GEN finds in a tree: one code per leaf symbol, prefix-free, of lengths 1 to 255 (R180 to R187). -/
theorem TreeOk.codes {s : State} (h : TreeOk s) : ∃ codes,
    treeCodes s.nodeAt (s.nodeCount.toNat - 1) = some codes ∧ codes ≠ []
    ∧ (codes.map Prod.fst).Nodup ∧ codes.length = s.leafCount.toNat
    ∧ (∀ x ∈ codes, 1 ≤ x.2.length ∧ x.2.length ≤ max 1 (s.leafCount.toNat - 1))
    ∧ TableOk (codeTable codes) := by
  obtain ⟨t, hst, hroot, -, hlen, hnd⟩ := h.tree
  have hle := h.leafCount_le
  have hpos := h.leafCount_pos
  have hl : (t.codes s.nodeAt).length = s.leafCount.toNat := by
    have := congrArg List.length (t.map_fst_codes s.nodeAt)
    simpa [hlen] using this
  have hne : t.codes s.nodeAt ≠ [] := by intro he; rw [he] at hl; simp at hl; omega
  have hfst : ((t.codes s.nodeAt).map Prod.fst).Nodup := by rw [t.map_fst_codes]; exact hnd
  refine ⟨t.codes s.nodeAt, ?_, hne, hfst, hl, ?_, ?_⟩
  · rw [← hroot]; exact treeCodes_stored t hst (by omega)
  · intro x hx; have := t.length_codes s.nodeAt x hx; rwa [hlen] at this
  · refine codeTable_ok hne hfst (fun x hx => ?_) (t.codes_apart s.nodeAt)
    have := t.length_codes s.nodeAt x hx
    omega

end Sys2Proof.Machine
end

