-- ==== Sys2Proof/Laws/Walk.lean ====
section
/-! SUPPORT. The decoder's walk (44_prefix_decoder.md) over a prefix-free table, and the framing of a
payload (43_bit_packer.md). -/

namespace Sys2Proof.Machine

/-! ### Framing (R201, R202, R204, R205) -/

theorem padCount_lt (bl : Nat) : padCount bl < 8 := by unfold padCount; omega

theorem length_frame (d : Bits) : (frame d).length = 8 + d.length + padCount d.length := by
  simp [frame]; omega

/-- The framed length is a whole number of bytes: PACKING is unreachable (R204). -/
theorem length_frame_mod (d : Bits) : (frame d).length % 8 = 0 := by
  rw [length_frame]; unfold padCount; omega

/-- The payload has one header byte and `⌈bl/8⌉` more (R205). -/
theorem length_frame_div (d : Bits) : (frame d).length / 8 = 1 + (d.length + 7) / 8 := by
  rw [length_frame]; unfold padCount; omega

/-- The payload is the padding count and then the packed code string and padding (R201). -/
theorem packMSB_frame (d : Bits) : packMSB (frame d)
    = BitVec.ofNat 8 (padCount d.length) :: packMSB (d ++ zeros (padCount d.length)) := by
  rw [frame, List.append_assoc, packMSB_append8 _ _ (length_be8 _), ofBits_be8]

/-- Stripping header and padding from a packed frame gives the code string back (R201, R223). -/
theorem payloadData_frame (d : Bits) :
    payloadData (packMSB (d ++ zeros (padCount d.length))) (padCount d.length) = d := by
  have h : (d ++ zeros (padCount d.length)).length % 8 = 0 := by simp [padCount]; omega
  rw [payloadData, unpackMSB_packMSB _ h]
  simp

/-! ### The walk (R220, R222, R231) -/

/-- In a prefix-free table at most one symbol has a given code (R231). -/
theorem revLookup_code {code : Vector CodeEntry 256} (h : PrefixFree code) {b : Byte}
    (hb : (atSymbol code b).hasCode = true) : revLookup code (atSymbol code b).bits = some b := by
  rcases hr : revLookup code (atSymbol code b).bits with - | c
  · exact absurd rfl (revLookup_none.1 hr b hb)
  · obtain ⟨hc, he⟩ := revLookup_some hr
    by_cases hbc : b = c
    · rw [hbc]
    · have := h b c hbc hb hc
      rw [isPrefix_eq_false, he] at this
      exact absurd List.prefix_rfl this

/-- A proper prefix of a code is no code (R191). -/
theorem revLookup_proper {code : Vector CodeEntry 256} (h : PrefixFree code) {b : Byte}
    (hb : (atSymbol code b).hasCode = true) {p q : Bits} (hpq : (atSymbol code b).bits = p ++ q)
    (hq : q ≠ []) : revLookup code p = none := by
  rcases hr : revLookup code p with - | c
  · rfl
  · obtain ⟨hc, he⟩ := revLookup_some hr
    by_cases hbc : c = b
    · subst hbc
      rw [he] at hpq
      exact absurd (by simpa using hpq.symm) hq
    · have := h c b hbc hc hb
      rw [isPrefix_eq_false, he, hpq] at this
      exact absurd (List.prefix_append p q) this

/-- The walk consumes exactly one code and emits its symbol (R222). -/
theorem walk_code {code : Vector CodeEntry 256} (h : PrefixFree code) {b : Byte}
    (hb : (atSymbol code b).hasCode = true) (depth : Nat) (rest : Bits) (out : List Byte) :
    walk (revLookup code) depth ((atSymbol code b).bits ++ rest) [] out
      = if out.length = depth then (.full, out)
        else walk (revLookup code) depth rest [] (out ++ [b]) := by
  suffices H : ∀ (q p : Bits), (atSymbol code b).bits = p ++ q → q ≠ [] →
      walk (revLookup code) depth (q ++ rest) p out
        = if out.length = depth then (.full, out)
          else walk (revLookup code) depth rest [] (out ++ [b]) by
    refine H _ [] rfl ?_
    intro he
    rw [CodeEntry.hasCode_iff, he] at hb
    simp at hb
  intro q
  induction q with
  | nil => intro p _ hq; exact absurd rfl hq
  | cons x q ih =>
    intro p hpq _
    by_cases hq : q = []
    · subst hq
      have := revLookup_code h hb
      rw [hpq] at this
      simp only [List.cons_append, List.nil_append, walk, this]
    · have hpq' : (atSymbol code b).bits = (p ++ [x]) ++ q := by simpa using hpq
      have := revLookup_proper h hb hpq' hq
      simp only [List.cons_append, walk, this]
      exact ih _ hpq' hq

/-- Walking the codes of a symbol sequence that fits emits exactly it (R229). -/
theorem walk_codeString {code : Vector CodeEntry 256} (h : PrefixFree code) (depth : Nat) (rest : Bits)
    (S : List Byte) : ∀ out : List Byte, (∀ b ∈ S, (atSymbol code b).hasCode = true) →
      out.length + S.length ≤ depth →
      walk (revLookup code) depth (codeString code S ++ rest) [] out
        = walk (revLookup code) depth rest [] (out ++ S) := by
  induction S with
  | nil => intro out _ _; simp [codeString]
  | cons b S ih =>
    intro out hS hfit
    simp only [List.length_cons] at hfit
    have hb := hS b List.mem_cons_self
    have : codeString code (b :: S) ++ rest = (atSymbol code b).bits ++ (codeString code S ++ rest) := by
      simp [codeString]
    rw [this, walk_code h hb, if_neg (by omega),
      ih (out ++ [b]) (fun c hc => hS c (List.mem_cons_of_mem _ hc)) (by simp; omega)]
    simp

/-- Bits of which no beginning is a code are a leftover (R224, check 7). -/
theorem walk_leftover {rev : Bits → Option Byte} (depth : Nat) (out : List Byte) (bits : Bits) :
    ∀ b : Bits, (∀ q, q ≠ [] → q <+: bits → rev (b ++ q) = none) →
      walk rev depth bits b out = (if b ++ bits = [] then .complete else .leftover, out) := by
  induction bits with
  | nil => intro b _; simp [walk]
  | cons x bits ih =>
    intro b h
    have hx : rev (b ++ [x]) = none := h [x] (by simp) (by simp)
    have hrest : ∀ q, q ≠ [] → q <+: bits → rev (b ++ [x] ++ q) = none := by
      intro q hq hp
      have := h (x :: q) (by simp) (List.prefix_cons_inj x |>.2 hp)
      simpa using this
    simp only [walk, hx]
    rw [ih (b ++ [x]) hrest]
    simp

/-- The walk only adds to what it has emitted, and never more than the depth. -/
theorem walk_out {rev : Bits → Option Byte} (depth : Nat) (bits : Bits) : ∀ (b : Bits) (out : List Byte),
    out.length ≤ depth →
    out <+: (walk rev depth bits b out).2 ∧ (walk rev depth bits b out).2.length ≤ depth := by
  induction bits with
  | nil => intro b out h; simp [walk, h]
  | cons x bits ih =>
    intro b out h
    unfold walk
    split
    · exact ih _ _ h
    · split
      · exact ⟨List.prefix_rfl, h⟩
      · have := ih [] (out ++ [‹Byte›]) (by simp; omega)
        exact ⟨(List.prefix_append _ _).trans this.1, this.2⟩

/-! ### Buffers after a write of bytes -/

/-- The bytes read back after `MemWrite(SPACE, 0, …)`. -/
theorem map_range'_lookup (m : Memory) (vs : List Byte) (d : Nat → Byte) (i n : Nat)
    (h : i + n ≤ vs.length) :
    (List.range' i n).map (fun k => ((m.storeBytes 0 vs).lookup k).getD (d k)) = (vs.drop i).take n := by
  apply List.ext_getElem
  · simp; omega
  intro k h1 h2
  simp only [List.length_map, List.length_range'] at h1
  have hk : i + k < vs.length := by omega
  simp only [List.getElem_map, List.getElem_range', Nat.one_mul, lookup_storeBytes, Nat.zero_le,
    Nat.zero_add, Nat.sub_zero, true_and, if_pos hk, List.getElem?_eq_getElem hk, Option.getD_some,
    List.getElem_take, List.getElem_drop]

end Sys2Proof.Machine
end

