-- ==== Sys2Proof/Laws/Commands.lean ====
section
/-! SUPPORT. What the body of each command can do: one case lemma per command, and that every body keeps the
data part of the invariant and touches nothing of the completion record (60_exceptions.md R262, R263). -/

namespace Sys2Proof.Machine

/-! ### Bodies and their record -/

/-- How a body ends: its error code and the state before the completion record. -/
def Body.result : Body → Option (ErrCode × State)
  | .finish s  => some (.none, s)
  | .raise e s => some (e, s)
  | .stuck _   => none

/-- A command answers a next state exactly when its body ends, and the state is the recorded one (R262). -/
theorem Body.record_next (b : Body) (op : Byte) (t : State) : b.record op = .next t ↔
    ∃ e u, b.result = some (e, u) ∧ t = complete op e u := by
  cases b <;> simp [Body.record, Body.result, eq_comm]

theorem Body.result_andThen (b : Body) (f : State → Body) (e : ErrCode) (u : State) :
    (b.andThen f).result = some (e, u) ↔
      (∃ v, b = .finish v ∧ (f v).result = some (e, u)) ∨ b = .raise e u := by
  cases b <;> simp [Body.andThen, Body.result]

/-- What no body touches: the completion record's fields, OVERRUN, the parameters and the model's own
fields (R262, R265). -/
structure Keeps (s u : State) : Prop where
  pending  : u.pending = s.pending
  done     : u.done = s.done
  error    : u.error = s.error
  overrun  : u.overrun = s.overrun
  errCode  : u.errCode = s.errCode
  lastOp   : u.lastOp = s.lastOp
  symDepth : u.symDepth = s.symDepth
  payDepth : u.payDepth = s.payDepth
  readData : u.readData = s.readData
  draws    : u.draws = s.draws
  resets   : u.resets = s.resets
  agenda   : u.agenda = s.agenda

theorem Keeps.refl (s : State) : Keeps s s := ⟨rfl, rfl, rfl, rfl, rfl, rfl, rfl, rfl, rfl, rfl, rfl, rfl⟩

theorem Keeps.trans {s u v : State} (h : Keeps s u) (k : Keeps u v) : Keeps s v :=
  ⟨k.1.trans h.1, k.2.trans h.2, k.3.trans h.3, k.4.trans h.4, k.5.trans h.5, k.6.trans h.6,
    k.7.trans h.7, k.8.trans h.8, k.9.trans h.9, k.10.trans h.10, k.11.trans h.11, k.12.trans h.12⟩

/-! ### COUNT -/

/-- COUNT ends in one of three ways (R140, R141). -/
theorem countBody_cases (s : State) :
    (s.symDepth < s.symLen.toNat ∧ countBody s = .raise .capacity s)
    ∨ (s.symLen.toNat ≤ s.symDepth ∧ s.symLen.toNat = 0 ∧ countBody s = .raise .emptyInput s)
    ∨ (s.symLen.toNat ≤ s.symDepth ∧ s.symLen.toNat ≠ 0
      ∧ countBody s = .finish { s with freq := countSymbols (s.symBytes 0 s.symLen.toNat) }) := by
  unfold countBody
  by_cases h1 : s.symDepth < s.symLen.toNat
  · simp [h1]
  · by_cases h2 : s.symLen.toNat = 0
    · simp [h2]
    · exact .inr (.inr ⟨by omega, h2, by simp [h1, h2]⟩)

/-! ### BUILD -/

/-- What BUILD writes (R165). -/
def builtState (s : State) : State :=
  { s with
    node       := toArena (buildArena s.freq)
    leafCount  := BitVec.ofNat 9 (presentSymbols s.freq).length
    nodeCount  := BitVec.ofNat 9 (buildArena s.freq).length
    rootWeight := ((buildArena s.freq)[(buildArena s.freq).length - 1]?.getD Node.zero).weight
    treeValid  := true }

/-- BUILD ends in one of two ways (R160, R168). -/
theorem buildBody_cases (s : State) :
    ((presentSymbols s.freq).length = 0 ∧ buildBody s = .raise .emptyInput s)
    ∨ ((presentSymbols s.freq).length ≠ 0 ∧ buildBody s = .finish (builtState s)) := by
  unfold buildBody builtState
  by_cases h : (presentSymbols s.freq).length = 0
  · simp [h]
  · exact .inr ⟨h, by simp only [h, if_false]⟩

/-- BUILD leaves a tree, over exactly the symbols with a count (R62 (1), R161, R165, R166, R167). -/
theorem builtState_tree (s : State) (h : (presentSymbols s.freq).length ≠ 0) :
    TreeOk (builtState s) ∧ ∃ t : Shape, t.storedIn (builtState s).nodeAt
      ∧ t.root = (builtState s).nodeCount.toNat - 1
      ∧ (t.leaves.map (symbolAt (builtState s).nodeAt)).Perm (presentSymbols s.freq) := by
  obtain ⟨t, hst, hroot, hidx, hlv, hpre, hlen, hw⟩ := buildArena_tree s.freq h
  have hle := length_presentSymbols_le s.freq
  have hlc : (builtState s).leafCount.toNat = (presentSymbols s.freq).length := by
    simp only [builtState, BitVec.toNat_ofNat]; omega
  have hnc : (builtState s).nodeCount.toNat = (buildArena s.freq).length := by
    simp only [builtState, BitVec.toNat_ofNat]; omega
  have hat : ∀ i, i < 511 → (builtState s).nodeAt i = some ((buildArena s.freq)[i]?.getD Node.zero) :=
    fun i hi => toArena_getElem? _ i hi
  have hent : ∀ i, ∀ n, entries (buildArena s.freq) i = some n → (builtState s).nodeAt i = some n := by
    intro i n hn
    have hi : i < (buildArena s.freq).length := (List.getElem?_eq_some_iff.1 hn).1
    rw [hat i (by omega)]
    simp only [entries] at hn
    rw [hn]; rfl
  have hsym : ∀ k, k < (presentSymbols s.freq).length →
      symbolAt (builtState s).nodeAt k = (presentSymbols s.freq)[k]?.getD 0 := by
    intro k hk
    have h1 : entries (buildArena s.freq) k = some (leafNode s.freq (presentSymbols s.freq)[k]) := by
      obtain ⟨ys, hys⟩ := hpre
      have hk' : k < (seedArena s.freq).length := by simpa [seedArena] using hk
      show (buildArena s.freq)[k]? = _
      rw [← hys, List.getElem?_append_left hk', seedArena_getElem?, List.getElem?_eq_getElem hk]
      rfl
    simp [symbolAt, hent k _ h1, leafNode, hk]
  have hmap : (t.leaves.map (symbolAt (builtState s).nodeAt)).Perm (presentSymbols s.freq) := by
    refine (hlv.map _).trans (List.Perm.of_eq ?_)
    apply List.ext_getElem
    · simp
    intro k h1 h2
    simp only [List.getElem_map, List.getElem_range]
    rw [hsym k h2]; simp [h2]
  have hst' : t.storedIn (builtState s).nodeAt := Shape.storedIn_mono (fun i _ n hn => hent i n hn) hst
  have hroot' : t.root = (builtState s).nodeCount.toNat - 1 := by rw [hroot, hnc]
  refine ⟨⟨by omega, by omega, by omega, ⟨t, hst', hroot', by rw [hnc]; exact hidx, ?_, ?_⟩, ?_, ?_⟩,
    t, hst', hroot', hmap⟩
  · rw [hlc, hlv.length_eq, List.length_range]
  · exact hmap.nodup_iff.2 (presentSymbols_nodup s.freq)
  · intro i hi hi'
    rw [hat i hi', List.getElem?_eq_none (by omega)]; rfl
  · rw [hnc]
    have hlast : (buildArena s.freq).length - 1 < (buildArena s.freq).length := by omega
    simp only [weightAt]
    rw [hat _ (by omega)]
    rfl

theorem builtState_treeOk (s : State) (h : (presentSymbols s.freq).length ≠ 0) : TreeOk (builtState s) :=
  (builtState_tree s h).1

/-- GEN after BUILD finds one code for each symbol with a count, and no other (R182, R183). -/
theorem builtState_codes (s : State) (h : (presentSymbols s.freq).length ≠ 0) : ∃ codes,
    treeCodes (builtState s).nodeAt ((builtState s).nodeCount.toNat - 1) = some codes
    ∧ (codes.map Prod.fst).Perm (presentSymbols s.freq) ∧ (∀ x ∈ codes, 1 ≤ x.2.length ∧ x.2.length ≤ 255)
    ∧ TableOk (codeTable codes) := by
  obtain ⟨hok, t, hst, hroot, hmap⟩ := builtState_tree s h
  obtain ⟨codes, hc, -, -, -, hlen, htab⟩ := hok.codes
  have hle := length_presentSymbols_le s.freq
  have hlv : t.leaves.length ≤ 256 := by have := hmap.length_eq; simp at this; omega
  have hcodes : codes = t.codes (builtState s).nodeAt := by
    rw [← hroot, treeCodes_stored t hst hlv] at hc; exact (Option.some.inj hc).symm
  refine ⟨codes, hc, ?_, fun x hx => ?_, htab⟩
  · rw [hcodes, t.map_fst_codes]; exact hmap
  · have h1 := hlen x hx
    have h2 := hok.leafCount_le
    omega

/-! ### GEN -/

/-- GEN ends in one of three ways (R180, R185). -/
theorem genBody_cases (s : State) :
    (s.treeValid = false ∧ genBody s = .raise .sequence s)
    ∨ (s.treeValid = true ∧ treeCodes s.nodeAt (s.nodeCount.toNat - 1) = none
      ∧ genBody s = .stuck .nodeArenaIsNoTree)
    ∨ ∃ codes, s.treeValid = true ∧ treeCodes s.nodeAt (s.nodeCount.toNat - 1) = some codes
      ∧ genBody s = .finish { s with
          code       := codeTable codes
          maxLen     := longestCode (codeTable codes)
          tableValid := true } := by
  unfold genBody
  cases hv : s.treeValid
  · simp
  · rcases hc : treeCodes s.nodeAt (s.nodeCount.toNat - 1) with - | codes
    · simp
    · simp

/-! ### TABLE_COMMIT -/

theorem prefixClash_iff (code : Vector CodeEntry 256) : prefixClash code = false ↔ PrefixFree code := by
  constructor
  · intro h b c hbc hb hc
    by_contra hp
    have hp' : isPrefix (atSymbol code b).bits (atSymbol code c).bits = true := by simpa using hp
    have : prefixClash code = true := by
      simp only [prefixClash, List.any_eq_true, mem_codedSymbols]
      exact ⟨b, hb, c, hc, by simp [hbc, hp']⟩
    rw [h] at this; simp at this
  · intro h
    by_contra hp
    have hp' : prefixClash code = true := by simpa using hp
    simp only [prefixClash, List.any_eq_true, mem_codedSymbols] at hp'
    obtain ⟨b, hb, c, hc, hbc⟩ := hp'
    simp only [Bool.and_eq_true, bne_iff_ne] at hbc
    rw [h b c hbc.1 hb hc] at hbc
    simp at hbc

/-- TABLE_COMMIT refuses a table or accepts it, and accepts exactly the tables R62 (2) allows (R190 to
R193). -/
theorem tableCommitBody_cases (s : State) :
    (¬ TableOk s.code ∧ tableCommitBody s = .raise .tableFormat { s with tableValid := false })
    ∨ (TableOk s.code
      ∧ tableCommitBody s = .finish { s with maxLen := longestCode s.code, tableValid := true }) := by
  unfold tableCommitBody
  by_cases h1 : codedSymbols s.code = []
  · refine .inl ⟨fun h => ?_, by simp [h1]⟩
    obtain ⟨b, hb⟩ := h.nonempty
    have := (mem_codedSymbols s.code b).2 hb
    rw [h1] at this; simp at this
  · rcases h2 : prefixClash s.code with - | -
    · refine .inr ⟨⟨?_, (prefixClash_iff _).1 h2⟩, by simp [h1]⟩
      obtain ⟨b, hb⟩ := List.exists_mem_of_ne_nil _ h1
      exact ⟨b, (mem_codedSymbols _ _).1 hb⟩
    · refine .inl ⟨fun h => ?_, by simp [h1]⟩
      rw [(prefixClash_iff _).2 h.prefixFree] at h2; simp at h2

/-! ### ENCODE -/

/-- What ENCODE writes for the code string `d` (R200, R201). -/
def packedState (s : State) (d : Bits) : State :=
  { s with
    pay    := s.pay.storeBytes 0 (packMSB (frame d))
    payLen := BitVec.ofNat 32 ((frame d).length / 8)
    bitLen := BitVec.ofNat 32 d.length
    pad    := BitVec.ofNat 3 (padCount d.length) }

/-- ENCODE ends in one of six ways, in the order of R203; PACKING is not among them (R204). -/
theorem encodeBody_cases (s : State) :
    (s.tableValid = false ∧ encodeBody s = .raise .missingCodeTable s)
    ∨ (s.tableValid = true ∧ s.symDepth < s.symLen.toNat ∧ encodeBody s = .raise .capacity s)
    ∨ (s.tableValid = true ∧ s.symLen.toNat ≤ s.symDepth ∧ s.symLen.toNat = 0
      ∧ encodeBody s = .raise .emptyInput s)
    ∨ (s.tableValid = true ∧ s.symLen.toNat ≤ s.symDepth ∧ s.symLen.toNat ≠ 0
      ∧ (∃ b ∈ s.symBytes 0 s.symLen.toNat, (atSymbol s.code b).hasCode = false)
      ∧ encodeBody s = .raise .missingCodeTable s)
    ∨ (s.tableValid = true ∧ s.symLen.toNat ≤ s.symDepth ∧ s.symLen.toNat ≠ 0
      ∧ (∀ b ∈ s.symBytes 0 s.symLen.toNat, (atSymbol s.code b).hasCode = true)
      ∧ ((s.payDepth < (frame (codeString s.code (s.symBytes 0 s.symLen.toNat))).length / 8
          ∧ encodeBody s = .raise .capacity s)
        ∨ ((frame (codeString s.code (s.symBytes 0 s.symLen.toNat))).length / 8 ≤ s.payDepth
          ∧ encodeBody s = .finish (packedState s (codeString s.code (s.symBytes 0 s.symLen.toNat)))))) := by
  unfold encodeBody packedState
  rcases h1 : s.tableValid with - | -
  · simp
  by_cases h2 : s.symDepth < s.symLen.toNat
  · simp [h2]
  by_cases h3 : s.symLen.toNat = 0
  · simp [h3]
  rcases h4 : (s.symBytes 0 s.symLen.toNat).any (fun b => !(atSymbol s.code b).hasCode) with - | -
  · have h4' : ∀ b ∈ s.symBytes 0 s.symLen.toNat, (atSymbol s.code b).hasCode = true := by
      simpa using h4
    refine .inr (.inr (.inr (.inr ⟨rfl, by omega, h3, h4', ?_⟩)))
    have hm := length_frame_mod (codeString s.code (s.symBytes 0 s.symLen.toNat))
    by_cases h6 : s.payDepth < (frame (codeString s.code (s.symBytes 0 s.symLen.toNat))).length / 8
    · exact .inl ⟨h6, by simp [h2, h3, hm, h6]; exact h4'⟩
    · exact .inr ⟨by omega, by simp [h2, h3, hm, h6]; exact h4'⟩
  · have h4' : ∃ b ∈ s.symBytes 0 s.symLen.toNat, (atSymbol s.code b).hasCode = false := by
      simpa using h4
    refine .inr (.inr (.inr (.inl ⟨rfl, by omega, h3, h4', ?_⟩)))
    simp only [h2, h3, if_false, Bool.not_true, Bool.false_eq_true]
    rw [if_pos h4]

/-! ### DECODE -/

/-- The data bits DECODE walks (R220). -/
def decodeData (s : State) : Bits :=
  payloadData (s.payBytes 1 (s.payLen.toNat - 1)) (s.payByte 0).toNat

/-- DECODE ends in one of eight ways, in the order of R224; the last three are the walk's. -/
theorem decodeBody_cases (s : State) :
    (s.tableValid = false ∧ decodeBody s = .raise .missingCodeTable s)
    ∨ (s.tableValid = true ∧ s.payDepth < s.payLen.toNat ∧ decodeBody s = .raise .capacity s)
    ∨ (s.tableValid = true ∧ s.payLen.toNat ≤ s.payDepth
      ∧ (s.payLen.toNat = 0 ∨ 7 < (s.payByte 0).toNat ∨ 8 * (s.payLen.toNat - 1) < (s.payByte 0).toNat)
      ∧ decodeBody s = .raise .corruptData s)
    ∨ (s.tableValid = true ∧ s.payLen.toNat ≤ s.payDepth ∧ s.payLen.toNat ≠ 0
      ∧ (s.payByte 0).toNat ≤ 7 ∧ (s.payByte 0).toNat ≤ 8 * (s.payLen.toNat - 1)
      ∧ decodeBody s = decodeWalk s (s.payByte 0).toNat (decodeData s)) := by
  have hlen : (unpackMSB (s.payBytes 1 (s.payLen.toNat - 1))).length = 8 * (s.payLen.toNat - 1) := by
    simp [State.payBytes]
  unfold decodeBody
  rcases h1 : s.tableValid with - | -
  · simp
  by_cases h2 : s.payDepth < s.payLen.toNat
  · simp [h2]
  by_cases h3 : s.payLen.toNat = 0
  · simp [h3]
  by_cases h4 : 7 < (s.payByte 0).toNat
  · refine .inr (.inr (.inl ⟨rfl, by omega, .inr (.inl h4), by simp [h2, h3, h4]⟩))
  by_cases h5 : 8 * (s.payLen.toNat - 1) < (s.payByte 0).toNat
  · refine .inr (.inr (.inl ⟨rfl, by omega, .inr (.inr h5), ?_⟩))
    simp only [hlen]
    simp [h2, h3, h4, h5]
  · refine .inr (.inr (.inr ⟨rfl, by omega, h3, by omega, by omega, ?_⟩))
    simp only [hlen, decodeData]
    simp [h2, h3, h4, h5]

/-- The walk's three ends (R220, R224). -/
theorem decodeWalk_cases (s : State) (pad : Nat) (d : Bits) :
    ∃ w out, walk (revLookup s.code) s.symDepth d [] [] = (w, out) ∧ out.length ≤ s.symDepth
    ∧ ((w = .complete ∧ decodeWalk s pad d = .finish (decoded s pad d out out.length))
      ∨ (w = .full ∧ decodeWalk s pad d = .raise .capacity (decoded s pad d out 0))
      ∨ (w = .leftover ∧ decodeWalk s pad d = .raise .corruptData (decoded s pad d out 0))) := by
  have h := (walk_out (rev := revLookup s.code) s.symDepth d [] [] (Nat.zero_le _)).2
  rcases hw : walk (revLookup s.code) s.symDepth d [] [] with ⟨w, out⟩
  rw [hw] at h
  refine ⟨w, out, rfl, h, ?_⟩
  unfold decodeWalk
  rw [hw]
  cases w <;> simp

/-! ### Every body keeps what no command writes -/

theorem countBody_keeps {s : State} {e : ErrCode} {u : State} (h : (countBody s).result = some (e, u)) :
    Keeps s u := by
  rcases countBody_cases s with ⟨-, hb⟩ | ⟨-, -, hb⟩ | ⟨-, -, hb⟩ <;>
    · rw [hb] at h; obtain ⟨-, rfl⟩ : _ ∧ _ := by simpa [Body.result] using h
      exact ⟨rfl, rfl, rfl, rfl, rfl, rfl, rfl, rfl, rfl, rfl, rfl, rfl⟩

theorem buildBody_keeps {s : State} {e : ErrCode} {u : State} (h : (buildBody s).result = some (e, u)) :
    Keeps s u := by
  rcases buildBody_cases s with ⟨-, hb⟩ | ⟨-, hb⟩ <;>
    · rw [hb] at h; obtain ⟨-, rfl⟩ : _ ∧ _ := by simpa [Body.result] using h
      exact ⟨rfl, rfl, rfl, rfl, rfl, rfl, rfl, rfl, rfl, rfl, rfl, rfl⟩

theorem genBody_keeps {s : State} {e : ErrCode} {u : State} (h : (genBody s).result = some (e, u)) :
    Keeps s u := by
  rcases genBody_cases s with ⟨-, hb⟩ | ⟨-, -, hb⟩ | ⟨codes, -, -, hb⟩
  · rw [hb] at h; obtain ⟨-, rfl⟩ : _ ∧ _ := by simpa [Body.result] using h
    exact Keeps.refl s
  · rw [hb] at h; simp [Body.result] at h
  · rw [hb] at h; obtain ⟨-, rfl⟩ : _ ∧ _ := by simpa [Body.result] using h
    exact ⟨rfl, rfl, rfl, rfl, rfl, rfl, rfl, rfl, rfl, rfl, rfl, rfl⟩

theorem tableCommitBody_keeps {s : State} {e : ErrCode} {u : State}
    (h : (tableCommitBody s).result = some (e, u)) : Keeps s u := by
  rcases tableCommitBody_cases s with ⟨-, hb⟩ | ⟨-, hb⟩ <;>
    · rw [hb] at h; obtain ⟨-, rfl⟩ : _ ∧ _ := by simpa [Body.result] using h
      exact ⟨rfl, rfl, rfl, rfl, rfl, rfl, rfl, rfl, rfl, rfl, rfl, rfl⟩

theorem encodeBody_keeps {s : State} {e : ErrCode} {u : State} (h : (encodeBody s).result = some (e, u)) :
    Keeps s u := by
  rcases encodeBody_cases s with ⟨-, hb⟩ | ⟨-, -, hb⟩ | ⟨-, -, -, hb⟩ | ⟨-, -, -, -, hb⟩ |
      ⟨-, -, -, -, ⟨-, hb⟩ | ⟨-, hb⟩⟩ <;>
    · rw [hb] at h; obtain ⟨-, rfl⟩ : _ ∧ _ := by simpa [Body.result] using h
      exact ⟨rfl, rfl, rfl, rfl, rfl, rfl, rfl, rfl, rfl, rfl, rfl, rfl⟩

theorem decodeBody_keeps {s : State} {e : ErrCode} {u : State} (h : (decodeBody s).result = some (e, u)) :
    Keeps s u := by
  rcases decodeBody_cases s with ⟨-, hb⟩ | ⟨-, -, hb⟩ | ⟨-, -, -, hb⟩ | ⟨-, -, -, -, -, hb⟩
  case inr.inr.inr =>
    obtain ⟨w, out, -, -, ⟨-, hd⟩ | ⟨-, hd⟩ | ⟨-, hd⟩⟩ :=
      decodeWalk_cases s (s.payByte 0).toNat (decodeData s) <;>
    · rw [hb, hd] at h; obtain ⟨-, rfl⟩ : _ ∧ _ := by simpa [Body.result] using h
      exact ⟨rfl, rfl, rfl, rfl, rfl, rfl, rfl, rfl, rfl, rfl, rfl, rfl⟩
  all_goals
    rw [hb] at h; obtain ⟨-, rfl⟩ : _ ∧ _ := by simpa [Body.result] using h
    exact Keeps.refl s

theorem andThen_keeps {s : State} {b : Body} {f : State → Body}
    (hb : ∀ e u, b.result = some (e, u) → Keeps s u)
    (hf : ∀ v e u, (f v).result = some (e, u) → Keeps v u) {e : ErrCode} {u : State}
    (h : (b.andThen f).result = some (e, u)) : Keeps s u := by
  rcases (Body.result_andThen _ _ _ _).1 h with ⟨v, rfl, h⟩ | rfl
  · exact (hb _ v rfl).trans (hf v e u h)
  · exact hb e u rfl

theorem compressBody_keeps {s : State} {e : ErrCode} {u : State}
    (h : (compressBody s).result = some (e, u)) : Keeps s u :=
  andThen_keeps
    (fun _ _ => andThen_keeps
      (fun _ _ => andThen_keeps (fun _ _ => countBody_keeps) fun _ _ _ => buildBody_keeps)
      fun _ _ _ => genBody_keeps)
    (fun _ _ _ => encodeBody_keeps) h

end Sys2Proof.Machine
end

