-- ==== Sys2Proof/Laws/Invariant.lean ====
section
/-! SUPPORT. Every body keeps the data part of the invariant, and none is stuck in a state that has it
(10_state.md R62; 70_reset_and_hazards.md R306). -/

namespace Sys2Proof.Machine

/-- The tree depends on NODE and its three registers only. -/
theorem TreeOk.congr {s u : State} (h : TreeOk s) (hn : u.node = s.node) (hl : u.leafCount = s.leafCount)
    (hc : u.nodeCount = s.nodeCount) (hr : u.rootWeight = s.rootWeight) : TreeOk u := by
  have hat := nodeAt_congr hn
  obtain ⟨h1, h2, h3, h4, h5, h6⟩ := h
  exact ⟨by rwa [hl], by rwa [hl], by rwa [hl, hc], by rwa [hat, hl, hc], by rwa [hat, hc],
    by rwa [hat, hc, hr]⟩

theorem countBody_dataInv {s u : State} {e : ErrCode} (h : DataInv s)
    (hb : (countBody s).result = some (e, u)) : DataInv u := by
  rcases countBody_cases s with ⟨-, hc⟩ | ⟨-, -, hc⟩ | ⟨-, -, hc⟩ <;>
    · rw [hc] at hb; obtain ⟨-, rfl⟩ : _ ∧ _ := by simpa [Body.result] using hb
      exact ⟨h.depths, h.symWf, h.payWf, fun hv => (h.tree hv).congr rfl rfl rfl rfl, h.table, h.maxLen⟩

theorem buildBody_dataInv {s u : State} {e : ErrCode} (h : DataInv s)
    (hb : (buildBody s).result = some (e, u)) : DataInv u := by
  rcases buildBody_cases s with ⟨-, hc⟩ | ⟨hp, hc⟩
  · rw [hc] at hb; obtain ⟨-, rfl⟩ : _ ∧ _ := by simpa [Body.result] using hb
    exact h
  · rw [hc] at hb; obtain ⟨-, rfl⟩ : _ ∧ _ := by simpa [Body.result] using hb
    exact ⟨h.depths, h.symWf, h.payWf, fun _ => builtState_treeOk s hp, h.table, h.maxLen⟩

theorem genBody_dataInv {s u : State} {e : ErrCode} (h : DataInv s)
    (hb : (genBody s).result = some (e, u)) : DataInv u := by
  rcases genBody_cases s with ⟨-, hc⟩ | ⟨-, -, hc⟩ | ⟨codes, hv, ht, hc⟩
  · rw [hc] at hb; obtain ⟨-, rfl⟩ : _ ∧ _ := by simpa [Body.result] using hb
    exact h
  · rw [hc] at hb; simp [Body.result] at hb
  · rw [hc] at hb; obtain ⟨-, rfl⟩ : _ ∧ _ := by simpa [Body.result] using hb
    obtain ⟨codes', ht', -, -, -, -, hok⟩ := (h.tree hv).codes
    rw [ht] at ht'
    cases ht'
    exact ⟨h.depths, h.symWf, h.payWf, fun hv' => (h.tree hv').congr rfl rfl rfl rfl, fun _ => hok,
      fun _ => rfl⟩

/-- GEN is never stuck where the tree is one (R62 (1)). -/
theorem genBody_ends {s : State} (h : DataInv s) : ∃ e u, (genBody s).result = some (e, u) := by
  rcases genBody_cases s with ⟨-, hc⟩ | ⟨hv, ht, -⟩ | ⟨codes, -, -, hc⟩
  · exact ⟨_, _, by rw [hc]; rfl⟩
  · obtain ⟨codes, ht', -⟩ := (h.tree hv).codes
    rw [ht] at ht'; simp at ht'
  · exact ⟨_, _, by rw [hc]; rfl⟩

theorem tableCommitBody_dataInv {s u : State} {e : ErrCode} (h : DataInv s)
    (hb : (tableCommitBody s).result = some (e, u)) : DataInv u := by
  rcases tableCommitBody_cases s with ⟨-, hc⟩ | ⟨hok, hc⟩
  · rw [hc] at hb; obtain ⟨-, rfl⟩ : _ ∧ _ := by simpa [Body.result] using hb
    exact ⟨h.depths, h.symWf, h.payWf, fun hv => (h.tree hv).congr rfl rfl rfl rfl,
      fun hv => by simp at hv, fun hv => by simp at hv⟩
  · rw [hc] at hb; obtain ⟨-, rfl⟩ : _ ∧ _ := by simpa [Body.result] using hb
    exact ⟨h.depths, h.symWf, h.payWf, fun hv => (h.tree hv).congr rfl rfl rfl rfl, fun _ => hok,
      fun _ => rfl⟩

theorem encodeBody_dataInv {s u : State} {e : ErrCode} (h : DataInv s)
    (hb : (encodeBody s).result = some (e, u)) : DataInv u := by
  rcases encodeBody_cases s with ⟨-, hc⟩ | ⟨-, -, hc⟩ | ⟨-, -, -, hc⟩ | ⟨-, -, -, -, hc⟩ |
      ⟨-, -, -, -, ⟨-, hc⟩ | ⟨hfit, hc⟩⟩ <;>
    (rw [hc] at hb; obtain ⟨-, rfl⟩ : _ ∧ _ := by simpa [Body.result] using hb)
  case inr.inr.inr.inr.inr =>
    exact ⟨h.depths, h.symWf, storeBytes_wf _ h.payWf (by rw [length_packMSB]; omega),
      fun hv => (h.tree hv).congr rfl rfl rfl rfl, h.table, h.maxLen⟩
  all_goals exact h

theorem decoded_dataInv {s : State} (h : DataInv s) (pad : Nat) (d : Bits) {out : List Byte} (len : Nat)
    (ho : out.length ≤ s.symDepth) : DataInv (decoded s pad d out len) :=
  ⟨h.depths, storeBytes_wf _ h.symWf (by omega), h.payWf, fun hv => (h.tree hv).congr rfl rfl rfl rfl,
    h.table, h.maxLen⟩

theorem decodeBody_dataInv {s u : State} {e : ErrCode} (h : DataInv s)
    (hb : (decodeBody s).result = some (e, u)) : DataInv u := by
  rcases decodeBody_cases s with ⟨-, hc⟩ | ⟨-, -, hc⟩ | ⟨-, -, -, hc⟩ | ⟨-, -, -, -, -, hc⟩
  case inr.inr.inr =>
    obtain ⟨w, out, -, ho, ⟨-, hd⟩ | ⟨-, hd⟩ | ⟨-, hd⟩⟩ :=
      decodeWalk_cases s (s.payByte 0).toNat (decodeData s) <;>
    · rw [hc, hd] at hb; obtain ⟨-, rfl⟩ : _ ∧ _ := by simpa [Body.result] using hb
      exact decoded_dataInv h _ _ _ ho
  all_goals
    rw [hc] at hb; obtain ⟨-, rfl⟩ : _ ∧ _ := by simpa [Body.result] using hb
    exact h

/-- A body that keeps the data invariant, followed by stages that do, keeps it. -/
theorem andThen_dataInv {b : Body} {f : State → Body}
    (hb : ∀ e u, b.result = some (e, u) → DataInv u)
    (hf : ∀ v e u, DataInv v → (f v).result = some (e, u) → DataInv u) :
    ∀ e u, (b.andThen f).result = some (e, u) → DataInv u := by
  intro e u h
  rcases (Body.result_andThen _ _ _ _).1 h with ⟨v, rfl, h⟩ | rfl
  · exact hf v e u (hb _ v rfl) h
  · exact hb e u rfl

theorem compressBody_dataInv {s u : State} {e : ErrCode} (h : DataInv s)
    (hb : (compressBody s).result = some (e, u)) : DataInv u :=
  andThen_dataInv
    (andThen_dataInv
      (andThen_dataInv (fun _ _ => countBody_dataInv h) fun _ _ _ => buildBody_dataInv)
      fun _ _ _ => genBody_dataInv)
    (fun _ _ _ => encodeBody_dataInv) e u hb

/-- COMPRESS is never stuck where the data invariant holds. -/
theorem compressBody_ends {s : State} (h : DataInv s) : ∃ e u, (compressBody s).result = some (e, u) := by
  have hcb := andThen_dataInv (fun _ _ => countBody_dataInv h)
    (fun _ _ _ => buildBody_dataInv) (b := countBody s) (f := buildBody)
  unfold compressBody
  rcases h1 : (countBody s).andThen buildBody with v | ⟨e, v⟩ | f
  · obtain ⟨e, u, hg⟩ := genBody_ends (hcb .none v (by rw [h1]; rfl))
    rcases h2 : genBody v with w | ⟨e', w⟩ | f
    · simp only [Body.andThen, h2]
      rcases encodeBody_cases w with ⟨-, hc⟩ | ⟨-, -, hc⟩ | ⟨-, -, -, hc⟩ | ⟨-, -, -, -, hc⟩ |
        ⟨-, -, -, -, ⟨-, hc⟩ | ⟨-, hc⟩⟩ <;> exact ⟨_, _, by rw [hc]; rfl⟩
    · exact ⟨e', w, by simp [Body.andThen, h2, Body.result]⟩
    · rw [h2] at hg; simp [Body.result] at hg
  · exact ⟨e, v, by simp [Body.andThen, Body.result]⟩
  · exfalso
    rcases countBody_cases s with ⟨-, hc⟩ | ⟨-, -, hc⟩ | ⟨-, -, hc⟩ <;>
      simp only [hc, Body.andThen, reduceCtorEq] at h1
    rcases buildBody_cases { s with freq := countSymbols (s.symBytes 0 s.symLen.toNat) } with
      ⟨-, hc'⟩ | ⟨-, hc'⟩ <;> rw [hc'] at h1 <;> simp at h1

/-- A completed command's state has the invariant when its body's has the data part (R262). -/
theorem complete_inv {u : State} (h : DataInv u) (op : Byte) (e : ErrCode) : Inv (complete op e u) :=
  ⟨⟨h.depths, h.symWf, h.payWf, fun hv => (h.tree hv).congr rfl rfl rfl rfl, h.table, h.maxLen⟩,
    rfl, fun hb => by simp at hb⟩

end Sys2Proof.Machine
end

