-- ==== Sys2Proof/Laws/PerInstr.lean ====
section
/-! SUPPORT. What holds of every command as syntax, one lemma per command. -/

namespace Sys2Proof.Laws.CommandWord

/-- A command's word has RSV = 0 and its opcode in OP, is no illegal word, and is the table row the
decoder reads back (R110, R113, R114). -/
def Statement (i : Instr) : Prop :=
  (Sys2Proof.encode i).extractLsb' 8 24 = 0 ∧ (Sys2Proof.encode i).extractLsb' 0 8 = i.opcode
  ∧ ¬ Machine.IllegalWord (Sys2Proof.encode i) ∧ i.wellFormed = true
  ∧ decodeTableWord 32 (Sys2Proof.encode i).toNat = some i

theorem nop : Statement .nop := by unfold Statement Machine.IllegalWord; decide
theorem count : Statement .count := by unfold Statement Machine.IllegalWord; decide
theorem build : Statement .build := by unfold Statement Machine.IllegalWord; decide
theorem gen : Statement .gen := by unfold Statement Machine.IllegalWord; decide
theorem encode : Statement .encode := by unfold Statement Machine.IllegalWord; decide
theorem decode : Statement .decode := by unfold Statement Machine.IllegalWord; decide
theorem tableCommit : Statement .tableCommit := by unfold Statement Machine.IllegalWord; decide
theorem compress : Statement .compress := by unfold Statement Machine.IllegalWord; decide

end Sys2Proof.Laws.CommandWord
end

