-- ==== Sys2Proof/Laws/Steps.lean ====
section
/-! SUPPORT. What one step can do (20_memory.md R90, R91): one case lemma for the step, one for a command's
execution, and that every host event keeps the invariant. -/

namespace Sys2Proof.Machine

/-- The body of each command. -/
def bodyOf : Instr → State → Body
  | .nop         => nopBody
  | .count       => countBody
  | .build       => buildBody
  | .gen         => genBody
  | .encode      => encodeBody
  | .decode      => decodeBody
  | .tableCommit => tableCommitBody
  | .compress    => compressBody

/-- Every command is its body and one completion record with its opcode (R262). -/
theorem exec_eq (i : Instr) (s : State) : exec i s = (bodyOf i s).record i.opcode := by cases i <;> rfl

/-- A command answers a next state exactly when its body ends; the state is the recorded one (R262). -/
theorem exec_next (i : Instr) (s t : State) : exec i s = .next t ↔
    ∃ e u, (bodyOf i s).result = some (e, u) ∧ t = complete i.opcode e u := by
  rw [exec_eq, Body.record_next]

theorem bodyOf_keeps {i : Instr} {s : State} {e : ErrCode} {u : State}
    (h : (bodyOf i s).result = some (e, u)) : Keeps s u := by
  cases i
  case nop => obtain ⟨-, rfl⟩ : _ ∧ _ := by simpa [bodyOf, nopBody, Body.result] using h
              exact Keeps.refl s
  case count => exact countBody_keeps h
  case build => exact buildBody_keeps h
  case gen => exact genBody_keeps h
  case encode => exact encodeBody_keeps h
  case decode => exact decodeBody_keeps h
  case tableCommit => exact tableCommitBody_keeps h
  case compress => exact compressBody_keeps h

theorem bodyOf_dataInv {i : Instr} {s u : State} {e : ErrCode} (h : DataInv s)
    (hb : (bodyOf i s).result = some (e, u)) : DataInv u := by
  cases i
  case nop => obtain ⟨-, rfl⟩ : _ ∧ _ := by simpa [bodyOf, nopBody, Body.result] using hb
              exact h
  case count => exact countBody_dataInv h hb
  case build => exact buildBody_dataInv h hb
  case gen => exact genBody_dataInv h hb
  case encode => exact encodeBody_dataInv h hb
  case decode => exact decodeBody_dataInv h hb
  case tableCommit => exact tableCommitBody_dataInv h hb
  case compress => exact compressBody_dataInv h hb

/-- Every command ends where the data invariant holds (R306). -/
theorem bodyOf_ends {i : Instr} {s : State} (h : DataInv s) :
    ∃ e u, (bodyOf i s).result = some (e, u) := by
  cases i
  case nop => exact ⟨_, _, rfl⟩
  case count =>
    rcases countBody_cases s with ⟨-, hc⟩ | ⟨-, -, hc⟩ | ⟨-, -, hc⟩ <;>
      exact ⟨_, _, by rw [bodyOf, hc]; rfl⟩
  case build =>
    rcases buildBody_cases s with ⟨-, hc⟩ | ⟨-, hc⟩ <;> exact ⟨_, _, by rw [bodyOf, hc]; rfl⟩
  case gen => exact genBody_ends h
  case encode =>
    rcases encodeBody_cases s with ⟨-, hc⟩ | ⟨-, -, hc⟩ | ⟨-, -, -, hc⟩ | ⟨-, -, -, -, hc⟩ |
      ⟨-, -, -, -, ⟨-, hc⟩ | ⟨-, hc⟩⟩ <;> exact ⟨_, _, by rw [bodyOf, hc]; rfl⟩
  case decode =>
    rcases decodeBody_cases s with ⟨-, hc⟩ | ⟨-, -, hc⟩ | ⟨-, -, -, hc⟩ | ⟨-, -, -, -, -, hc⟩
    case inr.inr.inr =>
      obtain ⟨w, out, -, -, ⟨-, hd⟩ | ⟨-, hd⟩ | ⟨-, hd⟩⟩ :=
        decodeWalk_cases s (s.payByte 0).toNat (decodeData s) <;>
        exact ⟨_, _, by rw [bodyOf, hc, hd]; rfl⟩
    all_goals exact ⟨_, _, by rw [bodyOf, hc]; rfl⟩
  case tableCommit =>
    rcases tableCommitBody_cases s with ⟨-, hc⟩ | ⟨-, hc⟩ <;> exact ⟨_, _, by rw [bodyOf, hc]; rfl⟩
  case compress => exact compressBody_ends h

/-- The engine's step: idle, an illegal word's record, or a command (R90, R112, R242). -/
theorem engineStep_cases (s : State) :
    (s.pending = none ∧ engineStep s = .next s)
    ∨ (∃ w r, s.pending = some w ∧ decode w = .error r
      ∧ engineStep s = .next (complete (w.extractLsb' 0 8) .illegalCommand s))
    ∨ (∃ w i, s.pending = some w ∧ decode w = .ok i ∧ engineStep s = exec i s) := by
  unfold engineStep
  rcases hp : s.pending with - | w
  · simp
  · rcases hd : decode w with r | i
    · refine .inr (.inl ⟨w, r, rfl, hd, ?_⟩)
      simp only [hd]; rfl
    · refine .inr (.inr ⟨w, i, rfl, hd, ?_⟩)
      simp only [hd]

/-- One step is one event (R91). -/
theorem step_cases (s : State) :
    (s.agenda = [] ∧ step s = engineStep s)
    ∨ (∃ t rest, s.agenda = .bus t :: rest ∧ step s = .next (transact t { s with agenda := rest }))
    ∨ (∃ rest, s.agenda = .wait :: rest ∧ step s = .next (pollStatus rest s))
    ∨ (∃ rest, s.agenda = .engine :: rest ∧ step s = engineStep { s with agenda := rest })
    ∨ (∃ rest, s.agenda = .hardReset :: rest ∧ step s = .next (hardReset { s with agenda := rest })) := by
  unfold step nextEvent
  rcases s.agenda with - | ⟨_ | _ | _ | _, rest⟩
  · exact .inl ⟨rfl, rfl⟩
  · exact .inr (.inl ⟨_, _, rfl, rfl⟩)
  · exact .inr (.inr (.inl ⟨_, rfl, rfl⟩))
  · exact .inr (.inr (.inr (.inl ⟨_, rfl, rfl⟩)))
  · exact .inr (.inr (.inr (.inr ⟨_, rfl, rfl⟩)))

/-- The engine's step ends, leaves nothing latched and keeps the coming events (R262, R306). -/
theorem engineStep_ends {s : State} (h : DataInv s) :
    ∃ u, engineStep s = .next u ∧ u.busy = false ∧ u.agenda = s.agenda := by
  obtain ⟨hp, he⟩ | ⟨w, r, -, -, he⟩ | ⟨w, i, -, -, he⟩ := engineStep_cases s
  · exact ⟨s, he, by simp [State.busy, hp], rfl⟩
  · exact ⟨_, he, rfl, rfl⟩
  · obtain ⟨e, u, hb⟩ := bodyOf_ends (i := i) h
    exact ⟨_, he.trans ((exec_next i s _).2 ⟨e, u, hb, rfl⟩), rfl, (bodyOf_keeps hb).agenda⟩

/-- A poll of a WAIT keeps BUSY, reads it in bit 0, and leaves the WAIT exactly when it reads 0 (R118). -/
theorem pollStatus_effect (rest : List Event) (s : State) :
    (pollStatus rest s).busy = s.busy ∧ (pollStatus rest s).readData.getLsbD 0 = s.busy
    ∧ (pollStatus rest s).agenda = if s.busy then .engine :: .wait :: rest else rest := by
  refine ⟨?_, busRead_status_bit0 _, ?_⟩ <;>
    (obtain ⟨w, n, hr⟩ := busRead_effect Reg.status.addr
      { s with agenda := if s.busy then .engine :: .wait :: rest else rest }
     rw [pollStatus, hr]; try rfl)

/-! ### Host events keep the invariant -/

theorem softReset_inv {s : State} (h : Inv s) : Inv (softReset s) :=
  ⟨⟨h.data.depths, h.data.symWf, h.data.payWf, fun hv => by simp at hv, fun hv => by simp at hv,
    fun hv => by simp at hv⟩, rfl, fun hb => by simp [State.busy] at hb⟩

theorem hardReset_inv {s : State} (h : Inv s) : Inv (hardReset s) :=
  ⟨⟨h.data.depths, ⟨List.Pairwise.nil, by simp⟩, ⟨List.Pairwise.nil, by simp⟩, fun hv => by simp at hv, fun hv => by simp at hv,
    fun hv => by simp at hv⟩, rfl, fun hb => by simp [State.busy] at hb⟩

/-- A change of fields the invariant does not read keeps it. -/
theorem Inv.congr {s u : State} (h : Inv s) (hd : u.symDepth = s.symDepth) (hp : u.payDepth = s.payDepth)
    (hs : u.sym = s.sym) (hy : u.pay = s.pay) (hv : u.treeValid = s.treeValid) (hn : u.node = s.node)
    (hl : u.leafCount = s.leafCount) (hc : u.nodeCount = s.nodeCount) (hr : u.rootWeight = s.rootWeight)
    (ht : u.tableValid = s.tableValid) (ho : u.code = s.code) (hm : u.maxLen = s.maxLen)
    (he : u.error = s.error) (hec : u.errCode = s.errCode) (hdn : u.done = true → s.done = true)
    (hpe : u.pending = s.pending) : Inv u := by
  obtain ⟨⟨h1, h2, h3, h4, h5, h6⟩, h7, h8⟩ := h
  refine ⟨⟨by rwa [hd, hp], by rwa [hd, hs], by rwa [hp, hy],
    fun hx => (h4 (hv ▸ hx)).congr hn hl hc hr, fun hx => ?_, fun hx => ?_⟩, by rw [he, hec, h7], fun hb => ?_⟩
  · rw [ho]; exact h5 (ht ▸ hx)
  · rw [hm, ho]; exact h6 (ht ▸ hx)
  · have hb' : s.busy = true := by simpa [State.busy, hpe] using hb
    obtain ⟨k1, k2⟩ := h8 hb'
    refine ⟨?_, by rw [he]; exact k2⟩
    by_contra hc'
    have := hdn (by simpa using hc')
    rw [k1] at this; simp at this

theorem busWrite_inv {s : State} (h : Inv s) (a : Addr) (d : Word) : Inv (busWrite a d s) := by
  rcases busWrite_cases a d s with hw | hw | hw | ⟨o, hw, -⟩ | ⟨hb, hw⟩
  · rw [hw]; exact h
  · rw [hw]; exact softReset_inv h
  · rw [hw]
    exact h.congr rfl rfl rfl rfl rfl rfl rfl rfl rfl rfl rfl rfl rfl rfl (by simp; tauto) rfl
  · rw [hw]
    exact h.congr rfl rfl rfl rfl rfl rfl rfl rfl rfl rfl rfl rfl rfl rfl id rfl
  · rcases hw with hw | hw | hw | ⟨b, hw⟩ | ⟨b, k, hw⟩ | ⟨j, hw⟩ | ⟨j, hw⟩ <;> rw [hw]
    · exact ⟨⟨h.data.depths, h.data.symWf, h.data.payWf,
        fun hv => (h.data.tree hv).congr rfl rfl rfl rfl, h.data.table, h.data.maxLen⟩, rfl,
        fun _ => ⟨rfl, rfl⟩⟩
    · exact h.congr rfl rfl rfl rfl rfl rfl rfl rfl rfl rfl rfl rfl rfl rfl id rfl
    · exact h.congr rfl rfl rfl rfl rfl rfl rfl rfl rfl rfl rfl rfl rfl rfl id rfl
    · exact h.congr rfl rfl rfl rfl rfl rfl rfl rfl rfl rfl rfl rfl rfl rfl id rfl
    · exact ⟨⟨h.data.depths, h.data.symWf, h.data.payWf,
        fun hv => (h.data.tree hv).congr rfl rfl rfl rfl, fun hv => by simp at hv,
        fun hv => by simp at hv⟩, h.errFlag, h.latched⟩
    · exact ⟨⟨h.data.depths, storeWord_wf h.data.symWf, h.data.payWf,
        fun hv => (h.data.tree hv).congr rfl rfl rfl rfl, h.data.table, h.data.maxLen⟩, h.errFlag, h.latched⟩
    · exact ⟨⟨h.data.depths, h.data.symWf, storeWord_wf h.data.payWf,
        fun hv => (h.data.tree hv).congr rfl rfl rfl rfl, h.data.table, h.data.maxLen⟩, h.errFlag, h.latched⟩

theorem busRead_inv {s : State} (h : Inv s) (a : Addr) : Inv (busRead a s) := by
  obtain ⟨w, n, hr⟩ := busRead_effect a s
  rw [hr]
  exact h.congr rfl rfl rfl rfl rfl rfl rfl rfl rfl rfl rfl rfl rfl rfl id rfl

/-- The agenda is no part of the invariant. -/
theorem Inv.agenda {s : State} (h : Inv s) (rest : List Event) : Inv { s with agenda := rest } :=
  h.congr rfl rfl rfl rfl rfl rfl rfl rfl rfl rfl rfl rfl rfl rfl id rfl

end Sys2Proof.Machine
end

