-- ==== Sys2Proof/Laws/RoundTrip.lean ====
section
/-! SUPPORT. COMPRESS on an input that fits the symbol buffer, and DECODE of a packed payload
(45_composite_and_control.md R240, R244; 44_prefix_decoder.md R229). -/

namespace Sys2Proof.Machine

/-- COMPRESS after its first three stages: the counts, the tree and the table `codeTable codes`. -/
def tabledState (s : State) (codes : List (Byte × Bits)) : State :=
  { builtState { s with freq := countSymbols (s.symBytes 0 s.symLen.toNat) } with
    code       := codeTable codes
    maxLen     := longestCode (codeTable codes)
    tableValid := true }

/-- A counted symbol has a non-zero count (R142, R143). -/
theorem countSymbols_ne_zero {bytes : List Byte} (h : bytes.length < 2 ^ 32) {b : Byte} (hb : b ∈ bytes) :
    atSymbol (countSymbols bytes) b ≠ 0 := by
  intro he
  have h1 := countSymbols_toNat bytes h b
  have h2 := List.count_pos_iff.2 hb
  rw [he] at h1
  simp at h1
  omega

theorem length_symBytes (s : State) (i n : Nat) : (s.symBytes i n).length = n := by
  simp [State.symBytes]

/-- Once COUNT succeeds, COMPRESS ends with success or with ENCODE's CAPACITY (R244). -/
theorem compressBody_fits (s : State) (hd : DepthsLegal s.symDepth s.payDepth)
    (h0 : s.symLen.toNat ≠ 0) (h1 : s.symLen.toNat ≤ s.symDepth) :
    ∃ codes, treeCodes (tabledState s codes).nodeAt ((tabledState s codes).nodeCount.toNat - 1) = some codes
      ∧ TableOk (codeTable codes)
      ∧ (∀ b ∈ s.symBytes 0 s.symLen.toNat, (atSymbol (codeTable codes) b).hasCode = true)
      ∧ ((s.payDepth < (frame (codeString (codeTable codes) (s.symBytes 0 s.symLen.toNat))).length / 8
          ∧ compressBody s = .raise .capacity (tabledState s codes))
        ∨ ((frame (codeString (codeTable codes) (s.symBytes 0 s.symLen.toNat))).length / 8 ≤ s.payDepth
          ∧ compressBody s = .finish (packedState (tabledState s codes)
              (codeString (codeTable codes) (s.symBytes 0 s.symLen.toNat))))) := by
  have hlen : (s.symBytes 0 s.symLen.toNat).length < 2 ^ 32 := by
    rw [length_symBytes]; have := hd.sym_le; omega
  have hcount : countBody s = .finish { s with freq := countSymbols (s.symBytes 0 s.symLen.toNat) } := by
    rcases countBody_cases s with ⟨hc, -⟩ | ⟨-, hc, -⟩ | ⟨-, -, hc⟩
    · omega
    · omega
    · exact hc
  have hmem : ∀ b ∈ s.symBytes 0 s.symLen.toNat,
      b ∈ presentSymbols (countSymbols (s.symBytes 0 s.symLen.toNat)) := fun b hb =>
    (mem_presentSymbols _ _).2 (countSymbols_ne_zero hlen hb)
  have hp : (presentSymbols (countSymbols (s.symBytes 0 s.symLen.toNat))).length ≠ 0 := by
    have hne : s.symBytes 0 s.symLen.toNat ≠ [] := by
      intro he; have := length_symBytes s 0 s.symLen.toNat; rw [he] at this; simp at this; omega
    obtain ⟨b, hb⟩ := List.exists_mem_of_ne_nil _ hne
    exact Nat.ne_of_gt (List.length_pos_of_mem (hmem b hb))
  have hbuild : buildBody { s with freq := countSymbols (s.symBytes 0 s.symLen.toNat) }
      = .finish (builtState { s with freq := countSymbols (s.symBytes 0 s.symLen.toNat) }) := by
    rcases buildBody_cases { s with freq := countSymbols (s.symBytes 0 s.symLen.toNat) } with ⟨hc, -⟩ | ⟨-, hc⟩
    · exact absurd hc hp
    · exact hc
  obtain ⟨codes, hc, hperm, hl, hok⟩ :=
    builtState_codes { s with freq := countSymbols (s.symBytes 0 s.symLen.toNat) } hp
  have hgen : genBody (builtState { s with freq := countSymbols (s.symBytes 0 s.symLen.toNat) })
      = .finish (tabledState s codes) := by
    rcases genBody_cases (builtState { s with freq := countSymbols (s.symBytes 0 s.symLen.toNat) }) with
      ⟨hv, -⟩ | ⟨-, hn, -⟩ | ⟨codes', -, hc', hg⟩
    · simp [builtState] at hv
    · rw [hc] at hn; simp at hn
    · rw [hc] at hc'; cases hc'; exact hg
  have hcode : ∀ b ∈ s.symBytes 0 s.symLen.toNat, (atSymbol (codeTable codes) b).hasCode = true := by
    intro b hb
    obtain ⟨⟨b', p⟩, hx, rfl⟩ := List.mem_map.1 (hperm.mem_iff.2 (hmem b hb))
    have hnd : (codes.map Prod.fst).Nodup := hperm.nodup_iff.2 (presentSymbols_nodup _)
    have := hl _ hx
    rw [codeTable_of_mem codes hnd b' p hx, codeEntry_hasCode p this.2]
    intro he; rw [he] at this; simp at this
  have hcomp : compressBody s = encodeBody (tabledState s codes) := by
    simp only [compressBody, hcount, Body.andThen, hbuild, hgen]
  refine ⟨codes, hc, hok, hcode, ?_⟩
  rw [hcomp]
  rcases encodeBody_cases (tabledState s codes) with ⟨hv, -⟩ | ⟨-, hv, -⟩ | ⟨-, -, hv, -⟩ |
    ⟨-, -, -, ⟨b, hb, hf⟩, -⟩ | ⟨-, -, -, -, he⟩
  · simp [tabledState] at hv
  · simp only [tabledState, builtState] at hv; omega
  · simp only [tabledState, builtState] at hv; omega
  · exact absurd ((hcode b hb).symm.trans hf) (by simp)
  · exact he

/-- DECODE of what ENCODE packed gives the symbols back (R229): the state may differ in any field DECODE
does not read. -/
theorem decodeBody_packed {v : State} {g : State} {S : List Byte} (hS : S.length ≤ v.symDepth)
    (hn : 1 ≤ S.length) (hok : TableOk v.code) (hv : v.tableValid = true)
    (hcode : ∀ b ∈ S, (atSymbol v.code b).hasCode = true)
    (hfit : (frame (codeString v.code S)).length / 8 ≤ v.payDepth) (hpd : v.payDepth ≤ 2 ^ 21)
    (hpay : v.pay = g.pay.storeBytes 0 (packMSB (frame (codeString v.code S))))
    (hlen : v.payLen = BitVec.ofNat 32 ((frame (codeString v.code S)).length / 8)) :
    decodeBody v = .finish (decoded v (padCount (codeString v.code S).length) (codeString v.code S) S S.length) := by
  generalize hd : codeString v.code S = d at *
  have hpad := padCount_lt d.length
  have hm : v.payLen.toNat = (frame d).length / 8 := by
    rw [hlen, BitVec.toNat_ofNat]; omega
  have hpos : 1 ≤ (frame d).length / 8 := by rw [length_frame_div]; omega
  have hpk := length_packMSB (frame d)
  have hhead : (v.payByte 0).toNat = padCount d.length := by
    have : v.pay.lookup 0 = some (BitVec.ofNat 8 (padCount d.length)) := by
      rw [hpay, lookup_storeBytes, if_pos (by omega), packMSB_frame]; rfl
    rw [State.payByte, this]
    simp; omega
  have hbytes : v.payBytes 1 (v.payLen.toNat - 1) = packMSB (d ++ zeros (padCount d.length)) := by
    have h := map_range'_lookup g.pay (packMSB (frame d)) (fun i => Config.payAtReset v.resets i) 1
      (v.payLen.toNat - 1) (by omega)
    have h2 : v.payBytes 1 (v.payLen.toNat - 1) = (List.range' 1 (v.payLen.toNat - 1)).map
        (fun k => ((g.pay.storeBytes 0 (packMSB (frame d))).lookup k).getD (Config.payAtReset v.resets k)) := by
      refine List.map_congr_left fun k _ => ?_
      rw [State.payByte, hpay]
    rw [h2, h, packMSB_frame]
    simp only [List.drop_succ_cons, List.drop_zero]
    apply List.take_of_length_le
    rw [packMSB_frame] at hpk
    simp only [List.length_cons] at hpk
    omega
  have hdata : decodeData v = d := by
    rw [decodeData, hbytes, hhead, payloadData_frame]
  have hsub : padCount d.length ≤ 8 * (v.payLen.toNat - 1) := by
    have h1 : 1 ≤ d.length := by
      rw [← hd]
      match S, hn with
      | b :: S, _ =>
        have hb := (CodeEntry.hasCode_iff _).1 (hcode b List.mem_cons_self)
        simp only [codeString, List.flatMap_cons, List.length_append]
        omega
    rw [hm, length_frame_div]
    omega
  rcases decodeBody_cases v with ⟨hc, -⟩ | ⟨-, hc, -⟩ | ⟨-, -, hc, -⟩ | ⟨-, -, -, -, -, hb⟩
  · rw [hv] at hc; simp at hc
  · omega
  · omega
  · rw [hb, hdata, hhead]
    have hw := walk_codeString hok.prefixFree v.symDepth [] S [] hcode (by simpa using hS)
    rw [hd] at hw
    simp only [List.append_nil, List.nil_append, walk, if_true] at hw
    unfold decodeWalk
    rw [hw]

/-- The symbols read back after DECODE wrote them. -/
theorem symBytes_decoded (v : State) (pad : Nat) (d : Bits) (S : List Byte) (len : Nat) :
    (decoded v pad d S len).symBytes 0 S.length = S := by
  have h := map_range'_lookup v.sym S (fun i => Config.symAtReset v.resets i) 0 S.length (by omega)
  rw [List.drop_zero, List.take_length] at h
  exact h

end Sys2Proof.Machine
end

