-- ==== Sys2Proof/Tests/Slice0.lean ====
section
/-! SUPPORT. Tests: expected results from spec/95_test_vectors.md, and the witnesses of the statements'
hypotheses. -/

namespace Sys2Proof.Machine.Tests

/-! ### Small states -/

/-- Reset with small buffers. -/
def small : State := { State.reset with symDepth := 64, payDepth := 64 }

/-- The input `bytes` in SYM, with its length. -/
def withSym (bytes : List Byte) (s : State) : State :=
  { s with sym := Memory.storeBytes [] 0 bytes, symLen := BitVec.ofNat 32 bytes.length }

/-- The payload `bytes` in PAY, with its length. -/
def withPay (bytes : List Byte) (s : State) : State :=
  { s with pay := Memory.storeBytes [] 0 bytes, payLen := BitVec.ofNat 32 bytes.length }

/-- These counts in FREQ. -/
def withCounts (counts : List (Byte × Word)) (s : State) : State :=
  { s with freq := counts.foldl (fun f p => setSymbol f p.1 p.2) s.freq }

/-- These codes in CODE, not committed. -/
def withCodes (codes : List (Byte × Bits)) (s : State) : State := { s with code := codeTable codes }

/-- These codes in CODE, committed. -/
def withTable (codes : List (Byte × Bits)) (s : State) : State :=
  { s with code := codeTable codes, maxLen := longestCode (codeTable codes), tableValid := true }

/-- A busy state: `w` is latched and its engine step not yet taken. -/
def latched (w : Word) : State := issue w small

/-- "aaaaaaabbbbbbbcccd" (V-L1). -/
def scenarioInput : List Byte :=
  [0x61, 0x61, 0x61, 0x61, 0x61, 0x61, 0x61, 0x62, 0x62, 0x62, 0x62, 0x62, 0x62, 0x62, 0x63, 0x63, 0x63, 0x64]

/-- The counts of V-B1. -/
def scenarioCounts : List (Byte × Word) := [(0x61, 7), (0x62, 7), (0x63, 3), (0x64, 1)]

/-- The codes of V-G1: a "11", b "0", c "101", d "100". -/
def scenarioCodes : List (Byte × Bits) :=
  [(0x61, [true, true]), (0x62, [false]), (0x63, [true, false, true]), (0x64, [true, false, false])]

/-- The x table (V-T1): x "0". -/
def xCodes : List (Byte × Bits) := [(0x78, [false])]

/-- The state a command leaves. -/
def after (i : Instr) (s : State) : State :=
  match exec i s with
  | .next t    => t
  | .fault _   => s
  | .refused _ => s

/-! ### WellFormed: each check refuses an ill-formed term -/

theorem test_rsv_refused : ({ rsv := 1, op := 0x00 } : Cmd32).wellFormed = false := by decide
theorem test_op_refused : ({ rsv := 0, op := 0x08 } : Cmd32).wellFormed = false := by decide
theorem test_op_last_accepted : ({ rsv := 0, op := 0x07 } : Cmd32).wellFormed = true := by decide

/-! ### Decode: words written out bit by bit from R110 and R113 -/

theorem test_decode_nop : decode 0b00000000000000000000000000000000 = .ok .nop := by decide
theorem test_decode_count : decode 0b00000000000000000000000000000001 = .ok .count := by decide
theorem test_decode_build : decode 0b00000000000000000000000000000010 = .ok .build := by decide
theorem test_decode_gen : decode 0b00000000000000000000000000000011 = .ok .gen := by decide
theorem test_decode_encode : decode 0b00000000000000000000000000000100 = .ok .encode := by decide
theorem test_decode_decode : decode 0b00000000000000000000000000000101 = .ok .decode := by decide
theorem test_decode_tableCommit : decode 0b00000000000000000000000000000110 = .ok .tableCommit := by decide
theorem test_decode_compress : decode 0b00000000000000000000000000000111 = .ok .compress := by decide
theorem test_decode_op8 : decode 0b00000000000000000000000000001000 = .error .opcodeOutOfRange := by decide
theorem test_decode_rsv8 : decode 0b00000000000000000000000100000001 = .error .reservedBitsSet := by decide
theorem test_table_row : decodeTableWord 32 6 = some .tableCommit ∧ decodeTableWord 32 0x106 = none
  ∧ decodeTableWord 33 6 = none := by decide

/-! ### One step of each command -/

/-- V-N1: `RUN NOP` from reset. -/
theorem test_nop : (after .nop State.reset).statusWord = 0x00000002 := by decide +kernel

/-- V-C7, STATUS. -/
theorem test_count :
    let t := after .count (withSym scenarioInput small)
    t.statusWord = 0x00010002 ∧ [0x61, 0x62, 0x63, 0x64].map (atSymbol t.freq) = [7, 7, 3, 1] := by
  decide +kernel

/-- V-C5: counts left by the host are cleared first. -/
theorem test_count_clears :
    let t := after .count (withCounts [(0x7A, 5)] (withSym [0x61, 0x61, 0x62] small))
    [0x7A, 0x61, 0x62].map (atSymbol t.freq) = [0, 2, 1] := by decide +kernel

/-- V-B1: the window words of the arena, the tie of merge 2 included. -/
theorem test_build :
    let t := after .build (withCounts scenarioCounts small)
    [0, 3, 4, 5, 6, 7].map (fun i => [0, 1, 3].map fun k => t.targetWord (.node i k))
      = [[0x80000061, 7, 0], [0x80000064, 1, 0], [0, 4, 0x00030002], [0, 0x0B, 0x00040000],
         [0, 0x12, 0x00010005], [0, 0, 0]]
    ∧ t.regWord .nodeCount = 7 ∧ t.statusWord = 0x00020012 := by decide +kernel

/-- V-G1: the codes of the scenario tree. -/
theorem test_gen :
    let t := after .gen (after .build (withCounts scenarioCounts small))
    [0x61, 0x62, 0x63, 0x64, 0x65].map (fun b => ((atSymbol t.code b).word 0, (atSymbol t.code b).word 1))
      = [(2, 0xC0000000), (1, 0), (3, 0xA0000000), (3, 0x80000000), (0, 0)]
    ∧ t.maxLen = 3 ∧ t.statusWord = 0x00030032 := by decide +kernel

/-- V-G3: a tree of one leaf has the code "0". -/
theorem test_gen_single :
    let t := after .gen (after .build (withCounts [(0x78, 1)] small))
    (atSymbol t.code 0x78).bits = [false] ∧ t.maxLen = 1 := by decide +kernel

/-- V-T3: "0" is a prefix of "01". -/
theorem test_commit_refuses :
    (after .tableCommit (withCodes [(0x61, [false]), (0x62, [false, true])] small)).statusWord
      = 0x00060606 := by decide +kernel

/-- V-T7: bits past LEN are ignored. -/
theorem test_commit_ignores_bits_past_len :
    let s := busWrite (codeAddr 0x62 1) 0x80000000 (busWrite (codeAddr 0x62 0) 1
      (busWrite (codeAddr 0x61 1) 0x7FFFFFFF (busWrite (codeAddr 0x61 0) 1 small)))
    (after .tableCommit s).statusWord = 0x00060022 ∧ (after .tableCommit s).maxLen = 1 := by decide +kernel

/-- V-E1. -/
theorem test_encode :
    let t := after .encode (withTable scenarioCodes (withSym scenarioInput small))
    t.payBytes 0 6 = [0x07, 0xFF, 0xFC, 0x05, 0xB6, 0x00] ∧ t.payLen = 6 ∧ t.bitLen = 33 ∧ t.pad = 7 := by
  decide +kernel

/-- V-E17: CAPACITY at check 6, with PAY_DEPTH one short. -/
theorem test_encode_capacity :
    (after .encode { withTable scenarioCodes (withSym scenarioInput small) with payDepth := 5 }).errCode
      = .capacity := by decide +kernel

/-- V-D4: the last data bit flipped. -/
theorem test_decode_flipped :
    let t := after .decode (withTable scenarioCodes (withPay [0x07, 0xFF, 0xFC, 0x05, 0xB6, 0x80] small))
    t.symBytes 0 18 = scenarioInput.take 17 ++ [0x63] ∧ t.symLen = 18 ∧ t.bitLen = 33 ∧ t.pad = 7
    ∧ t.statusWord = 0x00050022 := by decide +kernel

/-- V-D2: a leftover bit; the emitted symbols stay and SYM_LEN is 0. -/
theorem test_decode_leftover :
    let t := after .decode (withTable scenarioCodes (withPay [0x07, 0xFF, 0xFC, 0x05, 0xB6] small))
    t.symBytes 0 15 = scenarioInput.take 15 ∧ t.symLen = 0 ∧ t.bitLen = 25 ∧ t.statusWord = 0x00050326 := by
  decide +kernel

/-- V-X1. -/
theorem test_compress :
    let t := after .compress (withSym [0x78] small)
    t.payBytes 0 2 = [0x07, 0x00] ∧ t.payLen = 2 ∧ t.bitLen = 1 ∧ t.pad = 7
    ∧ t.statusWord = 0x00070032 := by decide +kernel

/-- V-N3: RSV ≠ 0 is no COUNT. -/
theorem test_illegal :
    (match step { State.reset with pending := some 0x00000101 } with
      | .next t => some t.statusWord
      | _       => none) = some 0x00010806 := by decide +kernel

/-- R113, R241: the word placed by `withFetchWord` is the one the next step runs. -/
theorem test_withFetchWord :
    (match step (State.reset.withFetchWord 32 0) with
      | .next t => some (t.statusWord, t.agenda)
      | _       => none) = some (0x00000002, []) := by decide +kernel

/-! ### The bus -/

/-- V-N11, V-N12, V-N14. -/
theorem test_bus :
    (busRead 0x100000 (busWrite 0x100000 0x64636261 small)).readData = 0x64636261
    ∧ (busWrite 0x100000 0x64636261 small).symByte 0 = 0x61
    ∧ atSymbol (busWrite 0x000402 7 small).freq 0 = 7
    ∧ (busRead (codeAddr 0x61 0) (busWrite (codeAddr 0x61 0) 0x102 small)).readData = 2 := by decide +kernel

/-- V-N15, V-N16, V-N17. -/
theorem test_busy_writes :
    (after .nop (busWrite 0x00000C 1 (latched 0))).statusWord = 0x0000000A
    ∧ (busWrite 0x000014 5 (latched 0)).symLen = 0 ∧ (busWrite 0x000014 5 (latched 0)).overrun = true
    ∧ (busWrite 0x000008 1 (latched 0)).statusWord = 0 := by decide +kernel

/-- V-N6: DONE cleared by its 1, ERROR and ERR_CODE kept. -/
theorem test_status_write :
    (busWrite 0x000010 2 { small with done := true, error := true, errCode := .illegalCommand, lastOp := 0xFF
      }).statusWord = 0x00FF0804 := by decide +kernel

/-- R118: `CMD NOP` and `CLRST` expand to their transactions. -/
theorem test_script : scriptEvents [.run .nop, .clrst]
    = [.bus (.write 0x00000C 0), .wait, .bus (.write 0x000010 0x0A)] := by decide

/-- R52, R118: bits of a LOADCODE from `c_256` on are in no word. -/
theorem test_loadcode_long : codeWords (List.replicate 256 true ++ [false]) = List.replicate 8 0xFFFFFFFF := by
  decide +kernel

/-- R49, R93: a SYM word wholly beyond the depth is reserved, and reads 0 while BUSY = 1. -/
theorem test_busy_read_beyond_depth :
    (busRead (symAddr 64) { latched 0 with readData := 5 }).readData = 0
    ∧ (busRead (symAddr 64) (latched 0)).draws = 0
    ∧ (busRead (symAddr 60) (latched 0)).draws = 1 := by decide +kernel

/-! ### Witnesses: states and operands that meet the statements' hypotheses -/

theorem depthsLegal_small : DepthsLegal small.symDepth small.payDepth :=
  ⟨by decide, by decide, by decide, by decide⟩

/-- The least and the greatest depths (R7). -/
theorem depthsLegal_bounds : DepthsLegal 1 2 ∧ DepthsLegal (2 ^ 20) (2 ^ 21) :=
  ⟨⟨by decide, by decide, by decide, by decide⟩, ⟨by decide, by decide, by decide, by decide⟩⟩

theorem tableOk_scenario : TableOk (codeTable scenarioCodes) :=
  codeTable_ok (by decide) (by decide) (by decide)
    (by
      show scenarioCodes.Pairwise fun x y => ¬ x.2 <+: y.2 ∧ ¬ y.2 <+: x.2
      decide)

theorem tableOk_x : TableOk (codeTable xCodes) :=
  codeTable_ok (by decide) (by decide) (by decide) (by simp [xCodes])

theorem treeOk_of_count (s : State) (b : Byte) (h : atSymbol s.freq b ≠ 0) : TreeOk (builtState s) :=
  builtState_treeOk s (by
    have hm : b ∈ presentSymbols s.freq := by rw [mem_presentSymbols]; exact h
    exact Nat.pos_iff_ne_zero.1 (List.length_pos_of_mem hm))

/-- The counts of the scenario, and of one symbol alone. -/
def scenarioTree : State := builtState (withCounts scenarioCounts small)
def singleTree : State := builtState (withCounts [(0x78, 1)] small)

/-- `DecoderCases`, `DecodeAndEncodeAgree`: a word for each clause, at the ends of its range. -/
theorem witness_DecoderCases :
    (0x00000100 : Word).extractLsb' 8 24 ≠ 0 ∧ (0x80000007 : Word).extractLsb' 8 24 ≠ 0
    ∧ (∀ n ∈ [0, 1, 2, 3, 4, 5, 6, 7, 8, 255],
      (BitVec.ofNat 32 n).extractLsb' 8 24 = 0 ∧ (BitVec.ofNat 32 n).extractLsb' 0 8 = BitVec.ofNat 8 n)
    ∧ IllegalWord 8 ∧ IllegalWord 0xFF ∧ IllegalWord 0x100 ∧ IllegalWord 0x80000000 ∧ ¬ IllegalWord 7 := by
  unfold IllegalWord; decide

/-- `StepRunsTheLatchedCommand`: an empty agenda, and the engine's event first; for each command. -/
theorem witness_StepRunsTheLatchedCommand (i : Instr) :
    EngineNext (latched (encode i)) (latched (encode i))
    ∧ (latched (encode i)).pending = some (encode i) ∧ decode (encode i) = .ok i
    ∧ EngineNext { latched (encode i) with agenda := [.engine, .wait] }
        { latched (encode i) with agenda := [.wait] } :=
  ⟨.inl ⟨rfl, rfl⟩, rfl, by cases i <;> decide, .inr ⟨[.wait], rfl, rfl⟩⟩

/-- `IllegalWordLeavesOnlyItsRecord`. -/
theorem witness_IllegalWordLeavesOnlyItsRecord :
    EngineNext (latched 0x108) (latched 0x108) ∧ (latched 0x108).pending = some 0x108
    ∧ IllegalWord 0x108 := ⟨.inl ⟨rfl, rfl⟩, rfl, by unfold IllegalWord; decide⟩

/-- `OneEventPerStep`, `HardwareResetValues`: each event, and the idle engine. -/
theorem witness_OneEventPerStep :
    { small with agenda := [.bus (.read 0)] }.agenda = .bus (.read 0) :: []
    ∧ { small with agenda := [.bus (.write 8 1)] }.agenda = .bus (.write 8 1) :: []
    ∧ { small with agenda := [.hardReset, .wait] }.agenda = .hardReset :: [.wait]
    ∧ EngineNext small small ∧ small.pending = none :=
  ⟨rfl, rfl, rfl, .inl ⟨rfl, rfl⟩, rfl⟩

/-- The invariant of a small idle state. -/
theorem inv_small : Inv small :=
  ⟨⟨depthsLegal_small, ⟨List.Pairwise.nil, by simp [small, State.reset]⟩,
    ⟨List.Pairwise.nil, by simp [small, State.reset]⟩, fun h => (by cases h), fun h => (by cases h),
    fun h => (by cases h)⟩, rfl, fun h => (by cases h)⟩

/-- The invariant of a busy state. -/
theorem inv_latched (w : Word) : Inv (latched w) :=
  ⟨⟨depthsLegal_small, ⟨List.Pairwise.nil, by simp [latched, issue, small, State.reset]⟩,
    ⟨List.Pairwise.nil, by simp [latched, issue, small, State.reset]⟩, fun h => (by cases h),
    fun h => (by cases h), fun h => (by cases h)⟩, rfl, fun _ => ⟨rfl, rfl⟩⟩

/-- Where the data invariant holds every command answers a next state. -/
theorem exec_answers (i : Instr) {s : State} (h : DataInv s) : ∃ t, exec i s = .next t := by
  obtain ⟨e, u, hb⟩ := bodyOf_ends (i := i) h
  exact ⟨_, (exec_next i s _).2 ⟨e, u, hb, rfl⟩⟩

/-- `EveryCommandEndsInItsRecord`, `CommandsRaiseOnlyTheirErrors`, `CompressIsItsStages`: every command
answers a next state. -/
theorem witness_EveryCommandEndsInItsRecord (i : Instr) :
    DepthsLegal small.symDepth small.payDepth ∧ ∃ t, exec i small = .next t :=
  ⟨depthsLegal_small, exec_answers i inv_small.data⟩

/-- `EveryStepKeepsTheInvariant`, `NoStopWhereTheInvariantHolds`, `ConstantsNeverChange`: the step of every
latched command, and of a word that is none. -/
theorem witness_EveryStepKeepsTheInvariant (i : Instr) :
    Inv (latched (encode i)) ∧ (∃ t, step (latched (encode i)) = .next t)
    ∧ Inv (latched 0xFF) ∧ ∃ t, step (latched 0xFF) = .next t := by
  refine ⟨inv_latched _, ?_, inv_latched _, _, rfl⟩
  have h : step (latched (encode i)) = exec i (latched (encode i)) := by cases i <;> rfl
  rw [h]
  exact exec_answers i (inv_latched _).data

/-- The bus statements: an idle and a busy state. -/
theorem witness_busy : small.busy = false ∧ (latched 0).busy = true := by decide

/-- `ReservedReadsZeroIgnoresWrites`: each gap at its ends, and the addresses beside them. -/
theorem witness_ReservedAddress :
    (∀ a ∈ ([0x000040, 0x0003FF, 0x000800, 0x003FFF, 0x009FF0, 0x0FFFFF, 0x400000, 0xFFFFFF] : List Addr),
      ReservedAddress a)
    ∧ ∀ a ∈ ([0x00003F, 0x000400, 0x0007FF, 0x004000, 0x009FEF, 0x100000, 0x3FFFFF] : List Addr),
      ¬ ReservedAddress a := by
  simp [ReservedAddress]

/-- `BusyReadsOfFixedFields`, `ReadsHaveNoSideEffect`, `CodeWindowStoresAndInvalidates`,
`BusyWritesAreBlocked`, `ReadOnlyIgnoresWrites`: the word numbers at the ends of their ranges reach what they name. -/
theorem witness_windows :
    target (codeAddr 0xFF 0) = .code 0xFF 0 ∧ target (codeAddr 0xFF 8) = .code 0xFF 8
    ∧ target (codeAddr 0x00 9) = .code 0x00 9 ∧ target (codeAddr 0xFF 15) = .code 0xFF 15
    ∧ target (nodeAddr 0 0) = .node 0 0 ∧ target (nodeAddr 510 3) = .node 510 3
    ∧ target (freqAddr 0x00) = .freq 0x00 ∧ target (freqAddr 0xFF) = .freq 0xFF := by decide +kernel

/-- `CtrlWriteSoftResets`: both clauses. -/
theorem witness_CtrlWriteSoftResets : (0xFFFFFFFE : Word).getLsbD 0 = false ∧ (1 : Word).getLsbD 0 = true := by
  decide

/-- `FreqWindowHoldsCounts`: another symbol. -/
theorem witness_FreqWindowHoldsCounts : small.busy = false ∧ (0x00 : Byte) ≠ 0xFF := by decide

/-- `CodeBitsAreLeftAligned`: the last bit of a code of 255 bits. -/
theorem witness_CodeBitsAreLeftAligned :
    ({ len := 255, field := 2 } : CodeEntry).bits[254]? = some true
    ∧ ({ len := 255, field := 2 } : CodeEntry).bits[255]? = none := by decide +kernel

/-- `NodeWindowShowsEntries`: the first and the last entry. -/
theorem witness_NodeWindowShowsEntries :
    small.busy = false ∧ small.nodeAt 0 = some Node.zero ∧ small.nodeAt 510 = some Node.zero := by
  decide +kernel

/-- `SymWindowLanes`, `PayWindowLanes`, `BusyWritesAreBlocked`, `ReadsHaveNoSideEffect`,
`BusyReadsOfFixedFields`: the first and the last window word, the last word below a depth and the first
wholly beyond it. -/
theorem witness_lanes :
    small.busy = false ∧ 0 % 4 = 0 ∧ (2 ^ 20 - 4) % 4 = 0 ∧ 2 ^ 20 - 4 < 2 ^ 20 ∧ (2 ^ 21 - 4) % 4 = 0
    ∧ 2 ^ 21 - 4 < 2 ^ 21 ∧ (latched 0).busy = true ∧ 60 < (latched 0).symDepth
    ∧ 60 < (latched 0).payDepth ∧ (latched 0).symDepth ≤ 64 ∧ (latched 0).payDepth ≤ 64 := by decide

/-- `CommandsAfterReset`: after a soft and after a hardware reset. -/
theorem witness_CommandsAfterReset :
    (∃ r, r = busWrite 0x000008 1 (latched 0)) ∧ ∃ r, r = hardReset (latched 0) := ⟨⟨_, rfl⟩, _, rfl⟩

/-- `CountCountsOccurrences`, `CompressEncodesItsInput`, `CompressThenDecodeIsIdentity`: lengths 1 and
SYM_DEPTH. -/
theorem witness_CountCountsOccurrences :
    DepthsLegal small.symDepth small.payDepth ∧ 1 ≤ (withSym [0x78] small).symLen.toNat
    ∧ (withSym [0x78] small).symLen.toNat ≤ (withSym [0x78] small).symDepth
    ∧ 1 ≤ { small with symLen := 64 }.symLen.toNat
    ∧ { small with symLen := 64 }.symLen.toNat ≤ small.symDepth :=
  ⟨depthsLegal_small, by decide, by decide, by decide, by decide⟩

/-- `CountErrors`: SYM_LEN one above SYM_DEPTH, and 0. -/
theorem witness_CountErrors :
    small.symDepth < { small with symLen := 65 }.symLen.toNat ∧ small.symLen.toNat = 0 := by decide

/-- `CountDependsOnItsInputAlone`: two states alike in their input. -/
theorem witness_CountDependsOnItsInputAlone :
    let s := withSym [0x78] small
    let u := withCounts scenarioCounts s
    s.symLen = u.symLen ∧ s.symDepth = u.symDepth ∧ (∀ i, i < s.symLen.toNat → s.symByte i = u.symByte i)
    ∧ (∃ s', exec .count s = .next s') ∧ ∃ u', exec .count u = .next u' :=
  ⟨rfl, rfl, fun _ _ => rfl, ⟨_, rfl⟩, _, rfl⟩

/-- `BuildEmptyInput`. -/
theorem witness_BuildEmptyInput :
    (∀ b, atSymbol small.freq b = 0) ∧ (after .build small).errCode ≠ .none :=
  ⟨fun b => atSymbol_replicate b 0, by decide +kernel⟩

/-- `BuildWritesTheTree`, `BuildSeedsLeavesAscending`, `BuildMergesTheTwoLeast`: a tree of one leaf and a
tree with merges. -/
theorem witness_BuildWritesTheTree :
    (∃ b, atSymbol (withCounts [(0x78, 1)] small).freq b ≠ 0)
    ∧ ∃ b, atSymbol (withCounts scenarioCounts small).freq b ≠ 0 :=
  ⟨⟨0x78, by decide +kernel⟩, 0x61, by decide +kernel⟩

/-- `GenNeedsATree`. -/
theorem witness_GenNeedsATree : small.treeValid = false := rfl

/-- `GenDerivesTheCodes`, `GenTableIsAPrefixCode`: a tree with merges and a tree of one leaf. -/
theorem witness_GenDerivesTheCodes :
    (TreeOk scenarioTree ∧ scenarioTree.treeValid = true)
    ∧ TreeOk singleTree ∧ singleTree.treeValid = true :=
  ⟨⟨treeOk_of_count _ 0x61 (by decide +kernel), rfl⟩, treeOk_of_count _ 0x78 (by decide +kernel), rfl⟩

/-- `KraftInequality`, `TableCommitAccepts`: a full table and one with room left. -/
theorem witness_TableCommitAccepts :
    TableOk (withCodes scenarioCodes small).code ∧ TableOk (withCodes xCodes small).code :=
  ⟨tableOk_scenario, tableOk_x⟩

/-- `TableCommitRefuses`: the empty table, a proper prefix (V-T3) and equal codes (V-T4). -/
theorem witness_TableCommitRefuses :
    (∀ b, (atSymbol small.code b).len = 0)
    ∧ (let c := codeTable [(0x61, [false]), (0x62, [false, true])]
      (atSymbol c 0x61).len ≠ 0 ∧ (atSymbol c 0x62).len ≠ 0
      ∧ (atSymbol c 0x61).bits <+: (atSymbol c 0x62).bits)
    ∧ let c := codeTable [(0x61, [true, false]), (0x62, [true, false])]
      (atSymbol c 0x61).len ≠ 0 ∧ (atSymbol c 0x61).bits <+: (atSymbol c 0x62).bits := by
  refine ⟨fun b => ?_, by decide +kernel, by decide +kernel⟩
  simp [small, State.reset, CodeEntry.empty]

/-- `EncodeErrorsInOrder`: each check, at the first value that fails it. -/
theorem witness_EncodeErrorsInOrder :
    let s := withTable xCodes (withSym [0x78, 0x79] small)
    let u := withTable xCodes (withSym [0x78] small)
    small.tableValid = false
    ∧ (s.tableValid = true ∧ { s with symDepth := 1 }.symDepth < s.symLen.toNat)
    ∧ (withTable xCodes small).symLen.toNat = 0
    ∧ (s.symLen.toNat ≤ s.symDepth ∧ ∃ i, i < s.symLen.toNat ∧ (atSymbol s.code (s.symByte i)).len = 0)
    ∧ (u.tableValid = true ∧ u.symLen.toNat ≤ u.symDepth ∧ u.symLen.toNat ≠ 0
      ∧ (∀ i, i < u.symLen.toNat → (atSymbol u.code (u.symByte i)).len ≠ 0)
      ∧ { u with payDepth := 1 }.payDepth
        < 1 + ((codeString u.code (u.symBytes 0 u.symLen.toNat)).length + 7) / 8) := by
  refine ⟨rfl, ⟨rfl, by decide⟩, by decide, ⟨by decide, 1, by decide, by decide +kernel⟩, rfl, by decide,
    by decide, by decide +kernel, by decide +kernel⟩

/-- `EncodePacksThePayload`: V-E1, where the payload has six bytes. -/
theorem witness_EncodePacksThePayload :
    let s := { withTable scenarioCodes (withSym scenarioInput small) with payDepth := 6 }
    DepthsLegal s.symDepth s.payDepth ∧ s.tableValid = true ∧ 1 ≤ s.symLen.toNat ∧ s.symLen.toNat ≤ s.symDepth
    ∧ (∀ i, i < s.symLen.toNat → (atSymbol s.code (s.symByte i)).len ≠ 0)
    ∧ 1 + (((List.range s.symLen.toNat).flatMap fun i => (atSymbol s.code (s.symByte i)).bits).length + 7) / 8
      ≤ s.payDepth :=
  ⟨⟨by decide, by decide, by decide, by decide⟩, rfl, by decide, by decide, by decide +kernel, by decide +kernel⟩

/-- `DecodeHeaderErrorsInOrder`: each check (V-D6, V-D5, V-D8). -/
theorem witness_DecodeHeaderErrorsInOrder :
    let s := withTable xCodes (withPay [0x08, 0x00] small)
    let u := withTable xCodes (withPay [0x03] small)
    small.tableValid = false ∧ { s with payDepth := 1 }.payDepth < s.payLen.toNat
    ∧ (withTable xCodes small).payLen.toNat = 0
    ∧ (s.tableValid = true ∧ s.payLen.toNat ≤ s.payDepth ∧ s.payLen.toNat ≠ 0 ∧ 7 < (s.payByte 0).toNat)
    ∧ (u.payLen.toNat ≤ u.payDepth ∧ u.payLen.toNat ≠ 0 ∧ (u.payByte 0).toNat ≤ 7
      ∧ 8 * (u.payLen.toNat - 1) < (u.payByte 0).toNat) := by decide +kernel

/-- `DecodeEmitsTheCodes`: the three ends: all bits used (V-D15), a leftover (V-D17), one symbol too many
(V-D20 with SYM_DEPTH = 7). -/
theorem witness_DecodeEmitsTheCodes :
    let data (s : State) : Bits := (unpackMSB (s.payBytes 1 (s.payLen.toNat - 1))).take
      (8 * (s.payLen.toNat - 1) - (s.payByte 0).toNat)
    let s := withTable xCodes (withPay [0x00, 0x00] small)
    let u := withTable xCodes (withPay [0x00, 0x01] small)
    let S : List Byte := List.replicate 8 0x78
    let R : List Byte := List.replicate 7 0x78
    DepthsLegal s.symDepth s.payDepth ∧ s.tableValid = true ∧ TableOk s.code ∧ TableOk u.code
    ∧ (1 ≤ s.payLen.toNat ∧ s.payLen.toNat ≤ s.payDepth ∧ (s.payByte 0).toNat ≤ 7
      ∧ (s.payByte 0).toNat ≤ 8 * (s.payLen.toNat - 1))
    ∧ ((∀ b ∈ S, (atSymbol s.code b).hasCode = true) ∧ data s = codeString s.code S ++ []
      ∧ S.length ≤ s.symDepth)
    ∧ (data u = codeString u.code R ++ [true] ∧ R.length ≤ u.symDepth
      ∧ ∀ b, (atSymbol u.code b).hasCode = true → ¬ (atSymbol u.code b).bits <+: [true])
    ∧ S.length = { s with symDepth := 7 }.symDepth + 1 := by
  refine ⟨depthsLegal_small, rfl, tableOk_x, tableOk_x, by decide +kernel, by decide +kernel,
    ⟨by decide +kernel, by decide +kernel, ?_⟩, by decide⟩
  decide +kernel

/-- `EveryBitStringSplitsIntoCodes`. -/
theorem witness_EveryBitStringSplitsIntoCodes : TableOk (codeTable scenarioCodes) := tableOk_scenario

/-- `DecodeOfHeaderAlone`: V-D7. -/
theorem witness_DecodeOfHeaderAlone :
    let s := withTable xCodes (withPay [0x00] small)
    DepthsLegal s.symDepth s.payDepth ∧ s.tableValid = true ∧ s.payLen = 1 ∧ s.payByte 0 = 0x00 :=
  ⟨depthsLegal_small, rfl, rfl, by decide⟩

/-- `DecodeIgnoresPaddingBits`: V-D1 and V-D3. -/
theorem witness_DecodeIgnoresPaddingBits :
    let s := withTable scenarioCodes (withPay [0x07, 0xFF, 0xFC, 0x05, 0xB6, 0x00] small)
    let P := (withPay [0x07, 0xFF, 0xFC, 0x05, 0xB6, 0x7F] small).pay
    { s with pay := P }.payByte 0 = s.payByte 0
    ∧ (∀ q, q < 8 * (s.payLen.toNat - 1) - (s.payByte 0).toNat →
      ({ s with pay := P }.payByte (1 + q / 8)).getMsbD (q % 8) = (s.payByte (1 + q / 8)).getMsbD (q % 8))
    ∧ ∃ t, exec .decode s = .next t := by
  refine ⟨by decide, by decide +kernel, ?_⟩
  apply exec_answers
  exact ⟨depthsLegal_small, ⟨List.Pairwise.nil, by simp [withTable, withPay, small, State.reset]⟩,
    ⟨by decide, by decide⟩, fun h => (by cases h), fun _ => tableOk_scenario, fun _ => rfl⟩

/-- `CompressIsItsStages`: an end at COUNT, and a run through all four stages. -/
theorem witness_CompressIsItsStages :
    (after .count small).errCode ≠ .none
    ∧ (let s1 := after .count (withSym [0x78] small)
      let s2 := after .build s1
      let s3 := after .gen s2
      s1.errCode = .none ∧ s2.errCode = .none ∧ s3.errCode = .none) := by decide +kernel

/-- `CompressInputErrors`: SYM_LEN one above SYM_DEPTH, and 0. -/
theorem witness_CompressInputErrors :
    small.symDepth < { small with symLen := 65 }.symLen.toNat ∧ small.symLen.toNat = 0 := by decide

/-- `CompressEncodesItsInput`, `CompressThenDecodeIsIdentity`: a payload of two bytes (V-X1) where
PAY_DEPTH is 2, and a longer one (V-X4) that does not fit. -/
theorem witness_CompressThenDecodeIsIdentity :
    let s := { withSym [0x78] small with payDepth := 2 }
    let u := { withSym scenarioInput small with payDepth := 5 }
    DepthsLegal s.symDepth s.payDepth ∧ DepthsLegal u.symDepth u.payDepth
    ∧ (1 ≤ s.symLen.toNat ∧ s.symLen.toNat ≤ s.symDepth ∧ 1 ≤ u.symLen.toNat ∧ u.symLen.toNat ≤ u.symDepth)
    ∧ (∀ d, d = codeString (tableFor (s.symBytes 0 s.symLen.toNat)) (s.symBytes 0 s.symLen.toNat) →
      1 + (d.length + 7) / 8 ≤ s.payDepth)
    ∧ u.payDepth < 1 + ((codeString (tableFor (u.symBytes 0 u.symLen.toNat))
      (u.symBytes 0 u.symLen.toNat)).length + 7) / 8 := by
  refine ⟨⟨by decide, by decide, by decide, by decide⟩, ⟨by decide, by decide, by decide, by decide⟩, by decide,
    forall_eq.2 (by decide +kernel), by decide +kernel⟩

/-- `ValidityChangesOnlyAsListed`: each flag set and each cleared. -/
theorem witness_ValidityChangesOnlyAsListed :
    let built := { issue 2 (withCounts [(0x78, 1)] small) with agenda := [.engine] }
    let reset := { withTable xCodes small with treeValid := true, agenda := [.bus (.write 0x000008 1)] }
    let commit := issue 6 (withCodes xCodes small)
    let next (s : State) : Option State := match step s with
      | .next t => some t
      | _       => none
    (built.treeValid = false ∧ (next built).map (·.treeValid) = some true)
    ∧ (reset.treeValid = true ∧ (next reset).map (·.treeValid) = some false)
    ∧ (commit.tableValid = false ∧ (next commit).map (·.tableValid) = some true)
    ∧ reset.tableValid = true ∧ (next reset).map (·.tableValid) = some false := by decide +kernel

/-- `OverrunMarksABusyWrite`: V-N15. -/
theorem witness_OverrunMarksABusyWrite :
    let s := { latched 0 with agenda := [.bus (.write 0x00000C 1)] }
    s.overrun = false ∧ ∃ t, step s = .next t ∧ t.overrun = true := ⟨rfl, _, rfl, rfl⟩

/-- `WaitEnds`: idle and busy. -/
theorem witness_WaitEnds :
    { small with agenda := [.wait] }.agenda = .wait :: [] ∧ small.busy = false
    ∧ { latched 7 with agenda := [.wait] }.busy = true ∧ Inv { latched 7 with agenda := [.wait] } :=
  ⟨rfl, rfl, rfl, (inv_latched 7).agenda _⟩

end Sys2Proof.Machine.Tests
end

/-! SUPPORT. The family 10_state.md: what one step can do and that it keeps the invariant, what a transaction
does at each kind of target, what the words of STATUS and of the windows hold, and with these the statements
about the state. -/

namespace Sys2Proof.Machine

/-! ### What one step can do, as a relation of its two states -/

/-- The effect of one event that answers a next state (R90, R91): a read (a poll of a WAIT among them), a
write, a hardware reset, or the engine's step. -/
inductive StepEffect (s : State) : State → Prop where
  | read (a : Addr) (rest : List Event) : StepEffect s (busRead a { s with agenda := rest })
  | write {a : Addr} {d : Word} {rest : List Event} (hs : s.agenda = .bus (.write a d) :: rest) :
      StepEffect s (busWrite a d { s with agenda := rest })
  | hardReset {rest : List Event} (hs : s.agenda = .hardReset :: rest) :
      StepEffect s (hardReset { s with agenda := rest })
  | engine {u t : State} (hu : EngineNext s u) (ht : engineStep u = .next t) : StepEffect s t

theorem step_effect {s t : State} (h : step s = .next t) : StepEffect s t := by
  obtain ⟨ha, hs⟩ | ⟨x, rest, ha, hs⟩ | ⟨rest, ha, hs⟩ | ⟨rest, ha, hs⟩ | ⟨rest, ha, hs⟩ := step_cases s <;>
    rw [hs] at h
  case inl => exact .engine (.inl ⟨ha, rfl⟩) h
  case inr.inr.inr.inl => exact .engine (.inr ⟨rest, ha, rfl⟩) h
  all_goals cases h
  case inr.inl =>
    cases x with
    | read a => exact .read a rest
    | write a d => exact .write ha
  case inr.inr.inl => exact .read _ _
  case inr.inr.inr.inr => exact .hardReset ha

/-- The engine takes its step in a state that differs from the first in the agenda only. -/
theorem EngineNext.eq {s u : State} (h : EngineNext s u) : ∃ rest, u = { s with agenda := rest } := by
  obtain ⟨-, rfl⟩ | ⟨rest, -, rfl⟩ := h
  · exact ⟨u.agenda, rfl⟩
  · exact ⟨rest, rfl⟩

/-- What the engine's step answers: nothing done, an illegal word's record, or a command's end (R90, R242,
R262). -/
theorem engineStep_next {u t : State} (h : engineStep u = .next t) :
    t = u ∨ (∃ op, t = complete op .illegalCommand u)
    ∨ ∃ w i e v, u.pending = some w ∧ decode w = .ok i ∧ (bodyOf i u).result = some (e, v)
      ∧ t = complete i.opcode e v := by
  obtain ⟨-, he⟩ | ⟨w, r, -, -, he⟩ | ⟨w, i, hp, hd, he⟩ := engineStep_cases u <;> rw [he] at h
  · cases h; exact .inl rfl
  · cases h; exact .inr (.inl ⟨_, rfl⟩)
  · obtain ⟨e, v, hv, ht⟩ := (exec_next i u t).1 h
    exact .inr (.inr ⟨w, i, e, v, hp, hd, hv, ht⟩)

/-! ### The invariant -/

theorem engineStep_inv {u t : State} (h : Inv u) (ht : engineStep u = .next t) : Inv t := by
  obtain rfl | ⟨op, rfl⟩ | ⟨_, _, _, _, -, -, hv, rfl⟩ := engineStep_next ht
  · exact h
  · exact complete_inv h.data _ _
  · exact complete_inv (bodyOf_dataInv h.data hv) _ _

/-- Settles O56: each of the four kinds of event keeps the invariant. -/
theorem everyStepKeepsTheInvariant : Obligations.EveryStepKeepsTheInvariant := by
  intro s t h hst
  cases step_effect hst with
  | read a rest => exact busRead_inv (h.agenda rest) a
  | write _ => exact busWrite_inv (h.agenda _) _ _
  | hardReset _ => exact hardReset_inv (h.agenda _)
  | engine hu ht =>
    obtain ⟨rest, rfl⟩ := hu.eq
    exact engineStep_inv (h.agenda rest) ht

/-- Where the data invariant holds, a step answers a next state (R306). -/
theorem step_answers {s : State} (h : Inv s) : ∃ t, step s = .next t := by
  obtain ⟨-, hs⟩ | ⟨_, _, -, hs⟩ | ⟨_, -, hs⟩ | ⟨rest, -, hs⟩ | ⟨_, -, hs⟩ := step_cases s
  case inl =>
    obtain ⟨u, hu, -⟩ := engineStep_ends h.data
    exact ⟨u, hs.trans hu⟩
  case inr.inr.inr.inl =>
    obtain ⟨u, hu, -⟩ := engineStep_ends (h.agenda rest).data
    exact ⟨u, hs.trans hu⟩
  all_goals exact ⟨_, hs⟩

/-- Settles O57: a step answers, and what it answers keeps the invariant by O56. -/
theorem noStopWhereTheInvariantHolds : Obligations.NoStopWhereTheInvariantHolds := by
  intro s h
  obtain ⟨t, ht⟩ := step_answers h
  exact ⟨t, ht, everyStepKeepsTheInvariant s t h ht⟩

/-- Settles O55: no flag is set and both buffers are empty. -/
theorem invariantAtReset : Obligations.InvariantAtReset where
  data :=
    { depths := ⟨by decide, by decide, by decide, by decide⟩
      symWf := ⟨List.Pairwise.nil, fun _ hc => by cases hc⟩
      payWf := ⟨List.Pairwise.nil, fun _ hc => by cases hc⟩
      tree := fun hv => by cases hv
      table := fun hv => by cases hv
      maxLen := fun hv => by cases hv }
  errFlag := rfl
  latched := fun hb => by cases hb

/-! ### What a transaction does at each kind of target -/

theorem busRead_idle {s : State} (hb : s.busy = false) (a : Addr) :
    busRead a s = { s with readData := s.targetWord (target a) } := by
  rw [busRead, hb]; rfl

theorem busWrite_idle {s : State} (hb : s.busy = false) (a : Addr) (d : Word) :
    busWrite a d s = idleWrite (target a) d s := by
  rw [busWrite, hb]; rfl

theorem busRead_reg_idle {s : State} (hb : s.busy = false) (r : Reg) :
    busRead r.addr s = { s with readData := s.regWord r } := by
  rw [busRead_idle hb, target_reg, State.targetWord]

theorem busWrite_reg_idle {s : State} (hb : s.busy = false) (r : Reg) (d : Word) :
    busWrite r.addr d s = idleWrite (.reg r) d s := by
  rw [busWrite_idle hb, target_reg]

/-- The targets that read the same busy or not: constants, CTRL and reserved addresses (R93). -/
def Target.readsAlways : Target → Bool
  | .reg .id | .reg .version | .reg .ctrl | .reg .symDepth | .reg .payDepth | .reserved => true
  | _ => false

theorem busRead_readsAlways {a : Addr} (h : (target a).readsAlways = true) (s : State) :
    busRead a s = { s with readData := s.targetWord (target a) } := by
  by_cases hb : s.busy = true
  · rw [busRead, if_pos hb]
    revert h
    cases target a with
    | reg r => cases r <;> simp [Target.readsAlways, busyRead, returnWord]
    | reserved => exact fun _ => rfl
    | freq _ | code _ _ | node _ _ | sym _ | pay _ => exact nofun
  · exact busRead_idle (by simpa using hb) a

theorem busRead_reg_readsAlways {r : Reg} (h : (Target.reg r).readsAlways = true) (s : State) :
    busRead r.addr s = { s with readData := s.regWord r } := by
  rw [busRead_readsAlways (by rwa [target_reg]), target_reg, State.targetWord]

/-- The targets no write acts on: read-only registers, the NODE window and reserved addresses (R33, R51, R83,
R92). -/
def Target.ignoresWrites : Target → Bool
  | .reg .ctrl | .reg .cmd | .reg .status | .reg .symLen | .reg .payLen => false
  | .reg _ | .node _ _ | .reserved => true
  | _ => false

theorem busWrite_ignoresWrites {a : Addr} (h : (target a).ignoresWrites = true) (d : Word) (s : State) :
    busWrite a d s = s := by
  rw [busWrite]
  revert h
  cases target a with
  | reg r => cases r <;> simp [Target.ignoresWrites, busyWrite, idleWrite]
  | node _ _ | reserved => exact fun _ => ite_self s
  | freq _ | code _ _ | sym _ | pay _ => exact nofun

theorem busWrite_reg_ignoresWrites {r : Reg} (h : (Target.reg r).ignoresWrites = true) (d : Word)
    (s : State) : busWrite r.addr d s = s :=
  busWrite_ignoresWrites (by rwa [target_reg]) d s

/-- A STATUS write acts alike busy or not (R39, R92). -/
theorem busWrite_status {a : Addr} (h : target a = .reg .status) (d : Word) (s : State) :
    busWrite a d s = clearStatus d s := by
  rw [busWrite, h]
  exact ite_self _

/-- A CTRL write acts alike busy or not (R36, R92). -/
theorem busWrite_ctrl {a : Addr} (h : target a = .reg .ctrl) (d : Word) (s : State) :
    busWrite a d s = writeCtrl d s := by
  rw [busWrite, h]
  exact ite_self _

theorem target_reserved {a : Addr} (h : ReservedAddress a) : target a = .reserved := by
  simp only [target, wordAddress_eq]
  obtain ⟨_, _⟩ | ⟨_, _⟩ | ⟨_, _⟩ | _ := h
  · rw [if_neg (by omega), if_pos (by omega)]
  · iterate 3 rw [if_neg (by omega)]
    rw [if_pos (by omega)]
  · iterate 6 rw [if_neg (by omega)]
    rw [if_pos (by omega)]
  · iterate 9 rw [if_neg (by omega)]

/-- No write changes a parameter (R48). -/
theorem busWrite_depths (a : Addr) (d : Word) (s : State) :
    (busWrite a d s).symDepth = s.symDepth ∧ (busWrite a d s).payDepth = s.payDepth := by
  obtain hw | hw | hw | ⟨_, hw, -⟩ | ⟨-, hw | hw | hw | ⟨_, hw⟩ | ⟨_, _, hw⟩ | ⟨_, hw⟩ | ⟨_, hw⟩⟩ :=
    busWrite_cases a d s <;> rw [hw] <;> exact ⟨rfl, rfl⟩

/-! ### Reserved addresses, read-only words, STATUS and CTRL writes -/

/-- Settles O14: a reserved target reads 0 and ignores writes in every state. -/
theorem reservedReadsZeroIgnoresWrites : Obligations.ReservedReadsZeroIgnoresWrites := by
  intro a d s h
  have ht := target_reserved h
  have hr := busRead_readsAlways (by rw [ht]; rfl) s
  rw [ht] at hr
  exact ⟨hr, busWrite_ignoresWrites (by rw [ht]; rfl) d s⟩

/-- Settles O15: the law of bit 0 of a STATUS read. -/
theorem busyBitIsPending : Obligations.BusyBitIsPending := busRead_status_bit0

/-- Settles O18: the write is `clearStatus` in every state. -/
theorem statusWriteClears : Obligations.StatusWriteClears := fun s d =>
  ⟨busWrite_status (target_reg .status) d s, busRead_effect _ s⟩

/-- Settles O19: CTRL reads and writes alike busy or not, and bit 0 selects the soft reset. -/
theorem ctrlWriteSoftResets : Obligations.CtrlWriteSoftResets := by
  intro s d
  have hw : busWrite Reg.ctrl.addr d s = writeCtrl d s := busWrite_ctrl (target_reg .ctrl) d s
  refine ⟨busRead_reg_readsAlways (r := .ctrl) rfl s, fun hd => hw.trans ?_, fun hd => hw.trans ?_⟩
  · exact if_neg (by rw [hd]; decide)
  · exact if_pos hd

/-- Settles O20: each address is that of a register, or a word of NODE, that ignores writes. -/
theorem readOnlyIgnoresWrites : Obligations.ReadOnlyIgnoresWrites := by
  intro s d
  constructor
  · have hw (r : Reg) (h : (Target.reg r).ignoresWrites = true) := busWrite_reg_ignoresWrites h d s
    simp only [List.mem_cons, List.not_mem_nil, or_false, forall_eq_or_imp, forall_eq]
    exact ⟨hw .bitLen rfl, hw .pad rfl, hw .leafCount rfl, hw .nodeCount rfl, hw .rootWeightLo rfl,
      hw .rootWeightHi rfl, hw .maxLen rfl⟩
  · intro i k hi hk
    exact busWrite_ignoresWrites (by rw [target_node i k hi hk]; rfl) d s

/-! ### STATUS (R38) -/

theorem flagBit_getLsbD (b : Bool) (i : Nat) {j : Nat} (hj : j < 32) :
    (flagBit b i).getLsbD j = (b && decide (j = i)) := by
  cases b with
  | false => simp [flagBit]
  | true =>
    have hbit : (flagBit true i).getLsbD j = (decide (j < 32) && (1 <<< i).testBit j) :=
      BitVec.getLsbD_ofNat 32 (1 <<< i) j
    rw [hbit, Nat.one_shiftLeft, Nat.testBit_two_pow]
    simp [hj, eq_comm]

/-- The bits of STATUS. -/
theorem State.statusWord_getLsbD (s : State) {j : Nat} (hj : j < 32) : s.statusWord.getLsbD j =
    (s.busy && decide (j = 0) || s.done && decide (j = 1) || s.error && decide (j = 2)
      || s.overrun && decide (j = 3) || s.treeValid && decide (j = 4) || s.tableValid && decide (j = 5)
      || decide (8 ≤ j) && s.errCode.code.getLsbD (j - 8)
      || decide (16 ≤ j) && s.lastOp.getLsbD (j - 16)) := by
  have h8 : j - 8 < 32 := by omega
  have h16 : j - 16 < 32 := by omega
  have hle : ∀ n, (!decide (j < n)) = decide (n ≤ j) := fun n => by
    simp only [← decide_not, Nat.not_lt]
  simp only [State.statusWord, BitVec.getLsbD_or, BitVec.getLsbD_shiftLeft, BitVec.getLsbD_setWidth,
    flagBit_getLsbD _ _ hj, hj, h8, h16, hle, decide_true, Bool.true_and]

/-- Above the flags, a field of STATUS is made of the bits of ERR_CODE and LAST_OP. -/
theorem State.statusWord_field (s : State) {i n : Nat} {v : BitVec n} (hi : 6 ≤ i) (hn : i + n ≤ 32)
    (h : ∀ j, j < n → (decide (8 ≤ i + j) && s.errCode.code.getLsbD (i + j - 8)
      || decide (16 ≤ i + j) && s.lastOp.getLsbD (i + j - 16)) = v.getLsbD j) :
    s.statusWord.extractLsb' i n = v := by
  refine BitVec.eq_of_getLsbD_eq fun j hj => ?_
  have hflag : ∀ k, k < 6 → decide (i + j = k) = false := fun k hk => decide_eq_false (by omega)
  rw [BitVec.getLsbD_extractLsb', s.statusWord_getLsbD (by omega), ← h j hj, decide_eq_true hj,
    hflag 0 (by decide), hflag 1 (by decide), hflag 2 (by decide), hflag 3 (by decide), hflag 4 (by decide),
    hflag 5 (by decide)]
  simp only [Bool.and_false, Bool.false_or, Bool.true_and]

/-- After a reset STATUS reads 0 (R60). -/
theorem hardReset_statusWord (s : State) : (hardReset s).statusWord = 0 := by
  refine BitVec.eq_of_getLsbD_eq fun j hj => ?_
  rw [State.statusWord_getLsbD _ hj]
  simp [State.busy, ErrCode.code]

/-- Settles O10: the flags bit by bit, and then the four fields above them. -/
theorem statusReadsItsFields : Obligations.StatusReadsItsFields := by
  refine ⟨fun s hb => ⟨s.statusWord, busRead_reg_idle hb .status, ?_⟩, rfl⟩
  have hbit {j : Nat} (hj : j < 6) := s.statusWord_getLsbD (j := j) (by omega)
  rw [hb] at hbit
  have herr : ∀ j, 8 ≤ j → s.errCode.code.getLsbD j = false := fun j => BitVec.getLsbD_of_ge _ _
  have hop : ∀ j, 8 ≤ j → s.lastOp.getLsbD j = false := fun j => BitVec.getLsbD_of_ge _ _
  refine ⟨(hbit (by decide)).trans ?_, (hbit (by decide)).trans ?_, (hbit (by decide)).trans ?_,
    (hbit (by decide)).trans ?_, (hbit (by decide)).trans ?_, (hbit (by decide)).trans ?_,
    s.statusWord_field (by decide) (by decide) fun j hj => ?_,
    s.statusWord_field (by decide) (by decide) fun j hj => ?_,
    s.statusWord_field (by decide) (by decide) fun j hj => ?_,
    s.statusWord_field (by decide) (by decide) fun j hj => ?_⟩
  case refine_7 => rw [decide_eq_false (by omega), decide_eq_false (by omega)]; simp
  case refine_8 => rw [decide_eq_false (p := 16 ≤ 8 + j) (by omega)]; simp
  case refine_9 => rw [herr _ (by omega)]; simp
  case refine_10 => rw [herr _ (by omega), hop _ (by omega)]; simp
  all_goals simp

/-! ### The other registers (R36, R37, R40 to R47) -/

/-- ROOT_WEIGHT_LO (R46). -/
theorem weight_low (w : Weight) : w.extractLsb' 0 32 = BitVec.ofNat 32 (w.toNat % 2 ^ 32) :=
  BitVec.eq_of_toNat_eq (by simp)

/-- ROOT_WEIGHT_HI (R46). -/
theorem weight_high (w : Weight) :
    (w.extractLsb' 32 8).setWidth 32 = BitVec.ofNat 32 (w.toNat / 2 ^ 32) := by
  have := w.isLt
  apply BitVec.eq_of_toNat_eq
  simp only [BitVec.toNat_setWidth, BitVec.extractLsb'_toNat, Nat.shiftRight_eq_div_pow,
    BitVec.toNat_ofNat]
  omega

/-- Settles O11: register by register. -/
theorem registersReadTheirState : Obligations.RegistersReadTheirState := by
  intro s hb
  have hread := busRead_reg_idle hb
  exact ⟨hread .ctrl, hread .cmd, hread .symLen, hread .payLen, hread .bitLen, hread .pad, hread .leafCount,
    hread .nodeCount, weight_low _ ▸ hread .rootWeightLo, weight_high _ ▸ hread .rootWeightHi, hread .maxLen,
    fun d => ⟨busWrite_reg_idle hb .symLen d, busWrite_reg_idle hb .payLen d⟩⟩

/-! ### FREQ and CODE (R50, R52) -/

/-- Settles O21: the window's word is the symbol's entry of FREQ. -/
theorem freqWindowHoldsCounts : Obligations.FreqWindowHoldsCounts := by
  intro s b d hb
  refine ⟨by rw [busRead_idle hb, target_freq, State.targetWord], setSymbol s.freq b d, ?_,
    atSymbol_setSymbol_same _ _ _, fun c hc => atSymbol_setSymbol_ne _ _ _ _ hc⟩
  rw [busWrite_idle hb, target_freq, idleWrite]

theorem busRead_code_idle {s : State} (hb : s.busy = false) (b : Byte) {k : Nat} (hk : k < 16) :
    busRead (codeAddr b k) s = { s with readData := (atSymbol s.code b).word k } := by
  rw [busRead_idle hb, target_code b k hk, State.targetWord]

theorem busWrite_code_idle {s : State} (hb : s.busy = false) (b : Byte) {k : Nat} (hk : k < 16) (d : Word) :
    busWrite (codeAddr b k) d s = writeCode b k d s := by
  rw [busWrite_idle hb, target_code b k hk, idleWrite]

/-- An unused word of an entry reads 0 (R49). -/
theorem CodeEntry.word_unused (e : CodeEntry) {k : Nat} (hk : 9 ≤ k) : e.word k = 0 := by
  rw [CodeEntry.word, if_neg (by omega), if_neg (by omega)]

/-- Settles O22: the write is `writeCode`, and reading back is the law of an entry's words. -/
theorem codeWindowStoresAndInvalidates : Obligations.CodeWindowStoresAndInvalidates := by
  intro s b k d hb hk
  have hw := busWrite_code_idle hb b hk d
  have hb' : (writeCode b k d s).busy = false := hb
  refine ⟨_, hw, fun e he => atSymbol_setSymbol_ne _ _ _ _ he, fun l hl => ⟨?_, fun h9 => ?_⟩⟩
  · rw [hw, busRead_code_idle hb' b hl, busRead_code_idle hb b hl]
    simp only [writeCode_code, atSymbol_setSymbol_same]
    exact CodeEntry.word_setWord _ k l d
  · rw [busRead_code_idle hb b hl, CodeEntry.word_unused _ h9]

/-- Code bit `c_i` is field bit `255 − i`, for `i < len` (R52). -/
theorem CodeEntry.getMsbD_of_bits {e : CodeEntry} {i : Nat} {x : Bool} (h : e.bits[i]? = some x) :
    i < e.len.toNat ∧ e.field.getMsbD i = x := by
  simpa [CodeEntry.bits, List.getElem?_eq_some_iff] using h

/-- Settles O23: a code's bit is a bit of the field, and that a bit of its BITS word. -/
theorem codeBitsAreLeftAligned : Obligations.CodeBitsAreLeftAligned := by
  intro s b hb
  have hlen := (atSymbol s.code b).len.isLt
  refine ⟨?_, fun i x hx => ?_⟩
  · rw [busRead_code_idle hb b (by decide), CodeEntry.length_bits]
    simp only [CodeEntry.word, if_true, BitVec.toNat_setWidth]
    omega
  · obtain ⟨hi, hx⟩ := CodeEntry.getMsbD_of_bits hx
    rw [busRead_code_idle hb b (by omega), CodeEntry.word_bit _ i (by omega), hx]

/-! ### NODE (R51) -/

theorem busRead_node_idle {s : State} (hb : s.busy = false) {i : Nat} {n : Node} (hn : s.nodeAt i = some n)
    {k : Nat} (hk : k < 4) : busRead (nodeAddr i k) s = { s with readData := n.word k } := by
  have hi : i < 511 := (Vector.getElem?_eq_some_iff.1 hn).1
  rw [busRead_idle hb, target_node i k hi hk, State.targetWord, hn]

/-- The fields of W0. -/
theorem Node.word_zero_fields (n : Node) : (n.word 0).getLsbD 31 = n.isLeaf
    ∧ (n.word 0).extractLsb' 8 23 = 0 ∧ (n.word 0).extractLsb' 0 8 = n.sym := by
  have hbit (j : Nat) (hj : j < 32) :
      (n.word 0).getLsbD j = (n.isLeaf && decide (j = 31) || n.sym.getLsbD j) := by
    rw [Node.word, BitVec.getLsbD_or, flagBit_getLsbD _ _ hj, BitVec.getLsbD_setWidth, decide_eq_true hj,
      Bool.true_and]
  have hsym (j : Nat) (hj : 8 ≤ j) : n.sym.getLsbD j = false := BitVec.getLsbD_of_ge _ _ hj
  refine ⟨?_, BitVec.eq_of_getLsbD_eq fun j hj => ?_, BitVec.eq_of_getLsbD_eq fun j hj => ?_⟩
  · rw [hbit 31 (by decide), hsym 31 (by decide)]; simp
  · rw [BitVec.getLsbD_extractLsb', hbit _ (by omega), hsym _ (by omega),
      decide_eq_false (p := 8 + j = 31) (by omega)]
    simp
  · rw [BitVec.getLsbD_extractLsb', hbit _ (by omega), decide_eq_false (p := 0 + j = 31) (by omega)]
    simp [hj]

/-- W1 and W2 are the low 32 and the high 8 bits of the weight. -/
theorem Node.word_weight (n : Node) : (n.word 1).toNat + 2 ^ 32 * (n.word 2).toNat = n.weight.toNat := by
  have := n.weight.isLt
  simp only [Node.word, BitVec.extractLsb'_toNat, BitVec.toNat_setWidth, Nat.shiftRight_eq_div_pow]
  omega

/-- W3 as a number. -/
theorem Node.word_three_toNat (n : Node) : (n.word 3).toNat = 2 ^ 16 * n.left.toNat + n.right.toNat := by
  have hl := n.left.isLt
  have hr := n.right.isLt
  have hor := Nat.two_pow_add_eq_or_of_lt (i := 16) (b := n.right.toNat) (by omega) n.left.toNat
  rw [hor, Node.word, BitVec.toNat_or, BitVec.toNat_shiftLeft, BitVec.toNat_setWidth_of_le (by decide),
    BitVec.toNat_setWidth_of_le (by decide), Nat.shiftLeft_eq, Nat.mul_comm,
    Nat.mod_eq_of_lt (by omega)]

/-- The fields of W3. -/
theorem Node.word_three_fields (n : Node) : (n.word 3).extractLsb' 16 9 = n.left
    ∧ (n.word 3).extractLsb' 0 9 = n.right ∧ (n.word 3).extractLsb' 25 7 = 0
    ∧ (n.word 3).extractLsb' 9 7 = 0 := by
  have hl := n.left.isLt
  have hr := n.right.isLt
  refine ⟨?_, ?_, ?_, ?_⟩ <;> apply BitVec.eq_of_toNat_eq <;>
    simp only [BitVec.extractLsb'_toNat, n.word_three_toNat, Nat.shiftRight_eq_div_pow,
      BitVec.ofNat_eq_ofNat, BitVec.toNat_ofNat] <;>
    omega

/-- Settles O24: the four words and their fields. -/
theorem nodeWindowShowsEntries : Obligations.NodeWindowShowsEntries := by
  intro s i n hb hn
  obtain ⟨hleaf, hzero, hsym⟩ := n.word_zero_fields
  have hread {k : Nat} (hk : k < 4) := busRead_node_idle hb hn hk
  exact ⟨n.word 0, n.word 1, n.word 2, n.word 3, hread (by decide), hleaf, hzero, hsym, hread (by decide),
    hread (by decide), n.word_weight, hread (by decide), n.word_three_fields⟩

/-! ### SYM and PAY (R54, R55, R57, R85) -/

/-- Lane `k` of a window word is bits `8k` to `8k+7`. -/
theorem laneWord_lane (lane : Nat → Byte) {k : Nat} (hk : k < 4) :
    (laneWord (lane 0) (lane 1) (lane 2) (lane 3)).extractLsb' (8 * k) 8 = lane k := by
  unfold laneWord
  match k, hk with
  | 0, _ => exact BitVec.extractLsb'_append_eq_right
  | 1, _ =>
    rw [BitVec.extractLsb'_append_eq_of_le (by decide)]
    exact BitVec.extractLsb'_append_eq_right
  | 2, _ =>
    rw [BitVec.extractLsb'_append_eq_of_le (by decide), BitVec.extractLsb'_append_eq_of_le (by decide)]
    exact BitVec.extractLsb'_append_eq_right
  | 3, _ =>
    rw [BitVec.extractLsb'_append_eq_of_le (by decide), BitVec.extractLsb'_append_eq_of_le (by decide)]
    exact BitVec.extractLsb'_append_eq_left

/-- A byte read back after the write of a window word; `drawn` is what the buffer holds where nothing is
written. -/
theorem getD_lookup_storeWord (depth j : Nat) (d : Word) (m : Memory) (drawn : Byte) (i : Nat) :
    ((storeWord depth j d m).lookup i).getD drawn
      = if j ≤ i ∧ i < j + 4 ∧ i < depth then d.extractLsb' (8 * (i - j)) 8
        else (m.lookup i).getD drawn := by
  rw [lookup_storeWord, apply_ite (Option.getD · drawn)]
  rfl

/-- Settles O25: the window's word is made of lanes, and its write reaches the lanes below SYM_DEPTH. -/
theorem symWindowLanes : Obligations.SymWindowLanes := by
  intro s j d hb h4 hj
  have ht := target_sym j h4 hj
  have hw : busWrite (symAddr j) d s = { s with sym := storeWord s.symDepth j d s.sym } := by
    rw [busWrite_idle hb, ht, idleWrite]
  refine ⟨⟨s.targetWord (.sym j), by rw [busRead_idle hb, ht],
    fun k hk => laneWord_lane (fun k => s.symLane (j + k)) hk⟩, _, hw, fun i => ?_⟩
  rw [hw]
  exact getD_lookup_storeWord _ _ _ _ _ _

/-- Settles O26: as O25, with PAY_DEPTH. -/
theorem payWindowLanes : Obligations.PayWindowLanes := by
  intro s j d hb h4 hj
  have ht := target_pay j h4 hj
  have hw : busWrite (payAddr j) d s = { s with pay := storeWord s.payDepth j d s.pay } := by
    rw [busWrite_idle hb, ht, idleWrite]
  refine ⟨⟨s.targetWord (.pay j), by rw [busRead_idle hb, ht],
    fun k hk => laneWord_lane (fun k => s.payLane (j + k)) hk⟩, _, hw, fun i => ?_⟩
  rw [hw]
  exact getD_lookup_storeWord _ _ _ _ _ _

/-! ### The parameters and hardware reset (R48, R60) -/

/-- No step changes a parameter. -/
theorem step_depths {s t : State} (h : step s = .next t) :
    t.symDepth = s.symDepth ∧ t.payDepth = s.payDepth := by
  cases step_effect h with
  | @read a rest =>
    obtain ⟨w, n, hr⟩ := busRead_effect a { s with agenda := rest }
    rw [hr]
    exact ⟨rfl, rfl⟩
  | write _ => exact busWrite_depths _ _ _
  | hardReset _ => exact ⟨rfl, rfl⟩
  | engine hu ht =>
    obtain ⟨rest, rfl⟩ := hu.eq
    obtain rfl | ⟨_, rfl⟩ | ⟨_, _, _, _, -, -, hv, rfl⟩ := engineStep_next ht
    · exact ⟨rfl, rfl⟩
    · exact ⟨rfl, rfl⟩
    · exact ⟨(bodyOf_keeps hv).symDepth, (bodyOf_keeps hv).payDepth⟩

/-- Settles O9: the four registers read alike and ignore writes in every state. -/
theorem constantsNeverChange : Obligations.ConstantsNeverChange := by
  intro s
  have hr (r : Reg) (h : (Target.reg r).readsAlways = true) := busRead_reg_readsAlways h s
  have hw (r : Reg) (h : (Target.reg r).ignoresWrites = true) := busWrite_reg_ignoresWrites (s := s) h
  exact ⟨hr .id rfl, hr .version rfl, hr .symDepth rfl, hr .payDepth rfl,
    fun d => ⟨hw .id rfl d, hw .version rfl d, hw .symDepth rfl d, hw .payDepth rfl d⟩,
    fun _ => step_depths⟩

theorem step_hardReset {s : State} {rest : List Event} (h : s.agenda = .hardReset :: rest) :
    step s = .next (hardReset { s with agenda := rest }) := by
  rw [step, nextEvent, h]

/-- Settles O28: the values of `hardReset`, an unwritten byte being the free value of its reset. -/
theorem hardwareResetValues : Obligations.HardwareResetValues := by
  intro s rest h
  refine ⟨_, step_hardReset h, rfl, hardReset_statusWord _, rfl, rfl, rfl, rfl, rfl, rfl, rfl, rfl, rfl, rfl,
    fun b => atSymbol_replicate b _, fun i hi => ?_, fun b => atSymbol_replicate b _, rfl, rfl, rfl, rfl,
    fun _ => rfl, fun _ => rfl⟩
  exact (Vector.getElem?_eq_some_iff).2 ⟨hi, Vector.getElem_replicate hi⟩

/-! ### Which steps change TREE_VALID and TABLE_VALID (R61) -/

/-- Both validity flags are as before. -/
def SameFlags (s u : State) : Prop := u.treeValid = s.treeValid ∧ u.tableValid = s.tableValid

/-- Neither validity flag is cleared. -/
def FlagsRise (s u : State) : Prop := s.treeValid ≤ u.treeValid ∧ s.tableValid ≤ u.tableValid

theorem SameFlags.rise {s u : State} (h : SameFlags s u) : FlagsRise s u := ⟨h.1.ge, h.2.ge⟩

theorem FlagsRise.trans {s u v : State} (h : FlagsRise s u) (k : FlagsRise u v) : FlagsRise s v :=
  ⟨h.1.trans k.1, h.2.trans k.2⟩

theorem busRead_flags (a : Addr) (s : State) : SameFlags s (busRead a s) := by
  obtain ⟨w, n, hr⟩ := busRead_effect a s
  rw [hr]
  exact ⟨rfl, rfl⟩

theorem idleWrite_flags {t : Target} (hctrl : t ≠ .reg .ctrl) (hcode : ∀ b k, t ≠ .code b k) (d : Word)
    (s : State) : SameFlags s (idleWrite t d s) := by
  unfold idleWrite
  split
  case h_1 => exact absurd rfl hctrl
  case h_7 => exact absurd rfl (hcode _ _)
  all_goals exact ⟨rfl, rfl⟩

theorem busyWindowWrite_flags (w : Nat) (t : Target) (s : State) : SameFlags s (busyWindowWrite w t s) := by
  unfold busyWindowWrite
  split <;> exact ⟨rfl, rfl⟩

theorem busyWrite_flags {t : Target} (hctrl : t ≠ .reg .ctrl) (w : Nat) (d : Word) (s : State) :
    SameFlags s (busyWrite w t d s) := by
  unfold busyWrite
  split
  case h_1 => exact absurd rfl hctrl
  case h_7 | h_8 | h_9 => exact busyWindowWrite_flags _ _ _
  all_goals exact ⟨rfl, rfl⟩

/-- What a write does to the flags: a soft reset clears both, an idle write into the CODE window clears
TABLE_VALID, and any other write keeps both (R36, R52, R61). -/
theorem busWrite_flags (a : Addr) (d : Word) (s : State) :
    SameFlags s (busWrite a d s)
    ∨ (target a = .reg .ctrl ∧ d.getLsbD 0 = true ∧ busWrite a d s = softReset s)
    ∨ ∃ b k, target a = .code b k ∧ s.busy = false ∧ busWrite a d s = writeCode b k d s := by
  by_cases hctrl : target a = .reg .ctrl
  · rw [busWrite_ctrl hctrl, writeCtrl]
    by_cases hd : d.getLsbD 0 = true
    · exact .inr (.inl ⟨hctrl, hd, if_pos hd⟩)
    · rw [if_neg hd]
      exact .inl ⟨rfl, rfl⟩
  rw [busWrite]
  by_cases hb : s.busy = true
  · rw [if_pos hb]
    exact .inl (busyWrite_flags hctrl _ _ _)
  rw [if_neg hb]
  by_cases hcode : ∃ b k, target a = .code b k
  · obtain ⟨b, k, hbk⟩ := hcode
    rw [hbk]
    exact .inr (.inr ⟨b, k, rfl, by simpa using hb, rfl⟩)
  · exact .inl (idleWrite_flags hctrl (fun b k h => hcode ⟨b, k, h⟩) _ _)

theorem countBody_flags {s u : State} {e : ErrCode} (h : (countBody s).result = some (e, u)) :
    SameFlags s u := by
  obtain ⟨-, hb⟩ | ⟨-, -, hb⟩ | ⟨-, -, hb⟩ := countBody_cases s <;> rw [hb] at h <;> cases h <;>
    exact ⟨rfl, rfl⟩

theorem encodeBody_flags {s u : State} {e : ErrCode} (h : (encodeBody s).result = some (e, u)) :
    SameFlags s u := by
  obtain ⟨-, hb⟩ | ⟨-, -, hb⟩ | ⟨-, -, -, hb⟩ | ⟨-, -, -, -, hb⟩ | ⟨-, -, -, -, ⟨-, hb⟩ | ⟨-, hb⟩⟩ :=
    encodeBody_cases s <;> rw [hb] at h <;> cases h <;> exact ⟨rfl, rfl⟩

theorem decodeBody_flags {s u : State} {e : ErrCode} (h : (decodeBody s).result = some (e, u)) :
    SameFlags s u := by
  obtain ⟨-, hb⟩ | ⟨-, -, hb⟩ | ⟨-, -, -, hb⟩ | ⟨-, -, -, -, -, hb⟩ := decodeBody_cases s <;> rw [hb] at h
  case inr.inr.inr =>
    obtain ⟨w, out, -, -, ⟨-, hd⟩ | ⟨-, hd⟩ | ⟨-, hd⟩⟩ :=
      decodeWalk_cases s (s.payByte 0).toNat (decodeData s) <;> rw [hd] at h <;> cases h <;>
      exact ⟨rfl, rfl⟩
  all_goals cases h; exact ⟨rfl, rfl⟩

/-- BUILD sets TREE_VALID or raises (R160, R168). -/
theorem buildBody_flags {s u : State} {e : ErrCode} (h : (buildBody s).result = some (e, u)) :
    SameFlags s u ∨ (e = .none ∧ u.treeValid = true ∧ u.tableValid = s.tableValid) := by
  obtain ⟨-, hb⟩ | ⟨-, hb⟩ := buildBody_cases s <;> rw [hb] at h <;> cases h
  · exact .inl ⟨rfl, rfl⟩
  · exact .inr ⟨rfl, rfl, rfl⟩

/-- GEN sets TABLE_VALID or raises (R180, R185). -/
theorem genBody_flags {s u : State} {e : ErrCode} (h : (genBody s).result = some (e, u)) :
    SameFlags s u ∨ (e = .none ∧ u.treeValid = s.treeValid ∧ u.tableValid = true) := by
  obtain ⟨-, hb⟩ | ⟨-, -, hb⟩ | ⟨_, -, -, hb⟩ := genBody_cases s <;> rw [hb] at h <;> cases h
  · exact .inl ⟨rfl, rfl⟩
  · exact .inr ⟨rfl, rfl, rfl⟩

/-- TABLE_COMMIT sets TABLE_VALID, or clears it with TABLE_FORMAT (R190, R193). -/
theorem tableCommitBody_flags {s u : State} {e : ErrCode}
    (h : (tableCommitBody s).result = some (e, u)) : u.treeValid = s.treeValid
      ∧ ((e = .tableFormat ∧ u.tableValid = false) ∨ (e = .none ∧ u.tableValid = true)) := by
  obtain ⟨-, hb⟩ | ⟨-, hb⟩ := tableCommitBody_cases s <;> rw [hb] at h <;> cases h
  · exact ⟨rfl, .inl ⟨rfl, rfl⟩⟩
  · exact ⟨rfl, .inr ⟨rfl, rfl⟩⟩

/-- A body that lets the flags rise, followed by a stage that does, lets them rise. -/
theorem andThen_rise {s : State} {b : Body} {f : State → Body}
    (hb : ∀ e u, b.result = some (e, u) → FlagsRise s u)
    (hf : ∀ v e u, (f v).result = some (e, u) → FlagsRise v u) (e : ErrCode) (u : State)
    (h : (b.andThen f).result = some (e, u)) : FlagsRise s u := by
  obtain ⟨v, rfl, hv⟩ | rfl := (Body.result_andThen _ _ _ _).1 h
  · exact (hb _ v rfl).trans (hf v e u hv)
  · exact hb e u rfl

theorem buildBody_rise {s u : State} {e : ErrCode} (h : (buildBody s).result = some (e, u)) :
    FlagsRise s u := by
  obtain hs | ⟨-, htree, htable⟩ := buildBody_flags h
  · exact hs.rise
  · exact ⟨htree ▸ Bool.le_true _, htable.ge⟩

theorem genBody_rise {s u : State} {e : ErrCode} (h : (genBody s).result = some (e, u)) :
    FlagsRise s u := by
  obtain hs | ⟨-, htree, htable⟩ := genBody_flags h
  · exact hs.rise
  · exact ⟨htree.ge, htable ▸ Bool.le_true _⟩

/-- COMPRESS clears neither flag: none of its stages does (R240). -/
theorem compressBody_rise {s u : State} {e : ErrCode} (h : (compressBody s).result = some (e, u)) :
    FlagsRise s u :=
  andThen_rise
    (andThen_rise (andThen_rise (fun _ _ h => (countBody_flags h).rise) fun _ _ _ => buildBody_rise)
      fun _ _ _ => genBody_rise)
    (fun _ _ _ h => (encodeBody_flags h).rise) e u h

/-- The commands that change a flag, and how each ends (R61). -/
theorem bodyOf_flags {i : Instr} {s u : State} {e : ErrCode} (h : (bodyOf i s).result = some (e, u)) :
    SameFlags s u
    ∨ (i = .build ∧ e = .none ∧ u.treeValid = true ∧ u.tableValid = s.tableValid)
    ∨ (i = .gen ∧ e = .none ∧ u.treeValid = s.treeValid ∧ u.tableValid = true)
    ∨ (i = .tableCommit ∧ u.treeValid = s.treeValid
      ∧ ((e = .tableFormat ∧ u.tableValid = false) ∨ (e = .none ∧ u.tableValid = true)))
    ∨ (i = .compress ∧ FlagsRise s u) := by
  cases i with
  | nop => cases h; exact .inl ⟨rfl, rfl⟩
  | count => exact .inl (countBody_flags h)
  | build => exact (buildBody_flags h).imp_right fun h => .inl ⟨rfl, h⟩
  | gen => exact (genBody_flags h).imp_right fun h => .inr (.inl ⟨rfl, h⟩)
  | encode => exact .inl (encodeBody_flags h)
  | decode => exact .inl (decodeBody_flags h)
  | tableCommit => exact .inr (.inr (.inr (.inl ⟨rfl, tableCommitBody_flags h⟩)))
  | compress => exact .inr (.inr (.inr (.inr ⟨rfl, compressBody_rise h⟩)))

/-- The kinds of step as far as the validity flags go (R61). -/
inductive FlagStep (s t : State) : Prop where
  | same (h : SameFlags s t)
  | reset (h : HardResets s ∨ SoftResets s) (htree : t.treeValid = false) (htable : t.tableValid = false)
  | codeWrite (h : ∃ a d b k, HostWrites s a d ∧ target a = .code b k ∧ s.busy = false)
      (htree : t.treeValid = s.treeValid) (htable : t.tableValid = false)
  | build (h : EngineRuns s .build) (he : t.errCode = .none) (htree : t.treeValid = true)
      (htable : t.tableValid = s.tableValid)
  | gen (h : EngineRuns s .gen) (he : t.errCode = .none) (htree : t.treeValid = s.treeValid)
      (htable : t.tableValid = true)
  | commitRefused (h : EngineRuns s .tableCommit) (he : t.errCode = .tableFormat)
      (htree : t.treeValid = s.treeValid) (htable : t.tableValid = false)
  | commitAccepted (h : EngineRuns s .tableCommit) (he : t.errCode = .none)
      (htree : t.treeValid = s.treeValid) (htable : t.tableValid = true)
  | compress (h : EngineRuns s .compress) (hrise : FlagsRise s t)

theorem engineStep_flagStep {s u t : State} (hu : EngineNext s u) (ht : engineStep u = .next t) :
    FlagStep s t := by
  obtain ⟨rest, rfl⟩ := hu.eq
  obtain rfl | ⟨op, rfl⟩ | ⟨w, i, e, v, hp, hd, hv, rfl⟩ := engineStep_next ht
  · exact .same ⟨rfl, rfl⟩
  · exact .same ⟨rfl, rfl⟩
  · have hrun : EngineRuns s i := ⟨⟨_, hu⟩, w, hp, hd⟩
    obtain hs | ⟨rfl, he, htree, htable⟩ | ⟨rfl, he, htree, htable⟩ | ⟨rfl, htree, ⟨he, htable⟩ | ⟨he, htable⟩⟩ |
      ⟨rfl, hrise⟩ := bodyOf_flags hv
    · exact .same hs
    · exact .build hrun he htree htable
    · exact .gen hrun he htree htable
    · exact .commitRefused hrun he htree htable
    · exact .commitAccepted hrun he htree htable
    · exact .compress hrun hrise

theorem step_flagStep {s t : State} (h : step s = .next t) : FlagStep s t := by
  cases step_effect h with
  | read a rest => exact .same (busRead_flags a { s with agenda := rest })
  | hardReset hs => exact .reset (.inl ⟨_, hs⟩) rfl rfl
  | engine hu ht => exact engineStep_flagStep hu ht
  | @write a d rest hs =>
    obtain hw | ⟨ha, hd, hw⟩ | ⟨b, k, ha, hb, hw⟩ := busWrite_flags a d { s with agenda := rest }
    · exact .same hw
    · rw [hw]
      exact .reset (.inr ⟨a, d, ⟨rest, hs⟩, ha, hd⟩) rfl rfl
    · rw [hw]
      exact .codeWrite ⟨a, d, b, k, ⟨rest, hs⟩, ha, hb⟩ rfl rfl

/-- Settles O58: of the kinds of step, only those listed change the flag. -/
theorem validityChangesOnlyAsListed : Obligations.ValidityChangesOnlyAsListed := by
  intro s t hst
  cases step_flagStep hst with
  | same h => obtain ⟨htree, htable⟩ := h; simp_all
  | reset h htree htable =>
    exact ⟨by simp [htree], fun _ _ => h, by simp [htable], fun _ _ => h.imp_right .inl⟩
  | codeWrite h htree htable => simp_all
  | build h he htree htable => simp_all
  | gen h he htree htable => simp_all
  | commitRefused h he htree htable => simp_all
  | commitAccepted h he htree htable => simp_all
  | compress h hrise =>
    obtain ⟨htree, htable⟩ := hrise
    have hfall : ¬ true ≤ false := by decide
    exact ⟨fun _ _ => .inr h, fun hs ht => absurd (hs ▸ ht ▸ htree) hfall, fun _ _ => .inr (.inr h),
      fun hs ht => absurd (hs ▸ ht ▸ htable) hfall⟩

end Sys2Proof.Machine

/-! SUPPORT. The family 20_memory.md: the step that takes each kind of event (R90, R91), what a transaction
does at each kind of target while BUSY = 1 (R92, R93), and with these the statements about the bus. -/

namespace Sys2Proof.Machine

/-! ### The step that takes an event (R90, R91) -/

theorem step_bus {s : State} {x : Transaction} {rest : List Event} (h : s.agenda = .bus x :: rest) :
    step s = .next (transact x { s with agenda := rest }) := by
  rw [step, nextEvent, h]

theorem step_engine {s u : State} (hu : EngineNext s u) : step s = engineStep u := by
  obtain ⟨ha, rfl⟩ | ⟨rest, ha, rfl⟩ := hu <;> rw [step, nextEvent, ha]

theorem engineStep_idle {s : State} (hp : s.pending = none) : engineStep s = .next s := by
  rw [engineStep, hp]

/-- Settles O6: one law of `step` per kind of event, and the idle engine's. -/
theorem oneEventPerStep : Obligations.OneEventPerStep := by
  intro s rest
  refine ⟨fun a => step_bus, fun a d => step_bus, step_hardReset, fun u hu hp => ?_⟩
  have hpu : u.pending = none := by
    obtain ⟨_, rfl⟩ := hu.eq
    exact hp
  rw [step_engine hu, engineStep_idle hpu]

/-! ### OVERRUN (R38, R92, R265) -/

theorem busRead_overrun (a : Addr) (s : State) : (busRead a s).overrun = s.overrun := by
  obtain ⟨w, n, hr⟩ := busRead_effect a s
  rw [hr]

/-- A write while BUSY = 0 never sets OVERRUN. -/
theorem busy_of_busWrite_overrun {a : Addr} {d : Word} {s : State} (hs : s.overrun = false)
    (ht : (busWrite a d s).overrun = true) : s.busy = true := by
  obtain hw | hw | hw | ⟨_, -, hb⟩ | ⟨-, hw | hw | hw | ⟨_, hw⟩ | ⟨_, _, hw⟩ | ⟨_, hw⟩ | ⟨_, hw⟩⟩ :=
    busWrite_cases a d s
  case inr.inr.inr.inl => exact hb
  all_goals
    rw [hw] at ht
    simp [hs, issue, clearStatus] at ht

/-- The engine's step keeps OVERRUN. -/
theorem engineStep_overrun {u t : State} (h : engineStep u = .next t) : t.overrun = u.overrun := by
  obtain rfl | ⟨_, rfl⟩ | ⟨_, _, _, _, -, -, hv, rfl⟩ := engineStep_next h
  · rfl
  · rfl
  · exact (bodyOf_keeps hv).overrun

/-- Settles O59: reads, resets and the engine's step never set OVERRUN, and a write does so only while
BUSY = 1. -/
theorem overrunMarksABusyWrite : Obligations.OverrunMarksABusyWrite := by
  intro s t hst hs ht
  cases step_effect hst with
  | read a rest => simp [busRead_overrun, hs] at ht
  | @write a d rest ha => exact ⟨busy_of_busWrite_overrun (s := { s with agenda := rest }) hs ht, a, d, rest, ha⟩
  | hardReset ha => cases ht
  | engine hu he =>
    obtain ⟨rest, rfl⟩ := hu.eq
    rw [engineStep_overrun he, hs] at ht
    cases ht

/-! ### Address bits 1:0 (R81) -/

/-- Rounding an address down to a multiple of 4 keeps its word number. -/
theorem roundDown_div_four (a : Addr) : (a - BitVec.ofNat 24 (a.toNat % 4)).toNat / 4 = a.toNat / 4 := by
  have := a.isLt
  rw [BitVec.toNat_sub, BitVec.toNat_ofNat]
  omega

/-- A transaction depends on the word number of its address only. -/
theorem bus_congr {a b : Addr} (h : a.toNat / 4 = b.toNat / 4) (d : Word) (s : State) :
    busRead a s = busRead b s ∧ busWrite a d s = busWrite b d s := by
  have hw : wordAddress a = wordAddress b := by rw [wordAddress_eq, wordAddress_eq, h]
  exact ⟨by rw [busRead, busRead, target_congr h], by rw [busWrite, busWrite, target_congr h, hw]⟩

/-- Settles O13: both addresses have the same word number. -/
theorem lowAddressBitsIgnored : Obligations.LowAddressBitsIgnored := fun a d s =>
  bus_congr (roundDown_div_four a).symm d s

/-! ### Busy transactions by target (R49, R92, R93) -/

theorem unused_codeAddr (s : State) (b : Byte) {k : Nat} (h9 : 9 ≤ k) (h16 : k < 16) :
    s.unused (target (codeAddr b k)) = true := by
  rw [target_code b k h16, State.unused]
  exact decide_eq_true h9

theorem unused_symAddr {s : State} {j : Nat} (h4 : j % 4 = 0) (hj : j < 2 ^ 20) (hd : s.symDepth ≤ j) :
    s.unused (target (symAddr j)) = true := by
  rw [target_sym j h4 hj, State.unused]
  exact decide_eq_true hd

theorem unused_payAddr {s : State} {j : Nat} (h4 : j % 4 = 0) (hj : j < 2 ^ 21) (hd : s.payDepth ≤ j) :
    s.unused (target (payAddr j)) = true := by
  rw [target_pay j h4 hj, State.unused]
  exact decide_eq_true hd

/-- The targets of which R93 fixes no bit while BUSY = 1, the unused words of the windows apart. -/
def Target.drawnWhileBusy : Target → Bool
  | .reg .status => false
  | t => !t.readsAlways

theorem busRead_busy_drawn {a : Addr} {s : State} {t : Target} (hb : s.busy = true) (ht : target a = t)
    (hd : t.drawnWhileBusy = true) (hu : s.unused t = false) :
    busRead a s = { s with readData := Config.busyWord s.draws, draws := s.draws + 1 } := by
  rw [busRead, if_pos hb, ht]
  cases t with
  | reg r =>
    revert hd
    cases r <;> simp [Target.drawnWhileBusy, Target.readsAlways, busyRead, State.unused, drawWord]
  | reserved => cases hd
  | freq _ | code _ _ | node _ _ | sym _ | pay _ => simp [busyRead, hu, drawWord]

/-- The registers and windows whose writes R92 blocks while BUSY = 1. -/
def Target.blockedWhileBusy : Target → Bool
  | .reg .cmd | .reg .symLen | .reg .payLen | .freq _ | .code _ _ | .sym _ | .pay _ => true
  | _ => false

theorem busWrite_busy_blocked {a : Addr} {s : State} {t : Target} (hb : s.busy = true) (ht : target a = t)
    (hd : t.blockedWhileBusy = true) (hu : s.unused t = false) (d : Word) :
    busWrite a d s = { s with overrun := true } := by
  rw [busWrite, if_pos hb, ht]
  cases t with
  | reg r =>
    revert hd
    cases r <;> simp [Target.blockedWhileBusy, busyWrite, overrunWrite]
  | freq _ => rfl
  | node _ _ | reserved => cases hd
  | code _ _ | sym _ | pay _ => simp [busyWrite, busyWindowWrite, hu, overrunWrite]

/-! ### Reads (R84, R93) -/

/-- What a target reads as does not depend on the word last read. -/
theorem targetWord_returnWord (w : Word) (s : State) (t : Target) :
    (returnWord w s).targetWord t = s.targetWord t := by
  cases t <;> rfl

theorem busRead_busRead_idle {s : State} (hb : s.busy = false) (a : Addr) :
    busRead a (busRead a s) = busRead a s := by
  have hr : busRead a s = returnWord (s.targetWord (target a)) s := busRead_idle hb a
  have hb' : (returnWord (s.targetWord (target a)) s).busy = false := hb
  rw [hr, busRead_idle hb', targetWord_returnWord]
  rfl

/-- Settles O12: an idle read returns the target's word; a busy one draws at each of the named targets. -/
theorem readsHaveNoSideEffect : Obligations.ReadsHaveNoSideEffect := by
  refine ⟨fun a s => ⟨busRead_effect a s, fun hb => ⟨?_, busRead_busRead_idle hb a⟩⟩, ?_⟩
  · rw [busRead_idle hb]
  rintro s hb a (ha | ⟨b, rfl⟩ | ⟨b, k, hk, rfl⟩ | ⟨i, k, hi, hk, rfl⟩ | ⟨j, h4, hj, hd, rfl⟩ |
    ⟨j, h4, hj, hd, rfl⟩)
  · have hread (r : Reg) (h : (Target.reg r).drawnWhileBusy = true) :=
      busRead_busy_drawn hb (target_reg r) h rfl
    revert a
    simp only [List.mem_cons, List.not_mem_nil, or_false, forall_eq_or_imp, forall_eq]
    exact ⟨hread .cmd rfl, hread .symLen rfl, hread .payLen rfl, hread .bitLen rfl, hread .pad rfl,
      hread .leafCount rfl, hread .nodeCount rfl, hread .rootWeightLo rfl, hread .rootWeightHi rfl,
      hread .maxLen rfl⟩
  · exact busRead_busy_drawn hb (target_freq b) rfl rfl
  · exact busRead_busy_drawn hb (target_code b k (by omega)) rfl (decide_eq_false (by omega))
  · exact busRead_busy_drawn hb (target_node i k hi hk) rfl rfl
  · exact busRead_busy_drawn hb (target_sym j h4 hj) rfl (decide_eq_false (by omega))
  · exact busRead_busy_drawn hb (target_pay j h4 hj) rfl (decide_eq_false (by omega))

/-- The bits of STATUS while BUSY = 1 (R93). -/
theorem State.busyStatusWord_getLsbD (s : State) (drawn : Word) {j : Nat} (hj : j < 32) :
    (s.busyStatusWord drawn).getLsbD j =
      (drawn.getLsbD j && !(decide (j = 0) || decide (j = 3)) || decide (j = 0)
        || s.overrun && decide (j = 3)) := by
  have hmask : (0x00000009 : Word) = flagBit true 0 ||| flagBit true 3 := by decide
  simp only [State.busyStatusWord, hmask, BitVec.getLsbD_or, BitVec.getLsbD_and, BitVec.getLsbD_not,
    flagBit_getLsbD _ _ hj, hj, decide_true, Bool.true_and]

theorem busRead_status_busy {s : State} (hb : s.busy = true) :
    busRead Reg.status.addr s =
      { s with readData := s.busyStatusWord (Config.busyWord s.draws), draws := s.draws + 1 } := by
  rw [busRead, if_pos hb, target_reg]
  rfl

/-- Settles O16: CTRL and unused words read 0, and STATUS keeps every drawn bit but bits 0 and 3. -/
theorem busyReadsOfFixedFields : Obligations.BusyReadsOfFixedFields := by
  intro s hb
  refine ⟨busRead_reg_readsAlways (r := .ctrl) rfl s,
    fun b k h9 h16 => busRead_busy_unused hb (unused_codeAddr s b h9 h16),
    fun j h4 hj hd => busRead_busy_unused hb (unused_symAddr h4 hj hd),
    fun j h4 hj hd => busRead_busy_unused hb (unused_payAddr h4 hj hd),
    s.busyStatusWord (Config.busyWord s.draws), busRead_status_busy hb, ?_, ?_, fun i h0 h3 => ?_⟩
  · rw [State.busyStatusWord_getLsbD _ _ (by decide)]
    simp
  · rw [State.busyStatusWord_getLsbD _ _ (by decide)]
    simp
  · obtain hi | hi := Nat.lt_or_ge i 32
    · simp [State.busyStatusWord_getLsbD _ _ hi, h0, h3]
    · rw [BitVec.getLsbD_of_ge _ _ hi, BitVec.getLsbD_of_ge _ _ hi]

/-! ### Writes (R92) -/

/-- Settles O27: a used word of a blocked target sets OVERRUN, an unused one at most. -/
theorem busyWritesAreBlocked : Obligations.BusyWritesAreBlocked := by
  intro s d hb
  refine ⟨?_, fun b => busWrite_busy_blocked hb (target_freq b) rfl rfl d,
    fun b k hk => busWrite_busy_blocked hb (target_code b k (by omega)) rfl (decide_eq_false (by omega)) d,
    fun j h4 hj hd => busWrite_busy_blocked hb (target_sym j h4 hj) rfl (decide_eq_false (by omega)) d,
    fun j h4 hj hd => busWrite_busy_blocked hb (target_pay j h4 hj) rfl (decide_eq_false (by omega)) d, ?_⟩
  · have hwrite (r : Reg) (h : (Target.reg r).blockedWhileBusy = true) :=
      busWrite_busy_blocked hb (target_reg r) h rfl d
    simp only [List.mem_cons, List.not_mem_nil, or_false, forall_eq_or_imp, forall_eq]
    exact ⟨hwrite .cmd rfl, hwrite .symLen rfl, hwrite .payLen rfl⟩
  · rintro a (⟨b, k, h9, h16, rfl⟩ | ⟨j, h4, hj, hd, rfl⟩ | ⟨j, h4, hj, hd, rfl⟩)
    · exact busWrite_busy_unused d hb (unused_codeAddr s b h9 h16)
    · exact busWrite_busy_unused d hb (unused_symAddr h4 hj hd)
    · exact busWrite_busy_unused d hb (unused_payAddr h4 hj hd)

end Sys2Proof.Machine

/-! SUPPORT. The family 30_encoding.md: the decoder read backwards, as a word's two fields (R110, R112 to R114),
the engine's step on a latched command, CMD writes and the end of a WAIT, and with these the statements
about command words and their issue. -/

namespace Sys2Proof

open Machine (IllegalWord)

/-! ### A command word and its two fields (R110) -/

theorem Cmd32.ofWord_toWord (c : Cmd32) : Cmd32.ofWord c.toWord = c := by
  obtain ⟨rsv, op⟩ := c
  have hrsv : (rsv ++ op).extractLsb' 8 24 = rsv := BitVec.extractLsb'_append_eq_left
  have hop : (rsv ++ op).extractLsb' 0 8 = op := BitVec.extractLsb'_append_eq_right
  rw [Cmd32.toWord, Cmd32.ofWord, hrsv, hop]

theorem Cmd32.toWord_ofWord (w : Word) : (Cmd32.ofWord w).toWord = w :=
  BitVec.extractLsb'_append_extractLsb'

/-- A word is a command's word exactly when its fields are the command's. -/
theorem ofWord_eq_cmd32_iff {w : Word} {i : Instr} : Cmd32.ofWord w = i.cmd32 ↔ w = encode i := by
  constructor
  · intro h
    rw [encode, ← h, Cmd32.toWord_ofWord]
  · rintro rfl
    exact Cmd32.ofWord_toWord _

theorem eq_encode_iff {w : Word} {i : Instr} :
    w = encode i ↔ w.extractLsb' 8 24 = 0 ∧ w.extractLsb' 0 8 = i.opcode := by
  rw [← ofWord_eq_cmd32_iff, Cmd32.ofWord, Instr.cmd32, Cmd32.mk.injEq]

/-! ### The opcode map (R113) -/

theorem ofOpcode_eq_some_iff {op : Byte} {i : Instr} : ofOpcode op = some i ↔ op = i.opcode := by
  constructor
  · intro h
    unfold ofOpcode at h
    split at h <;> cases h <;> exact BitVec.eq_of_toNat_eq ‹_›
  · rintro rfl
    cases i <;> rfl

theorem ofOpcode_eq_none_iff {op : Byte} : ofOpcode op = none ↔ 8 ≤ op.toNat := by
  unfold ofOpcode
  split
  case h_9 =>
    simp only [true_iff, imp_false] at *
    omega
  all_goals simp [*]

/-! ### What the decoder answers (R112, R114) -/

@[simp] theorem Cmd32.ofWord_op (w : Word) : (Cmd32.ofWord w).op = w.extractLsb' 0 8 := rfl

theorem rsvOk_ofWord {w : Word} : (Cmd32.ofWord w).rsvOk = true ↔ w.extractLsb' 8 24 = 0 := beq_iff_eq

/-- The decoder answers a command exactly when RSV is 0 and OP is the command's opcode. -/
theorem decode_eq_ok_iff {w : Word} {i : Instr} :
    decode w = .ok i ↔ w.extractLsb' 8 24 = 0 ∧ w.extractLsb' 0 8 = i.opcode := by
  rw [← rsvOk_ofWord, ← ofOpcode_eq_some_iff, decode]
  by_cases hrsv : (Cmd32.ofWord w).rsvOk = true
  · cases hop : ofOpcode (w.extractLsb' 0 8) <;> simp [hrsv, hop]
  · simp [hrsv]

/-- The decoder refuses exactly the illegal words. -/
theorem decode_eq_error_iff {w : Word} : (∃ r, decode w = .error r) ↔ IllegalWord w := by
  rw [IllegalWord, ← ofOpcode_eq_none_iff, Ne, ← rsvOk_ofWord, decode]
  by_cases hrsv : (Cmd32.ofWord w).rsvOk = true
  · cases hop : ofOpcode (w.extractLsb' 0 8) <;> simp [hrsv, hop]
  · simp [hrsv]

theorem decode_eq_ok_iff_eq_encode {w : Word} {i : Instr} : decode w = .ok i ↔ w = encode i :=
  decode_eq_ok_iff.trans eq_encode_iff.symm

theorem decode_encode (i : Instr) : decode (encode i) = .ok i := decode_eq_ok_iff_eq_encode.2 rfl

theorem Instr.opcode_lt (i : Instr) : i.opcode.toNat < 8 := by cases i <;> decide

theorem Instr.wellFormed_eq_true (i : Instr) : i.wellFormed = true := by
  rw [Instr.wellFormed, Cmd32.wellFormed, Bool.and_eq_true]
  exact ⟨rfl, decide_eq_true i.opcode_lt⟩

/-- Settles O1: a word is read as its two fields, and the opcode map is read backwards. -/
theorem decodeAndEncodeAgree : Obligations.DecodeAndEncodeAgree :=
  ⟨fun i => ⟨i.wellFormed_eq_true, decode_encode i⟩,
    fun _ => ⟨fun _ => decode_eq_ok_iff_eq_encode, decode_eq_error_iff⟩⟩

/-- Settles O3: a nonzero RSV or a high OP makes the word illegal, and each opcode selects its command. -/
theorem decoderCases : Obligations.DecoderCases := by
  intro w
  refine ⟨fun hrsv => decode_eq_error_iff.2 (.inl hrsv), fun hrsv => ?_⟩
  have hop (i : Instr) (h : w.extractLsb' 0 8 = i.opcode) : decode w = .ok i :=
    decode_eq_ok_iff.2 ⟨hrsv, h⟩
  exact ⟨hop .nop, hop .count, hop .build, hop .gen, hop .encode, hop .decode, hop .tableCommit,
    hop .compress, fun h => decode_eq_error_iff.2 (.inr h)⟩

/-- Settles O2: the first eight words are the commands' words; the last four are refused by evaluation. -/
theorem tabledWordsDecode : Obligations.TabledWordsDecode :=
  ⟨decode_encode .nop, decode_encode .count, decode_encode .build, decode_encode .gen,
    decode_encode .encode, decode_encode .decode, decode_encode .tableCommit, decode_encode .compress,
    by decide⟩

end Sys2Proof

namespace Sys2Proof.Machine

/-! ### The engine's step on a latched command (R90, R112) -/

theorem engineStep_of_decode {u : State} {w : Word} {i : Instr} (hp : u.pending = some w)
    (hd : decode w = .ok i) : engineStep u = exec i u := by
  simp only [engineStep, hp, hd]

theorem step_of_decode {s u : State} {w : Word} {i : Instr} (hu : EngineNext s u)
    (hp : s.pending = some w) (hd : decode w = .ok i) : step s = exec i u := by
  rw [step_engine hu]
  obtain ⟨_, rfl⟩ := hu.eq
  exact engineStep_of_decode hp hd

theorem tableWord_toNat (w : Word) : tableWord 32 w.toNat = w := by
  rw [tableWord, Nat.mod_eq_of_lt w.isLt, BitVec.ofNat_toNat, BitVec.setWidth_eq]

theorem engineNext_latchNext (w : Word) (s : State) : EngineNext (latchNext w s) (issue w s) :=
  .inr ⟨s.agenda, rfl, rfl⟩

/-- Settles O4: the engine's step decodes the word it finds latched, and `withFetchWord` latches a
command's word with that step next. -/
theorem stepRunsTheLatchedCommand : Obligations.StepRunsTheLatchedCommand := by
  refine ⟨fun _ _ _ _ => step_of_decode, fun s i => ?_⟩
  rw [State.withFetchWord, tableWord_toNat]
  exact step_of_decode (engineNext_latchNext _ s) rfl (decode_encode i)

/-! ### CMD writes (R111) -/

/-- Settles O17: CMD is blocked while BUSY = 1, and the idle write is `issue`. -/
theorem cmdWriteIssues : Obligations.CmdWriteIssues := fun _ w =>
  ⟨fun hb => busWrite_busy_blocked hb (target_reg .cmd) rfl rfl w, fun hb => busWrite_reg_idle hb .cmd w⟩

/-! ### The end of a WAIT (R118, R306) -/

theorem step_wait {s : State} {rest : List Event} (h : s.agenda = .wait :: rest) :
    step s = .next (pollStatus rest s) := by
  rw [step, nextEvent, h]

theorem pollStatus_idle {s : State} (hb : s.busy = false) (rest : List Event) :
    pollStatus rest s = busRead Reg.status.addr { s with agenda := rest } := by
  rw [pollStatus, hb]
  rfl

theorem pollStatus_busy {s : State} (hb : s.busy = true) (rest : List Event) :
    pollStatus rest s = busRead Reg.status.addr { s with agenda := .engine :: .wait :: rest } := by
  rw [pollStatus, if_pos hb]

/-- While BUSY = 0 a poll ends the WAIT: it reads bit 0 as 0, and the events after the WAIT are next. -/
theorem wait_ends_idle {s : State} {rest : List Event} (h : s.agenda = .wait :: rest)
    (hb : s.busy = false) : ∃ t, t = busRead Reg.status.addr { s with agenda := rest }
      ∧ step s = .next t ∧ t.readData.getLsbD 0 = false ∧ t.agenda = rest ∧ t.busy = false := by
  obtain ⟨hbusy, hbit, hagenda⟩ := pollStatus_effect rest s
  rw [hb] at hbusy hbit hagenda
  exact ⟨_, pollStatus_idle hb rest, step_wait h, hbit, hagenda, hbusy⟩

/-- While BUSY = 1 a poll of a WAIT reads bit 0 as 1, and the engine's step after it ends the command. -/
theorem wait_goes_on_busy {s : State} {rest : List Event} (h : s.agenda = .wait :: rest)
    (hb : s.busy = true) (hs : Inv s) :
    ∃ t u, t = busRead Reg.status.addr { s with agenda := .engine :: .wait :: rest }
      ∧ step s = .next t ∧ t.readData.getLsbD 0 = true
      ∧ step t = .next u ∧ u.agenda = .wait :: rest ∧ u.busy = false := by
  obtain ⟨-, hbit, hagenda⟩ := pollStatus_effect rest s
  rw [hb] at hbit hagenda
  have ht : Inv (pollStatus rest s) := busRead_inv (hs.agenda _) _
  obtain ⟨u, hu, hidle, hrest⟩ := engineStep_ends (ht.agenda (.wait :: rest)).data
  have hstep : step (pollStatus rest s) = .next u := (step_engine (.inr ⟨_, hagenda, rfl⟩)).trans hu
  exact ⟨_, u, pollStatus_busy hb rest, step_wait h, hbit, hstep, hrest, hidle⟩

/-- Settles O60: an idle poll ends the WAIT, and a busy one is followed by the engine's step and an idle
poll. -/
theorem waitEnds : Obligations.WaitEnds := by
  refine fun s rest h => ⟨fun hb => ?_, fun hb hs => ?_⟩
  · obtain ⟨t, ht, hst, hbit, hagenda, -⟩ := wait_ends_idle h hb
    exact ⟨t, ht, hst, hbit, hagenda⟩
  · obtain ⟨t, u, ht, hst, hbit, htu, hagenda, hidle⟩ := wait_goes_on_busy h hb hs
    obtain ⟨v, hv, huv, hend⟩ := wait_ends_idle hagenda hidle
    exact ⟨t, u, v, ht, hst, hbit, htu, hagenda, hidle, hv, huv, hend⟩

end Sys2Proof.Machine

/-! SUPPORT. The family 40_frequency_analyzer.md: how COUNT ends (R140, R141), its counts as counts of indexes
(R142) and their dependence on the symbols read (R144), and with these the statements about COUNT. -/

namespace Sys2Proof.Machine

/-! ### How COUNT ends (R140, R141) -/

theorem exec_count_of_depth_lt {s : State} (h : s.symDepth < s.symLen.toNat) :
    exec .count s = .next (complete Instr.count.opcode .capacity s) := by
  obtain ⟨-, hb⟩ | ⟨hle, -⟩ | ⟨hle, -⟩ := countBody_cases s
  · rw [exec_eq, bodyOf, hb, Body.record]
  · omega
  · omega

theorem exec_count_of_symLen_eq_zero {s : State} (h : s.symLen.toNat = 0) :
    exec .count s = .next (complete Instr.count.opcode .emptyInput s) := by
  obtain ⟨hlt, -⟩ | ⟨-, -, hb⟩ | ⟨-, hne, -⟩ := countBody_cases s
  · omega
  · rw [exec_eq, bodyOf, hb, Body.record]
  · exact absurd h hne

theorem exec_count_of_fits {s : State} (hne : s.symLen.toNat ≠ 0) (hle : s.symLen.toNat ≤ s.symDepth) :
    exec .count s = .next (complete Instr.count.opcode .none
      { s with freq := countSymbols (s.symBytes 0 s.symLen.toNat) }) := by
  obtain ⟨hlt, -⟩ | ⟨-, h0, -⟩ | ⟨-, -, hb⟩ := countBody_cases s
  · omega
  · exact absurd h0 hne
  · rw [exec_eq, bodyOf, hb, Body.record]

/-- Settles O32: the two errors are two of COUNT's three ends. -/
theorem countErrors : Obligations.CountErrors := fun _ =>
  ⟨exec_count_of_depth_lt, exec_count_of_symLen_eq_zero⟩

/-! ### The counts (R142, R144) -/

/-- The occurrences of a symbol among the first `n` bytes are the indexes that hold it. -/
theorem count_symBytes (s : State) (n : Nat) (b : Byte) :
    (s.symBytes 0 n).count b = ((List.range n).filter fun i => s.symByte i == b).length := by
  rw [State.symBytes, List.count, List.countP_map, List.countP_eq_length_filter, List.range_eq_range']
  rfl

/-- Every byte is one of the 256 symbols, so the occurrences of all symbols make up the sequence. -/
theorem sum_count_allSymbols (bytes : List Byte) :
    (allSymbols.map fun b => bytes.count b).sum = bytes.length := by
  calc (allSymbols.map fun b => bytes.count b).sum
      = ∑ b ∈ allSymbols.toFinset, bytes.count b := (List.sum_toFinset _ allSymbols_nodup).symm
    _ = ∑ b ∈ allSymbols.toFinset, (bytes : Multiset Byte).count b := by simp only [Multiset.coe_count]
    _ = bytes.length :=
        Multiset.sum_count_eq_card fun b _ => List.mem_toFinset.2 (mem_allSymbols b)

theorem symBytes_congr {s u : State} {n : Nat} (h : ∀ i, i < n → s.symByte i = u.symByte i) :
    s.symBytes 0 n = u.symBytes 0 n := by
  rw [State.symBytes, State.symBytes, ← List.range_eq_range']
  exact List.map_congr_left fun i hi => h i (List.mem_range.1 hi)

/-- Settles O31: each count is its symbol's occurrences, and these sum to the length of the input. -/
theorem countCountsOccurrences : Obligations.CountCountsOccurrences := by
  intro s _ hpos hle
  have hlen : (s.symBytes 0 s.symLen.toNat).length = s.symLen.toNat := length_symBytes s 0 _
  have hcount : ∀ b, (atSymbol (countSymbols (s.symBytes 0 s.symLen.toNat)) b).toNat
      = (s.symBytes 0 s.symLen.toNat).count b :=
    countSymbols_toNat _ (by rw [hlen]; exact s.symLen.isLt)
  refine ⟨_, exec_count_of_fits (by omega) hle, fun b => (hcount b).trans (count_symBytes s _ b), ?_⟩
  simp only [hcount]
  exact (sum_count_allSymbols _).trans hlen

/-- Settles O33: both states end COUNT in the same one of its three ways, on the same symbols. -/
theorem countDependsOnItsInputAlone : Obligations.CountDependsOnItsInputAlone := by
  intro s u s' u' hsymLen hdepth hsym hs hu
  by_cases hlt : s.symDepth < s.symLen.toNat
  · cases (exec_count_of_depth_lt hlt).symm.trans hs
    cases (exec_count_of_depth_lt (hsymLen ▸ hdepth ▸ hlt)).symm.trans hu
    exact ⟨rfl, nofun⟩
  by_cases h0 : s.symLen.toNat = 0
  · cases (exec_count_of_symLen_eq_zero h0).symm.trans hs
    cases (exec_count_of_symLen_eq_zero (hsymLen ▸ h0)).symm.trans hu
    exact ⟨rfl, nofun⟩
  · have hle : s.symLen.toNat ≤ s.symDepth := Nat.not_lt.1 hlt
    have hbytes : s.symBytes 0 s.symLen.toNat = u.symBytes 0 u.symLen.toNat :=
      hsymLen ▸ symBytes_congr hsym
    cases (exec_count_of_fits h0 hle).symm.trans hs
    cases (exec_count_of_fits (hsymLen ▸ h0) (hsymLen ▸ hdepth ▸ hle)).symm.trans hu
    exact ⟨rfl, fun _ => congrArg countSymbols hbytes⟩

end Sys2Proof.Machine

/-! SUPPORT. The family 41_tree_builder.md: how BUILD ends (R160, R168), what its arena holds (R161, R165), the
merge loop as removals of the two least (R163, R164) and its queue as the nodes that wait, and with these the
statements about BUILD. -/

namespace Sys2Proof.Machine

/-! ### How BUILD ends (R160, R168) -/

theorem length_presentSymbols_ne_zero_iff {freq : Vector Word 256} :
    (presentSymbols freq).length ≠ 0 ↔ ∃ b, atSymbol freq b ≠ 0 := by
  simp only [Ne, List.length_eq_zero_iff, List.eq_nil_iff_forall_not_mem, mem_presentSymbols, not_forall,
    not_not]

theorem exec_build_of_empty {s : State} (h : (presentSymbols s.freq).length = 0) :
    exec .build s = .next (complete Instr.build.opcode .emptyInput s) := by
  obtain ⟨-, hb⟩ | ⟨hne, -⟩ := buildBody_cases s
  · rw [exec_eq, bodyOf, hb, Body.record]
  · exact absurd h hne

theorem exec_build_of_present {s : State} (h : (presentSymbols s.freq).length ≠ 0) :
    exec .build s = .next (complete Instr.build.opcode .none (builtState s)) := by
  obtain ⟨h0, -⟩ | ⟨-, hb⟩ := buildBody_cases s
  · exact absurd h0 h
  · rw [exec_eq, bodyOf, hb, Body.record]

/-- Settles O34: BUILD ends in one of two ways, and the other one has no error. -/
theorem buildEmptyInput : Obligations.BuildEmptyInput := by
  refine fun s => ⟨fun h0 => exec_build_of_empty ?_, fun t ht herr => ?_⟩
  · by_contra hne
    obtain ⟨b, hb⟩ := length_presentSymbols_ne_zero_iff.1 hne
    exact hb (h0 b)
  · by_cases h : (presentSymbols s.freq).length = 0
    · cases (exec_build_of_empty h).symm.trans ht
      rfl
    · cases (exec_build_of_present h).symm.trans ht
      exact absurd rfl herr

/-! ### The arena BUILD leaves (R161, R165, R167) -/

/-- Symbols without a count add nothing to the sum of the counts. -/
theorem sum_presentSymbols (freq : Vector Word 256) :
    ((presentSymbols freq).map fun b => (atSymbol freq b).toNat).sum
      = (allSymbols.map fun b => (atSymbol freq b).toNat).sum := by
  rw [presentSymbols]
  induction allSymbols with
  | nil => rfl
  | cons b bs ih =>
    rw [List.map_cons, List.sum_cons, ← ih]
    by_cases hb : atSymbol freq b = 0
    · rw [List.filter_cons_of_neg (by simp [hb]), hb]
      exact (Nat.zero_add _).symm
    · rw [List.filter_cons_of_pos (by simpa using hb), List.map_cons, List.sum_cons]

theorem length_buildArena {freq : Vector Word 256} (h : (presentSymbols freq).length ≠ 0) :
    (buildArena freq).length = 2 * (presentSymbols freq).length - 1 := by
  obtain ⟨-, -, -, -, -, -, hlen, -⟩ := buildArena_tree freq h
  exact hlen

theorem nodeAt_builtState (s : State) {i : Nat} (hi : i < 511) :
    (builtState s).nodeAt i = some ((buildArena s.freq)[i]?.getD Node.zero) :=
  toArena_getElem? _ i hi

/-- NODE holds the arena's nodes. -/
theorem nodeAt_builtState_of_lt {s : State} (h : (presentSymbols s.freq).length ≠ 0) {i : Nat}
    (hi : i < (buildArena s.freq).length) : (builtState s).nodeAt i = entries (buildArena s.freq) i := by
  have hlen := length_buildArena h
  have hle := length_presentSymbols_le s.freq
  rw [nodeAt_builtState s (by omega), entries, List.getElem?_eq_getElem hi]
  rfl

/-- A leaf in NODE is a leaf of the arena: the other entries of NODE are all zero. -/
theorem getElem?_buildArena_of_leaf {s : State} {i : Nat} {n : Node} (hn : (builtState s).nodeAt i = some n)
    (hleaf : n.isLeaf = true) : (buildArena s.freq)[i]? = some n := by
  have hi : i < 511 := (Vector.getElem?_eq_some_iff.1 hn).1
  rw [nodeAt_builtState s hi] at hn
  cases hget : (buildArena s.freq)[i]? with
  | none =>
    rw [hget] at hn
    cases hn
    cases hleaf
  | some m =>
    rw [hget] at hn
    exact hn

theorem builtState_leafCount (s : State) :
    (builtState s).leafCount.toNat = (presentSymbols s.freq).length := by
  have hle := length_presentSymbols_le s.freq
  simp only [builtState, BitVec.toNat_ofNat]
  omega

theorem builtState_nodeCount {s : State} (h : (presentSymbols s.freq).length ≠ 0) :
    (builtState s).nodeCount.toNat = (buildArena s.freq).length := by
  have hle := length_presentSymbols_le s.freq
  have hlen := length_buildArena h
  simp only [builtState, BitVec.toNat_ofNat]
  omega

/-- ROOT_WEIGHT is the sum of the counts (R167). -/
theorem builtState_rootWeight {s : State} (h : (presentSymbols s.freq).length ≠ 0) :
    (builtState s).rootWeight.toNat = (allSymbols.map fun b => (atSymbol s.freq b).toNat).sum := by
  obtain ⟨-, -, -, -, -, -, -, hroot⟩ := buildArena_tree s.freq h
  have hlen := length_buildArena h
  have hlast : (buildArena s.freq).length - 1 < (buildArena s.freq).length := by omega
  rw [(builtState_treeOk s h).rootWeight_eq, builtState_nodeCount h, ← sum_presentSymbols, ← hroot, weightAt,
    weightAt, nodeAt_builtState_of_lt h hlast]

/-- Settles O35: the built state has a tree, and its root weighs the sum of the counts. -/
theorem buildWritesTheTree : Obligations.BuildWritesTheTree := by
  intro s hs
  have h := length_presentSymbols_ne_zero_iff.2 hs
  have htree := builtState_treeOk s h
  exact ⟨_, _, _, _, exec_build_of_present h, htree, builtState_leafCount s, htree.nodeCount_eq,
    htree.unused_zero, builtState_rootWeight h⟩

/-! ### The merge loop (R160, R163) -/

/-- `a`, then `b`, are removed from the queue as its least entries, and `rest` remains (R160). -/
structure RemovesTwoLeast (queue : List Queued) (a b : Queued) (rest : List Queued) : Prop where
  perm   : queue.Perm (a :: b :: rest)
  first  : ∀ x ∈ queue, x.before a = false
  second : ∀ x ∈ b :: rest, x.before b = false

theorem removesTwoLeast_of_removeLeast {a0 b0 c0 a b : Queued} {q r rest : List Queued}
    (ha : removeLeast a0 (b0 :: q) = (a, c0 :: r)) (hb : removeLeast c0 r = (b, rest)) :
    RemovesTwoLeast (a0 :: b0 :: q) a b rest := by
  have hpa := removeLeast_perm (b0 :: q) a0
  have hla := removeLeast_least (b0 :: q) a0
  have hpb := removeLeast_perm r c0
  have hlb := removeLeast_least r c0
  rw [ha] at hpa hla
  rw [hb] at hpb hlb
  exact ⟨hpa.symm.trans (hpb.symm.cons a), hla, fun x hx => hlb x (hpb.mem_iff.1 hx)⟩

/-- What every merge keeps holds of the arena the loop ends with, and of some queue (R160). -/
theorem mergeLoop_invariant {P : List Node → List Queued → Prop}
    (hmerge : ∀ {arena queue a b rest}, P arena queue → RemovesTwoLeast queue a b rest →
      P (arena ++ [mergedNode a b]) ({ weight := (mergedNode a b).weight, seq := arena.length } :: rest))
    (fuel : Nat) (arena : List Node) (queue : List Queued) (h : P arena queue) :
    ∃ queue', P (mergeLoop fuel arena queue) queue' := by
  fun_induction mergeLoop fuel arena queue with
  | case1 => exact ⟨_, h⟩
  | case2 _ _ _ _ _ _ _ _ _ _ hb _ ha ih => exact ih (hmerge h (removesTwoLeast_of_removeLeast ha hb))
  | case3 => exact ⟨_, h⟩

/-! ### The leaves (R161) -/

theorem isLeaf_of_mem_seedArena {freq : Vector Word 256} {n : Node} (hn : n ∈ seedArena freq) :
    n.isLeaf = true := by
  obtain ⟨b, -, rfl⟩ := List.mem_map.1 hn
  rfl

/-- An entry of an arena with one node more is an entry of the arena or the new one. -/
theorem getElem?_append_singleton_cases {arena : List Node} {m n : Node} {i : Nat}
    (h : (arena ++ [m])[i]? = some n) : arena[i]? = some n ∨ (i = arena.length ∧ n = m) := by
  obtain hi | hi := Nat.lt_or_ge i arena.length
  · exact .inl (List.getElem?_append_left hi ▸ h)
  · rw [List.getElem?_append_right hi, List.getElem?_singleton] at h
    split at h
    · exact .inr ⟨by omega, (Option.some.inj h).symm⟩
    · cases h

/-- Merges add no leaf. -/
theorem getElem?_seedArena_of_leaf {freq : Vector Word 256} {i : Nat} {n : Node}
    (hn : (buildArena freq)[i]? = some n) (hleaf : n.isLeaf = true) : (seedArena freq)[i]? = some n := by
  obtain ⟨-, hleaves⟩ := mergeLoop_invariant
    (P := fun arena _ => ∀ (i : Nat) (n : Node), arena[i]? = some n → n.isLeaf = true →
      (seedArena freq)[i]? = some n)
    (fun hP _ i n hn hleaf => by
      obtain hold | ⟨-, rfl⟩ := getElem?_append_singleton_cases hn
      · exact hP i n hold hleaf
      · cases hleaf)
    (presentSymbols freq).length (seedArena freq) (seedQueue freq) (fun _ _ hn _ => hn)
  exact hleaves i n hn hleaf

theorem getElem?_buildArena_of_present {freq : Vector Word 256} {k : Nat} {b : Byte}
    (hb : (presentSymbols freq)[k]? = some b) : (buildArena freq)[k]? = some (leafNode freq b) := by
  have h : (presentSymbols freq).length ≠ 0 := by
    have := (List.getElem?_eq_some_iff.1 hb).1
    omega
  obtain ⟨-, -, -, -, -, ⟨_, hseed⟩, -⟩ := buildArena_tree freq h
  have hk : (seedArena freq)[k]? = some (leafNode freq b) := by rw [seedArena_getElem?, hb]; rfl
  rw [← hseed, List.getElem?_append_left (List.getElem?_eq_some_iff.1 hk).1, hk]

/-- Settles O36: the arena begins with the seeded leaves, and merges add none. -/
theorem buildSeedsLeavesAscending : Obligations.BuildSeedsLeavesAscending := by
  intro s hs
  have h := length_presentSymbols_ne_zero_iff.2 hs
  refine ⟨_, exec_build_of_present h, fun k b hb => ?_, fun i n hn hleaf => ?_⟩
  · have hk := getElem?_buildArena_of_present hb
    exact (nodeAt_builtState_of_lt h (List.getElem?_eq_some_iff.1 hk).1).trans hk
  · have hseed := getElem?_seedArena_of_leaf (getElem?_buildArena_of_leaf hn hleaf) hleaf
    rw [seedArena_getElem?] at hseed
    obtain ⟨b, hb, rfl⟩ := Option.map_eq_some_iff.1 hseed
    exact hb

/-! ### The waiting nodes are the roots of the forest (R160) -/

/-- Every node of a stored tree but its root has a parent in the tree. -/
theorem Shape.exists_parent {f : Nat → Option Node} {t : Shape} (ht : t.storedIn f) {j : Nat}
    (hj : j ∈ t.indices) (hroot : j ≠ t.root) : ∃ k ∈ t.indices, childOf f j k := by
  induction t with
  | leaf i => exact absurd (List.mem_singleton.1 hj) hroot
  | node i l r ihl ihr =>
    obtain ⟨⟨n, hn, hleaf, -, hleft, hright, -⟩, hl, hr⟩ := ht
    simp only [Shape.indices, List.mem_cons, List.mem_append] at hj ⊢
    obtain hj | hj | hj := hj
    · exact absurd hj hroot
    · by_cases hjl : j = l.root
      · exact ⟨i, .inl rfl, n, hn, hleaf, .inl (hleft.trans hjl.symm)⟩
      · obtain ⟨k, hk, hchild⟩ := ihl hl hj hjl
        exact ⟨k, .inr (.inl hk), hchild⟩
    · by_cases hjr : j = r.root
      · exact ⟨i, .inl rfl, n, hn, hleaf, .inr (hright.trans hjr.symm)⟩
      · obtain ⟨k, hk, hchild⟩ := ihr hr hj hjr
        exact ⟨k, .inr (.inr hk), hchild⟩

theorem Shape.indices_eq (t : Shape) : t.indices = t.root :: t.indices.tail := by cases t <;> rfl

/-- A child of a node of a stored tree is a node of the tree below its root. -/
theorem Shape.child_mem_tail {f : Nat → Option Node} {t : Shape} (ht : t.storedIn f) {j k : Nat}
    (hk : k ∈ t.indices) (hchild : childOf f j k) : j ∈ t.indices.tail := by
  obtain ⟨m, hm, hmleaf, hjm⟩ := hchild
  induction t with
  | leaf i =>
    obtain ⟨b, w, hi⟩ := ht
    cases List.mem_singleton.1 hk
    cases hi.symm.trans hm
    cases hmleaf
  | node i l r ihl ihr =>
    obtain ⟨⟨n, hn, -, -, hleft, hright, -⟩, hl, hr⟩ := ht
    simp only [Shape.indices, List.mem_cons, List.mem_append, List.tail_cons] at hk ⊢
    obtain rfl | hk | hk := hk
    · cases hn.symm.trans hm
      obtain hj | hj := hjm
      · exact .inl (hleft.symm.trans hj ▸ l.root_mem_indices)
      · exact .inr (hright.symm.trans hj ▸ r.root_mem_indices)
    · exact .inl (List.mem_of_mem_tail (ihl hl hk))
    · exact .inr (List.mem_of_mem_tail (ihr hr hk))

section
variable {L : Nat} {arena : List Node} {queue : List Queued} {trees : List Shape}

/-- No node is twice among the roots and the nodes below them. -/
theorem Forest.nodup (F : Forest L arena queue trees) :
    (trees.map Shape.root ++ trees.flatMap fun t => t.indices.tail).Nodup := by
  have hperm := List.map_append_flatMap_perm trees Shape.root fun t => t.indices.tail
  simp only [← Shape.indices_eq] at hperm
  exact (hperm.trans F.indices).nodup_iff.2 List.nodup_range

theorem Forest.nodup_queue (F : Forest L arena queue trees) : (queue.map Queued.seq).Nodup :=
  F.roots.nodup_iff.1 F.nodup.of_append_left

/-- The queue holds exactly the nodes that wait. -/
theorem Forest.mem_queue_iff_waits (F : Forest L arena queue trees) (j : Nat) :
    j ∈ queue.map Queued.seq ↔ waits (entries arena) arena.length j := by
  have hindex : ∀ i, i < arena.length ↔ ∃ t ∈ trees, i ∈ t.indices := fun i => by
    rw [← List.mem_range, ← F.indices.mem_iff, List.mem_flatMap]
  rw [← F.roots.mem_iff]
  constructor
  · intro hj
    obtain ⟨u, hu, rfl⟩ := List.mem_map.1 hj
    refine ⟨(hindex _).2 ⟨u, hu, u.root_mem_indices⟩, fun k hk hchild => ?_⟩
    obtain ⟨t, ht, hkt⟩ := (hindex k).1 hk
    exact List.disjoint_of_nodup_append F.nodup hj
      (List.mem_flatMap.2 ⟨t, ht, Shape.child_mem_tail (F.stored t ht) hkt hchild⟩)
  · rintro ⟨hlt, hno⟩
    obtain ⟨t, ht, hjt⟩ := (hindex j).1 hlt
    by_contra hroot
    obtain ⟨k, hk, hchild⟩ := Shape.exists_parent (F.stored t ht) hjt
      fun hj => hroot (hj ▸ List.mem_map_of_mem ht)
    exact hno k ((hindex k).2 ⟨t, ht, hk⟩) hchild

/-- The queue's order is the order on node indexes (R163). -/
theorem Forest.precedes_iff_before (F : Forest L arena queue trees) {x y : Queued} (hx : x ∈ queue)
    (hy : y ∈ queue) : precedes (entries arena) x.seq y.seq ↔ x.before y = true := by
  rw [precedes, F.weights x hx, F.weights y hy, Queued.before_iff]

end

/-! ### The merge of the two least waiting nodes (R163, R164) -/

/-- Node `n`, made as entry `i`, is the merge of the two least of the nodes that wait, the least to the left. -/
structure MergesTwoLeast (nodeAt : Nat → Option Node) (i : Nat) (n : Node) : Prop where
  isLeaf      : n.isLeaf = false
  sym         : n.sym = 0
  left_waits  : waits nodeAt i n.left.toNat
  right_waits : waits nodeAt i n.right.toNat
  ordered     : precedes nodeAt n.left.toNat n.right.toNat
  others      : ∀ j, waits nodeAt i j → j ≠ n.left.toNat → j ≠ n.right.toNat →
    precedes nodeAt n.right.toNat j
  weight      : n.weight.toNat = weightAt nodeAt n.left.toNat + weightAt nodeAt n.right.toNat

section
variable {f g : Nat → Option Node} {i : Nat}

theorem weightAt_congr (h : f i = g i) : weightAt f i = weightAt g i := by simp only [weightAt, h]

theorem precedes_congr {j : Nat} (hi : f i = g i) (hj : f j = g j) : precedes f i j ↔ precedes g i j := by
  rw [precedes, precedes, weightAt_congr hi, weightAt_congr hj]

/-- Which nodes wait when entry `i` is made depends on the entries below `i` only. -/
theorem waits_congr (h : ∀ k, k < i → f k = g k) {j : Nat} : waits f i j ↔ waits g i j :=
  and_congr_right fun _ => forall₂_congr fun k hk => by rw [childOf, childOf, h k hk]

/-- That `n` is such a merge depends on the entries below `i` only. -/
theorem MergesTwoLeast.congr {n : Node} (h : ∀ k, k < i → f k = g k) (M : MergesTwoLeast f i n) :
    MergesTwoLeast g i n where
  isLeaf := M.isLeaf
  sym := M.sym
  left_waits := (waits_congr h).1 M.left_waits
  right_waits := (waits_congr h).1 M.right_waits
  ordered := (precedes_congr (h _ M.left_waits.1) (h _ M.right_waits.1)).1 M.ordered
  others j hj hl hr :=
    (precedes_congr (h _ M.right_waits.1) (h _ hj.1)).1 (M.others j ((waits_congr h).2 hj) hl hr)
  weight := by
    rw [← weightAt_congr (h _ M.left_waits.1), ← weightAt_congr (h _ M.right_waits.1)]
    exact M.weight

end

section
variable {L : Nat} {arena : List Node} {queue rest : List Queued} {trees : List Shape} {a b : Queued}

/-- The weights of two queued nodes add up without a wrap (R167). -/
theorem mergedNode_weight (hq : queue.Perm (a :: b :: rest)) (hw : totalWeight queue < 2 ^ 40) :
    (mergedNode a b).weight.toNat = a.weight.toNat + b.weight.toNat := by
  have hmerge := totalWeight_merge 0 hq hw
  have hsum := (hq.map fun q => q.weight.toNat).sum_eq
  simp only [totalWeight, List.map_cons, List.sum_cons] at hmerge hsum
  omega

/-- A merge of the two least of a forest's queue merges the two least waiting nodes. -/
theorem Forest.mergesTwoLeast (F : Forest L arena queue trees) (hR : RemovesTwoLeast queue a b rest)
    (hlen : arena.length ≤ 512) (hw : totalWeight queue < 2 ^ 40) :
    MergesTwoLeast (entries arena) arena.length (mergedNode a b) := by
  have hmem : ∀ x, x ∈ queue ↔ x ∈ a :: b :: rest := fun x => hR.perm.mem_iff
  have ha : a ∈ queue := (hmem a).2 (by simp)
  have hb : b ∈ queue := (hmem b).2 (by simp)
  have hwaits : ∀ x ∈ queue, waits (entries arena) arena.length x.seq := fun x hx =>
    (F.mem_queue_iff_waits _).1 (List.mem_map_of_mem hx)
  have hleft : (mergedNode a b).left.toNat = a.seq :=
    Nat.mod_eq_of_lt (lt_of_lt_of_le (hwaits a ha).1 hlen)
  have hright : (mergedNode a b).right.toNat = b.seq :=
    Nat.mod_eq_of_lt (lt_of_lt_of_le (hwaits b hb).1 hlen)
  have hne : a.seq ≠ b.seq := by
    have hnodup := (hR.perm.map Queued.seq).nodup_iff.1 F.nodup_queue
    exact fun h => (List.nodup_cons.1 hnodup).1 (h ▸ List.mem_cons_self)
  have hother : ∀ j, waits (entries arena) arena.length j → j ≠ a.seq → j ≠ b.seq →
      precedes (entries arena) b.seq j := fun j hj hja hjb => by
    obtain ⟨x, hx, rfl⟩ := List.mem_map.1 ((F.mem_queue_iff_waits j).2 hj)
    have hxrest : x ∈ b :: rest :=
      (List.mem_cons.1 ((hmem x).1 hx)).resolve_left fun h => hja (congrArg Queued.seq h)
    exact (F.precedes_iff_before hb hx).2 (Queued.before_total hjb.symm (hR.second x hxrest))
  exact {
    isLeaf := rfl
    sym := rfl
    left_waits := hleft.symm ▸ hwaits a ha
    right_waits := hright.symm ▸ hwaits b hb
    ordered := by
      rw [hleft, hright, F.precedes_iff_before ha hb]
      exact Queued.before_total hne (hR.first b hb)
    others := by rwa [hleft, hright]
    weight := by rw [hleft, hright, F.weights a ha, F.weights b hb, mergedNode_weight hR.perm hw] }

end

/-- What every merge keeps: the queue holds the roots of a forest, the arena has room for the merges to come, no
weight wraps, and every internal node is the merge of the two least nodes that waited. -/
structure MergeInv (L : Nat) (arena : List Node) (queue : List Queued) : Prop where
  forest : ∃ trees, Forest L arena queue trees
  room   : arena.length + queue.length ≤ 512
  total  : totalWeight queue < 2 ^ 40
  merged : ∀ i n, arena[i]? = some n → n.isLeaf = false → MergesTwoLeast (entries arena) i n

theorem mergeInv_seed (freq : Vector Word 256) :
    MergeInv (presentSymbols freq).length (seedArena freq) (seedQueue freq) where
  forest := ⟨_, seed_forest freq⟩
  room := by
    have hle := length_presentSymbols_le freq
    rw [length_seedQueue, seedArena, List.length_map]
    omega
  total := totalWeight_seedQueue_lt freq
  merged i n hn hnode := by
    have hleaf := isLeaf_of_mem_seedArena (List.mem_of_getElem? hn)
    rw [hleaf] at hnode
    cases hnode

theorem MergeInv.merge {L : Nat} {arena : List Node} {queue rest : List Queued} {a b : Queued}
    (I : MergeInv L arena queue) (hR : RemovesTwoLeast queue a b rest) :
    MergeInv L (arena ++ [mergedNode a b])
      ({ weight := (mergedNode a b).weight, seq := arena.length } :: rest) := by
  obtain ⟨⟨trees, F⟩, hroom, hw, hmerged⟩ := I
  have hlen : queue.length = rest.length + 2 := hR.perm.length_eq
  have hkeep : ∀ k, k < arena.length → entries arena k = entries (arena ++ [mergedNode a b]) k :=
    fun k hk => (List.getElem?_append_left hk).symm
  refine ⟨F.merge hR.perm (by omega) hw, ?_, (totalWeight_merge _ hR.perm hw).trans_lt hw, fun i n hn hnode => ?_⟩
  · simp only [List.length_append, List.length_cons, List.length_nil]
    omega
  · obtain hold | ⟨rfl, rfl⟩ := getElem?_append_singleton_cases hn
    · have hi : i < arena.length := (List.getElem?_eq_some_iff.1 hold).1
      exact (hmerged i n hold hnode).congr fun k hk => hkeep k (by omega)
    · exact (F.mergesTwoLeast hR (by omega) hw).congr hkeep

/-- Every internal node BUILD makes merges the two least nodes that waited. -/
theorem buildArena_mergesTwoLeast {freq : Vector Word 256} {i : Nat} {n : Node}
    (hn : (buildArena freq)[i]? = some n) (hnode : n.isLeaf = false) :
    MergesTwoLeast (entries (buildArena freq)) i n := by
  obtain ⟨_, I⟩ := mergeLoop_invariant MergeInv.merge _ _ _ (mergeInv_seed freq)
  exact I.merged i n hn hnode

theorem isLeaf_of_present_le {freq : Vector Word 256} {i : Nat} {n : Node}
    (hn : (buildArena freq)[i]? = some n) (hi : (presentSymbols freq).length ≤ i) : n.isLeaf = false := by
  by_contra hleaf
  have hseed := getElem?_seedArena_of_leaf hn (Bool.eq_true_of_not_eq_false hleaf)
  have hlt := (List.getElem?_eq_some_iff.1 hseed).1
  rw [seedArena, List.length_map] at hlt
  omega

/-- Settles O37: the merge loop keeps that every internal node merges the two least, and NODE holds its arena. -/
theorem buildMergesTheTwoLeast : Obligations.BuildMergesTheTwoLeast := by
  intro s hs
  have h := length_presentSymbols_ne_zero_iff.2 hs
  refine ⟨_, exec_build_of_present h, fun i hlo hhi => ?_⟩
  have hlo' : (presentSymbols s.freq).length ≤ i := builtState_leafCount s ▸ hlo
  have hhi' : i < (buildArena s.freq).length := builtState_nodeCount h ▸ hhi
  have hn := List.getElem?_eq_getElem hhi'
  have hkeep : ∀ k, k < i → entries (buildArena s.freq) k = (builtState s).nodeAt k := fun k hk =>
    (nodeAt_builtState_of_lt h (by omega)).symm
  have M := (buildArena_mergesTwoLeast hn (isLeaf_of_present_le hn hlo')).congr hkeep
  exact ⟨_, (nodeAt_builtState_of_lt h hhi').trans hn, M.isLeaf, M.sym, M.left_waits, M.right_waits, M.ordered,
    M.others, M.weight⟩

end Sys2Proof.Machine

/-! SUPPORT. The family 42_code_table.md: how GEN and TABLE_COMMIT end (R180, R185, R190), the codes GEN writes
as the paths of a stored tree (R181, R182), the table of a list of codes read back (R183), the codes of a table
as a uniquely decodable code (R186), and with these the statements about the code table. -/

namespace Sys2Proof.Machine

/-! ### How GEN ends (R180, R185) -/

/-- What GEN writes for the symbols and codes of the tree (R180). -/
def generatedState (s : State) (codes : List (Byte × Bits)) : State :=
  { s with code := codeTable codes, maxLen := longestCode (codeTable codes), tableValid := true }

theorem exec_gen_of_not_treeValid {s : State} (h : s.treeValid = false) :
    exec .gen s = .next (complete Instr.gen.opcode .sequence s) := by
  obtain ⟨-, hb⟩ | ⟨hv, -⟩ | ⟨_, hv, -⟩ := genBody_cases s
  · rw [exec_eq, bodyOf, hb, Body.record]
  · exact absurd hv (by simp [h])
  · exact absurd hv (by simp [h])

theorem exec_gen_of_codes {s : State} {codes : List (Byte × Bits)} (h : s.treeValid = true)
    (hc : treeCodes s.nodeAt (s.nodeCount.toNat - 1) = some codes) :
    exec .gen s = .next (complete Instr.gen.opcode .none (generatedState s codes)) := by
  obtain ⟨hv, -⟩ | ⟨-, hnone, -⟩ | ⟨_, -, hsome, hb⟩ := genBody_cases s
  · exact absurd h (by simp [hv])
  · cases hc.symm.trans hnone
  · cases hc.symm.trans hsome
    rw [exec_eq, bodyOf, hb, Body.record, generatedState]

/-- Settles O38: without a tree GEN ends in the first of its ways. -/
theorem genNeedsATree : Obligations.GenNeedsATree := fun _ => exec_gen_of_not_treeValid

/-! ### The paths of a stored tree (R181, R182) -/

section
variable {f : Nat → Option Node} {t : Shape}

/-- A leaf of the shape is a leaf entry of the arena. -/
theorem Shape.isLeaf_of_mem_leaves (ht : t.storedIn f) {i : Nat} (hi : i ∈ t.leaves) :
    ∃ n, f i = some n ∧ n.isLeaf = true := by
  induction t with
  | leaf j =>
    obtain ⟨b, w, hj⟩ := ht
    cases List.mem_singleton.1 hi
    exact ⟨_, hj, rfl⟩
  | node j l r ihl ihr =>
    obtain ⟨-, hl, hr⟩ := ht
    exact (List.mem_append.1 hi).elim (ihl hl) (ihr hr)

/-- A leaf entry among the tree's nodes is a leaf of the shape. -/
theorem Shape.mem_leaves_of_isLeaf (ht : t.storedIn f) {i : Nat} {n : Node} (hi : i ∈ t.indices)
    (hn : f i = some n) (hleaf : n.isLeaf = true) : i ∈ t.leaves := by
  induction t with
  | leaf j => exact hi
  | node j l r ihl ihr =>
    obtain ⟨⟨m, hm, hinner, -⟩, hl, hr⟩ := ht
    obtain rfl | hi := List.mem_cons.1 hi
    · cases hm.symm.trans hn
      cases hinner.symm.trans hleaf
    · exact List.mem_append.2 ((List.mem_append.1 hi).imp (ihl hl) (ihr hr))

theorem follow_cons_of_inner {i : Nat} {n : Node} (hn : f i = some n) (hinner : n.isLeaf = false) (x : Bool)
    (p : Bits) : follow f i (x :: p) = follow f (if x then n.right.toNat else n.left.toNat) p := by
  rw [follow, hn]
  exact if_neg (by simp [hinner])

/-- Each listed path leads from the root to its leaf, below the path the root itself has (R181). -/
theorem Shape.follow_of_mem_paths (ht : t.storedIn f) {p q : Bits} {i : Nat} (hq : (i, q) ∈ t.paths p) :
    ∃ q', q = p ++ q' ∧ follow f t.root q' = some i := by
  induction t generalizing p with
  | leaf j =>
    cases List.mem_singleton.1 hq
    exact ⟨[], (List.append_nil _).symm, rfl⟩
  | node j l r ihl ihr =>
    obtain ⟨⟨n, hn, hinner, -, hleft, hright, -⟩, hl, hr⟩ := ht
    obtain hq | hq := List.mem_append.1 hq
    · obtain ⟨q', rfl, hf⟩ := ihl hl hq
      exact ⟨false :: q', List.append_assoc p _ _, by
        rw [Shape.root, follow_cons_of_inner hn hinner, if_neg Bool.false_ne_true, hleft, hf]⟩
    · obtain ⟨q', rfl, hf⟩ := ihr hr hq
      exact ⟨true :: q', List.append_assoc p _ _, by
        rw [Shape.root, follow_cons_of_inner hn hinner, if_pos rfl, hright, hf]⟩

/-- GEN's code of a leaf is its path, or "0" where the root is the leaf (R182, R184). -/
theorem Shape.mem_codes_of_mem_paths {i : Nat} {p : Bits} (hp : (i, p) ∈ t.paths []) :
    (symbolAt f i, if p = [] then [false] else p) ∈ t.codes f := by
  cases t with
  | leaf j =>
    cases List.mem_singleton.1 hp
    exact List.mem_singleton.2 rfl
  | node j l r =>
    have hcode : (symbolAt f i, p) ∈ (Shape.node j l r).codes f := List.mem_map_of_mem hp
    have hpos : 1 ≤ p.length := (Shape.length_codes f _ _ hcode).1
    rwa [if_neg (List.ne_nil_of_length_pos hpos)]

/-- Every leaf of a stored tree has its path to it as its code (R181, R182, R184). -/
theorem Shape.exists_path_of_mem_leaves (ht : t.storedIn f) {i : Nat} (hi : i ∈ t.leaves) :
    ∃ p, follow f t.root p = some i ∧ (symbolAt f i, if p = [] then [false] else p) ∈ t.codes f := by
  rw [← t.map_fst_paths []] at hi
  obtain ⟨⟨_, p⟩, hp, rfl⟩ := List.mem_map.1 hi
  obtain ⟨_, rfl, hfollow⟩ := Shape.follow_of_mem_paths ht hp
  exact ⟨_, hfollow, Shape.mem_codes_of_mem_paths hp⟩

end

/-! ### The table of a list of codes (R180, R183) -/

/-- After its code an entry's field is zero (R180). -/
theorem codeEntry_getMsbD_of_le {p : Bits} (hp : p.length ≤ 255) {j : Nat} (hlen : (codeEntry p).len.toNat ≤ j)
    (hj : j < 256) : (codeEntry p).field.getMsbD j = false := by
  rw [← CodeEntry.length_bits, codeEntry_bits p hp] at hlen
  rw [codeEntry, codeField_getMsbD p (by omega) j hj]
  simp [hlen]

theorem codedSymbols_nodup (code : Vector CodeEntry 256) : (codedSymbols code).Nodup :=
  allSymbols_nodup.filter _

section
variable {codes : List (Byte × Bits)} (hn : (codes.map Prod.fst).Nodup)
include hn

/-- A symbol of the table with a code is one the list names, with the entry of its code. -/
theorem exists_mem_of_codeTable_hasCode {b : Byte} (hb : (atSymbol (codeTable codes) b).hasCode = true) :
    ∃ p, (b, p) ∈ codes ∧ atSymbol (codeTable codes) b = codeEntry p := by
  by_cases hmem : b ∈ codes.map Prod.fst
  · obtain ⟨⟨_, p⟩, hp, rfl⟩ := List.mem_map.1 hmem
    exact ⟨p, hp, codeTable_of_mem codes hn _ p hp⟩
  · rw [codeTable_of_not_mem codes b hmem] at hb
    cases hb

/-- The symbols with a code are the ones the list names, so they are as many (R183). -/
theorem length_codedSymbols_codeTable (hlen : ∀ x ∈ codes, 1 ≤ x.2.length ∧ x.2.length ≤ 255) :
    (codedSymbols (codeTable codes)).length = codes.length := by
  have hmem : ∀ b, b ∈ codedSymbols (codeTable codes) ↔ b ∈ codes.map Prod.fst := by
    intro b
    rw [mem_codedSymbols]
    constructor
    · intro hb
      obtain ⟨p, hp, -⟩ := exists_mem_of_codeTable_hasCode hn hb
      exact List.mem_map_of_mem hp
    · intro hb
      obtain ⟨⟨_, p⟩, hp, rfl⟩ := List.mem_map.1 hb
      obtain ⟨hpos, hle⟩ := hlen _ hp
      rw [codeTable_of_mem codes hn _ p hp, codeEntry_hasCode p hle]
      exact List.ne_nil_of_length_pos hpos
  have hperm := (List.perm_ext_iff_of_nodup (codedSymbols_nodup _) hn).2 hmem
  exact hperm.length_eq.trans (List.length_map _)

end

/-- Settles O39: GEN's codes are those of the stored tree, each leaf's its path, and the longest is one of them. -/
theorem genDerivesTheCodes : Obligations.GenDerivesTheCodes := by
  intro s hs hv
  obtain ⟨t, ht, hroot, hindices, hleaves, hnodup⟩ := hs.tree
  have hle : t.leaves.length ≤ 256 := hleaves ▸ hs.leafCount_le
  have hn : ((t.codes s.nodeAt).map Prod.fst).Nodup := t.map_fst_codes s.nodeAt ▸ hnodup
  refine ⟨_, _, exec_gen_of_codes hv (hroot ▸ treeCodes_stored t ht hle), fun i n hni hleaf hi => ?_,
    fun b hb => codeTable_of_not_mem _ b fun hmem => ?_, len_le_longestCode _, exists_longestCode _⟩
  · have hmem : i ∈ t.leaves := Shape.mem_leaves_of_isLeaf ht (hindices.mem_iff.2 (List.mem_range.2 hi)) hni hleaf
    obtain ⟨p, hfollow, hcode⟩ := Shape.exists_path_of_mem_leaves ht hmem
    have hlen : (if p = [] then [false] else p).length ≤ 255 := by
      have hmax := (t.length_codes s.nodeAt _ hcode).2
      exact hmax.trans (by omega)
    have hsym : symbolAt s.nodeAt i = n.sym := by rw [symbolAt, hni]
    rw [hsym] at hcode
    rw [codeTable_of_mem _ hn _ _ hcode]
    exact ⟨p, hroot ▸ hfollow, codeEntry_bits _ hlen, fun j => codeEntry_getMsbD_of_le hlen⟩
  · rw [t.map_fst_codes] at hmem
    obtain ⟨i, hi, rfl⟩ := List.mem_map.1 hmem
    obtain ⟨n, hni, hleaf⟩ := Shape.isLeaf_of_mem_leaves ht hi
    exact hb i n hni hleaf (by rw [symbolAt, hni])

/-- Settles O40: the table of the tree's codes is one TABLE_VALID may announce, with an entry for each of them. -/
theorem genTableIsAPrefixCode : Obligations.GenTableIsAPrefixCode := by
  intro s hs hv
  obtain ⟨codes, hcodes, -, hn, hcount, hlen, hok⟩ := hs.codes
  have hlen255 : ∀ x ∈ codes, 1 ≤ x.2.length ∧ x.2.length ≤ 255 := fun x hx => by
    have := hs.leafCount_le
    have := hlen x hx
    omega
  refine ⟨_, exec_gen_of_codes hv hcodes, hok, (length_codedSymbols_codeTable hn hlen255).trans hcount,
    fun b hb => ?_⟩
  obtain ⟨p, hp, hentry⟩ := exists_mem_of_codeTable_hasCode hn hb
  have hbits : (atSymbol (codeTable codes) b).len.toNat = p.length := by
    rw [hentry, ← CodeEntry.length_bits, codeEntry_bits p (hlen255 _ hp).2]
  exact hbits ▸ hlen _ hp

/-! ### The Kraft inequality (R186) -/

/-- Words of which none is empty and none begins another are uniquely decodable: of two splits of one string, one
begins with the other's first word, so the first words are equal. -/
theorem uniquelyDecodable_of_prefix_eq {S : Set Bits} (hnil : [] ∉ S)
    (hS : ∀ x ∈ S, ∀ y ∈ S, x <+: y → x = y) : InformationTheory.UniquelyDecodable S := by
  intro L
  induction L with
  | nil =>
    rintro (_ | ⟨y, M⟩) - hM heq
    · rfl
    · obtain ⟨rfl, -⟩ := List.append_eq_nil_iff.1 heq.symm
      exact absurd (hM [] List.mem_cons_self) hnil
  | cons x L ih =>
    rintro (_ | ⟨y, M⟩) hL hM heq
    · obtain ⟨rfl, -⟩ := List.append_eq_nil_iff.1 heq
      exact absurd (hL [] List.mem_cons_self) hnil
    · obtain ⟨hx, hLtail⟩ := List.forall_mem_cons.1 hL
      obtain ⟨hy, hMtail⟩ := List.forall_mem_cons.1 hM
      rw [List.flatten_cons, List.flatten_cons] at heq
      have hxy : x = y :=
        (List.prefix_or_prefix_of_prefix (List.prefix_append x _) (heq ▸ List.prefix_append y _)).elim
          (hS x hx y hy) fun h => (hS y hy x hx h).symm
      subst hxy
      rw [ih M hLtail hMtail (List.append_cancel_left heq)]

/-- The codes of a table (R53). -/
def codeWordSet (code : Vector CodeEntry 256) : Finset Bits :=
  (codedSymbols code).toFinset.image fun b => (atSymbol code b).bits

theorem mem_codeWordSet {code : Vector CodeEntry 256} {x : Bits} :
    x ∈ codeWordSet code ↔ ∃ b, (atSymbol code b).hasCode = true ∧ (atSymbol code b).bits = x := by
  simp [codeWordSet]

/-- In a table without a clash a code begins one symbol's code only, that symbol's own (R191). -/
theorem PrefixFree.eq_of_prefix {code : Vector CodeEntry 256} (h : PrefixFree code) {b c : Byte}
    (hb : (atSymbol code b).hasCode = true) (hc : (atSymbol code c).hasCode = true)
    (hbc : (atSymbol code b).bits <+: (atSymbol code c).bits) : b = c := by
  by_contra hne
  exact (isPrefix_eq_false _ _).1 (h b c hne hb hc) hbc

theorem PrefixFree.uniquelyDecodable {code : Vector CodeEntry 256} (h : PrefixFree code) :
    InformationTheory.UniquelyDecodable (codeWordSet code : Set Bits) := by
  refine uniquelyDecodable_of_prefix_eq (fun hmem => ?_) fun x hx y hy hxy => ?_
  · obtain ⟨b, hb, hnil⟩ := mem_codeWordSet.1 hmem
    have hpos := (CodeEntry.hasCode_iff _).1 hb
    exact List.ne_nil_of_length_pos hpos hnil
  · obtain ⟨b, hb, rfl⟩ := mem_codeWordSet.1 hx
    obtain ⟨c, hc, rfl⟩ := mem_codeWordSet.1 hy
    rw [h.eq_of_prefix hb hc hxy]

/-- A code's term of the Kraft sum is `2^(−len)` in units of `2^(−255)` (R186). -/
theorem CodeEntry.kraftTerm_eq (e : CodeEntry) :
    ((2 ^ (255 - e.len.toNat) : Nat) : ℝ) = 2 ^ 255 * (1 / 2) ^ e.bits.length := by
  have hle : e.len.toNat ≤ 255 := Nat.le_of_lt_succ e.len.isLt
  rw [CodeEntry.length_bits, one_div, inv_pow, ← pow_sub₀ 2 two_ne_zero hle, Nat.cast_pow, Nat.cast_ofNat]

/-- The codes of a table without a clash are distinct, so its Kraft sum is a sum over them (R186). -/
theorem PrefixFree.kraftSum_eq {code : Vector CodeEntry 256} (h : PrefixFree code) :
    (kraftSum code : ℝ) = 2 ^ 255 * ∑ x ∈ codeWordSet code, (1 / 2) ^ x.length := by
  have hinj : Set.InjOn (fun b => (atSymbol code b).bits) (codedSymbols code).toFinset := by
    intro b hb c hc hbc
    rw [List.coe_toFinset] at hb hc
    exact h.eq_of_prefix ((mem_codedSymbols _ _).1 hb) ((mem_codedSymbols _ _).1 hc)
      ⟨[], (List.append_nil _).trans hbc⟩
  rw [codeWordSet, Finset.sum_image hinj, Finset.mul_sum, kraftSum,
    ← List.sum_toFinset _ (codedSymbols_nodup code), Nat.cast_sum]
  exact Finset.sum_congr rfl fun b _ => (atSymbol code b).kraftTerm_eq

/-- Settles O41: the codes are uniquely decodable, so the Kraft-McMillan inequality holds of them. -/
theorem kraftInequality : Obligations.KraftInequality := by
  intro code hok
  have hkraft := InformationTheory.kraft_mcmillan_inequality hok.prefixFree.uniquelyDecodable
  rw [Fintype.card_bool, Nat.cast_ofNat] at hkraft
  have hreal : (kraftSum code : ℝ) ≤ 2 ^ 255 := by
    rw [hok.prefixFree.kraftSum_eq]
    exact mul_le_of_le_one_right (by positivity) hkraft
  exact_mod_cast hreal

/-! ### How TABLE_COMMIT ends (R190, R191) -/

theorem exec_tableCommit_of_tableOk {s : State} (h : TableOk s.code) :
    exec .tableCommit s = .next (complete Instr.tableCommit.opcode .none
      { s with maxLen := longestCode s.code, tableValid := true }) := by
  obtain ⟨hno, -⟩ | ⟨-, hb⟩ := tableCommitBody_cases s
  · exact absurd h hno
  · rw [exec_eq, bodyOf, hb, Body.record]

theorem exec_tableCommit_of_not_tableOk {s : State} (h : ¬ TableOk s.code) :
    exec .tableCommit s = .next (complete Instr.tableCommit.opcode .tableFormat
      { s with tableValid := false }) := by
  obtain ⟨-, hb⟩ | ⟨hok, -⟩ := tableCommitBody_cases s
  · rw [exec_eq, bodyOf, hb, Body.record]
  · exact absurd hok h

/-- Settles O42: an allowed table is accepted, and MAX_LEN is the longest of its lengths. -/
theorem tableCommitAccepts : Obligations.TableCommitAccepts := fun _ hok =>
  ⟨_, exec_tableCommit_of_tableOk hok, len_le_longestCode _, exists_longestCode _⟩

theorem CodeEntry.hasCode_iff_len_ne_zero {e : CodeEntry} : e.hasCode = true ↔ e.len ≠ 0 := bne_iff_ne

/-- Settles O43: a table that is empty, or in which codes clash, is none that TABLE_VALID may announce. -/
theorem tableCommitRefuses : Obligations.TableCommitRefuses := by
  intro s
  constructor
  · intro hempty
    refine exec_tableCommit_of_not_tableOk fun hok => ?_
    obtain ⟨b, hb⟩ := hok.nonempty
    exact CodeEntry.hasCode_iff_len_ne_zero.1 hb (hempty b)
  · intro b c hne hb hc hbc
    refine exec_tableCommit_of_not_tableOk fun hok => hne ?_
    exact hok.prefixFree.eq_of_prefix (CodeEntry.hasCode_iff_len_ne_zero.2 hb)
      (CodeEntry.hasCode_iff_len_ne_zero.2 hc) hbc

end Sys2Proof.Machine

/-! SUPPORT. The family 43_bit_packer.md: how ENCODE ends (R200, R203), the bits and bytes of the payload it
packs (R201, R202, R206), and with these the statements about ENCODE; after them, the error codes of the eight
commands (R204, R244, R260). -/

namespace Sys2Proof.Machine

/-! ### How ENCODE ends (R200, R203) -/

theorem mem_symBytes {s : State} {n : Nat} {b : Byte} :
    b ∈ s.symBytes 0 n ↔ ∃ i, i < n ∧ s.symByte i = b := by
  simp [State.symBytes, ← List.range_eq_range']

theorem CodeEntry.hasCode_eq_false_iff {e : CodeEntry} : e.hasCode = false ↔ e.len = 0 := bne_eq_false_iff_eq

section
variable {s : State}

theorem exec_encode_of_not_tableValid (h : s.tableValid = false) :
    exec .encode s = .next (complete Instr.encode.opcode .missingCodeTable s) := by
  obtain ⟨-, hb⟩ | ⟨hv, -⟩ | ⟨hv, -⟩ | ⟨hv, -⟩ | ⟨hv, -⟩ := encodeBody_cases s
  case inl => rw [exec_eq, bodyOf, hb, Body.record]
  all_goals cases h.symm.trans hv

variable (hv : s.tableValid = true)
include hv

theorem exec_encode_of_depth_lt (h : s.symDepth < s.symLen.toNat) :
    exec .encode s = .next (complete Instr.encode.opcode .capacity s) := by
  obtain ⟨hno, -⟩ | ⟨-, -, hb⟩ | ⟨-, hle, -⟩ | ⟨-, hle, -⟩ | ⟨-, hle, -⟩ := encodeBody_cases s
  · cases hno.symm.trans hv
  · rw [exec_eq, bodyOf, hb, Body.record]
  all_goals omega

theorem exec_encode_of_symLen_eq_zero (h : s.symLen.toNat = 0) :
    exec .encode s = .next (complete Instr.encode.opcode .emptyInput s) := by
  obtain ⟨hno, -⟩ | ⟨-, hlt, -⟩ | ⟨-, -, -, hb⟩ | ⟨-, -, hne, -⟩ | ⟨-, -, hne, -⟩ := encodeBody_cases s
  · cases hno.symm.trans hv
  · omega
  · rw [exec_eq, bodyOf, hb, Body.record]
  all_goals exact absurd h hne

variable (hle : s.symLen.toNat ≤ s.symDepth)
include hle

theorem exec_encode_of_uncoded {i : Nat} (hi : i < s.symLen.toNat)
    (h : (atSymbol s.code (s.symByte i)).len = 0) :
    exec .encode s = .next (complete Instr.encode.opcode .missingCodeTable s) := by
  obtain ⟨hno, -⟩ | ⟨-, hlt, -⟩ | ⟨-, -, h0, -⟩ | ⟨-, -, -, -, hb⟩ | ⟨-, -, -, hall, -⟩ := encodeBody_cases s
  · cases hno.symm.trans hv
  · omega
  · omega
  · rw [exec_eq, bodyOf, hb, Body.record]
  · exact absurd h (CodeEntry.hasCode_iff_len_ne_zero.1 (hall _ (mem_symBytes.2 ⟨i, hi, rfl⟩)))

/-- Where every symbol has a code, the size of the payload decides (R203 check 6, R205). -/
theorem exec_encode_of_coded (hne : s.symLen.toNat ≠ 0)
    (hcode : ∀ i, i < s.symLen.toNat → (atSymbol s.code (s.symByte i)).len ≠ 0) {d : Bits}
    (hd : d = codeString s.code (s.symBytes 0 s.symLen.toNat)) :
    exec .encode s = .next (if s.payDepth < 1 + (d.length + 7) / 8
      then complete Instr.encode.opcode .capacity s
      else complete Instr.encode.opcode .none (packedState s d)) := by
  subst hd
  rw [← length_frame_div]
  obtain ⟨hno, -⟩ | ⟨-, hlt, -⟩ | ⟨-, -, h0, -⟩ | ⟨-, -, -, ⟨b, hb, hno⟩, -⟩ |
    ⟨-, -, -, -, ⟨hlt, hb⟩ | ⟨hfit, hb⟩⟩ := encodeBody_cases s
  · cases hno.symm.trans hv
  · omega
  · exact absurd h0 hne
  · obtain ⟨i, hi, rfl⟩ := mem_symBytes.1 hb
    exact absurd (CodeEntry.hasCode_eq_false_iff.1 hno) (hcode i hi)
  · rw [exec_eq, bodyOf, hb, Body.record, if_pos hlt]
  · rw [exec_eq, bodyOf, hb, Body.record, if_neg hfit.not_gt]

end

/-- Settles O44: each check that fails is one of ENCODE's ends. -/
theorem encodeErrorsInOrder : Obligations.EncodeErrorsInOrder := by
  intro s
  refine ⟨exec_encode_of_not_tableValid, exec_encode_of_depth_lt, exec_encode_of_symLen_eq_zero, ?_, ?_⟩
  · rintro hv hle ⟨i, hi, h⟩
    exact exec_encode_of_uncoded hv hle hi h
  · intro hv hle hne hcode hlt
    rw [exec_encode_of_coded hv hle hne hcode rfl, if_pos hlt]
    rfl

/-! ### Packed bits read back (R9, R86) -/

theorem getElem?_be8 {v : Byte} {j : Nat} (hj : j < 8) : (be8 v)[j]? = some (v.getMsbD j) := by
  simp [be8, hj]

/-- Bit `q` of a byte string is bit `q mod 8`, from the most significant on, of byte `⌊q/8⌋` (R9). -/
theorem getElem?_unpackMSB (bytes : List Byte) (q : Nat) :
    (unpackMSB bytes)[q]? = bytes[q / 8]?.map (·.getMsbD (q % 8)) := by
  induction bytes generalizing q with
  | nil => rfl
  | cons v vs ih =>
    rw [unpackMSB, List.flatMap_cons, ← unpackMSB]
    by_cases hq : q < 8
    · rw [List.getElem?_append_left (by simpa using hq), getElem?_be8 hq, Nat.div_eq_of_lt hq,
        Nat.mod_eq_of_lt hq]
      rfl
    · rw [List.getElem?_append_right (by simpa using hq), length_be8, ih,
        show q / 8 = (q - 8) / 8 + 1 by omega, show (q - 8) % 8 = q % 8 by omega, List.getElem?_cons_succ]

/-- Past its bits a zero-padded string reads 0. -/
theorem getElem?_append_zeros {d : Bits} {n q : Nat} (hq : q < d.length + n) :
    (d ++ zeros n)[q]? = some (d[q]?.getD false) := by
  by_cases hd : q < d.length
  · rw [List.getElem?_append_left hd, List.getElem?_eq_getElem hd, Option.getD_some]
  · rw [List.getElem?_append_right (by omega), List.getElem?_eq_none (l := d) (by omega)]
    simp only [zeros, List.getElem?_replicate, Option.getD_none]
    exact if_pos (by omega)

/-! ### The payload ENCODE packs (R201, R202, R205, R206) -/

theorem codeString_symBytes (s : State) (n : Nat) : codeString s.code (s.symBytes 0 n)
    = (List.range n).flatMap fun i => (atSymbol s.code (s.symByte i)).bits := by
  rw [codeString, State.symBytes, ← List.range_eq_range', List.flatMap_map]

/-- The payload's bytes are the packed frame; beyond it nothing is written (R206). -/
theorem packedState_payByte (s : State) (d : Bits) (i : Nat) :
    (packedState s d).payByte i = (packMSB (frame d))[i]?.getD (s.payByte i) := by
  rw [State.payByte, packedState, lookup_storeBytes]
  by_cases hi : i < (packMSB (frame d)).length
  · simp [hi]
  · simp [hi, State.payByte]

theorem packedState_payByte_zero (s : State) (d : Bits) :
    (packedState s d).payByte 0 = BitVec.ofNat 8 (padCount d.length) := by
  rw [packedState_payByte, packMSB_frame]
  rfl

theorem packedState_payByte_of_le {s : State} {d : Bits} {i : Nat} (hi : 1 + (d.length + 7) / 8 ≤ i) :
    (packedState s d).payByte i = s.payByte i := by
  rw [packedState_payByte, List.getElem?_eq_none]
  · rfl
  · rwa [length_packMSB, length_frame_div]

/-- The bits after the header are the code string and zeros (R201, R202). -/
theorem packedState_payByte_getMsbD {s : State} {d : Bits} {q : Nat} (hq : q < 8 * ((d.length + 7) / 8)) :
    ((packedState s d).payByte (1 + q / 8)).getMsbD (q % 8) = d[q]?.getD false := by
  have hpad : d.length + padCount d.length = 8 * ((d.length + 7) / 8) := by unfold padCount; omega
  have hwhole : (d ++ zeros (padCount d.length)).length % 8 = 0 := by simp [hpad]
  have hbit := getElem?_unpackMSB (packMSB (d ++ zeros (padCount d.length))) q
  rw [unpackMSB_packMSB _ hwhole, getElem?_append_zeros (hpad ▸ hq)] at hbit
  obtain ⟨v, hbyte, hv⟩ := Option.map_eq_some_iff.1 hbit.symm
  rw [packedState_payByte, packMSB_frame, Nat.add_comm, List.getElem?_cons_succ, hbyte]
  exact hv

/-- Settles O45: the state ENCODE leaves is `packedState`, whose fields do not wrap within the depths. -/
theorem encodePacksThePayload : Obligations.EncodePacksThePayload := by
  intro s hdepths hv hpos hle hcode d hd hfit
  have hpay := hdepths.pay_le
  have hpad := padCount_lt d.length
  have hL : (BitVec.ofNat 32 ((frame d).length / 8)).toNat = 1 + (d.length + 7) / 8 := by
    rw [length_frame_div, BitVec.toNat_ofNat]; omega
  refine ⟨packedState s d, _, _, _, _, rfl, ?_, hL, ?_, ?_, ?_, fun q hq => ?_, fun i hi => ?_⟩
  · rw [exec_encode_of_coded hv hle (by omega) hcode (hd.trans (codeString_symBytes s _).symm),
      if_neg (by omega)]
    rfl
  · rw [BitVec.toNat_ofNat]; omega
  · exact Nat.mod_eq_of_lt hpad
  · rw [packedState_payByte_zero]
    exact Nat.mod_eq_of_lt (by omega)
  · exact packedState_payByte_getMsbD (by omega)
  · exact packedState_payByte_of_le (hL ▸ hi)

/-! ### The error codes of the commands (R204, R244, R260) -/

/-- A command's completion code is one of those its body can end with. -/
theorem errCode_mem_of_exec {i : Instr} {s t : State} {codes : List ErrCode}
    (hbody : ∀ e u, (bodyOf i s).result = some (e, u) → e ∈ codes) (h : exec i s = .next t) :
    t.errCode ∈ codes := by
  obtain ⟨e, u, hu, rfl⟩ := (exec_next i s t).1 h
  exact hbody e u hu

section
variable {s u : State} {e : ErrCode}

theorem countBody_errCode (h : (countBody s).result = some (e, u)) :
    e ∈ [.none, .emptyInput, .capacity] := by
  obtain ⟨-, hb⟩ | ⟨-, -, hb⟩ | ⟨-, -, hb⟩ := countBody_cases s <;> rw [hb] at h <;> cases h <;> decide

theorem buildBody_errCode (h : (buildBody s).result = some (e, u)) : e ∈ [.none, .emptyInput] := by
  obtain ⟨-, hb⟩ | ⟨-, hb⟩ := buildBody_cases s <;> rw [hb] at h <;> cases h <;> decide

theorem genBody_errCode (h : (genBody s).result = some (e, u)) : e ∈ [.none, .sequence] := by
  obtain ⟨-, hb⟩ | ⟨-, -, hb⟩ | ⟨_, -, -, hb⟩ := genBody_cases s <;> rw [hb] at h <;> cases h <;> decide

theorem encodeBody_errCode (h : (encodeBody s).result = some (e, u)) :
    e ∈ [.none, .emptyInput, .missingCodeTable, .capacity] := by
  obtain ⟨-, hb⟩ | ⟨-, -, hb⟩ | ⟨-, -, -, hb⟩ | ⟨-, -, -, -, hb⟩ | ⟨-, -, -, -, ⟨-, hb⟩ | ⟨-, hb⟩⟩ :=
    encodeBody_cases s <;> rw [hb] at h <;> cases h <;> decide

theorem decodeBody_errCode (h : (decodeBody s).result = some (e, u)) :
    e ∈ [.none, .corruptData, .missingCodeTable, .capacity] := by
  obtain ⟨-, hb⟩ | ⟨-, -, hb⟩ | ⟨-, -, -, hb⟩ | ⟨-, -, -, -, -, hb⟩ := decodeBody_cases s <;> rw [hb] at h
  case inr.inr.inr =>
    obtain ⟨_, _, -, -, ⟨-, hd⟩ | ⟨-, hd⟩ | ⟨-, hd⟩⟩ :=
      decodeWalk_cases s (s.payByte 0).toNat (decodeData s) <;> rw [hd] at h <;> cases h <;> decide
  all_goals cases h; decide

theorem tableCommitBody_errCode (h : (tableCommitBody s).result = some (e, u)) :
    e ∈ [.none, .tableFormat] := by
  obtain ⟨-, hb⟩ | ⟨-, hb⟩ := tableCommitBody_cases s <;> rw [hb] at h <;> cases h <;> decide

theorem compressBody_of_raise (h : countBody s = .raise e u) : compressBody s = .raise e u := by
  simp only [compressBody, h, Body.andThen]

/-- COMPRESS ends with COUNT's error, or past COUNT with ENCODE's CAPACITY or none (R244). -/
theorem compressBody_errCode (hd : DepthsLegal s.symDepth s.payDepth)
    (h : (compressBody s).result = some (e, u)) : e ∈ [.none, .emptyInput, .capacity] := by
  obtain ⟨-, hc⟩ | ⟨-, -, hc⟩ | ⟨hle, hne, -⟩ := countBody_cases s
  · rw [compressBody_of_raise hc] at h; cases h; decide
  · rw [compressBody_of_raise hc] at h; cases h; decide
  · obtain ⟨_, -, -, -, ⟨-, hb⟩ | ⟨-, hb⟩⟩ := compressBody_fits s hd hne hle <;> rw [hb] at h <;> cases h <;>
      decide

end

/-- Settles O8: for each command, the codes among the ends of its body. -/
theorem commandsRaiseOnlyTheirErrors : Obligations.CommandsRaiseOnlyTheirErrors := fun s _ =>
  ⟨fun h => List.mem_singleton.1 (errCode_mem_of_exec (fun _ _ h => by cases h; decide) h),
    errCode_mem_of_exec fun _ _ => countBody_errCode,
    errCode_mem_of_exec fun _ _ => buildBody_errCode,
    errCode_mem_of_exec fun _ _ => genBody_errCode,
    errCode_mem_of_exec fun _ _ => encodeBody_errCode,
    errCode_mem_of_exec fun _ _ => decodeBody_errCode,
    errCode_mem_of_exec fun _ _ => tableCommitBody_errCode,
    fun hd => errCode_mem_of_exec fun _ _ => compressBody_errCode hd⟩

end Sys2Proof.Machine

/-! SUPPORT. The family 44_prefix_decoder.md: the table COMPRESS and its stages leave as `tableFor` names it (R240)
and the symbols DECODE gives back from their payload (R229), how DECODE ends (R220, R224), the data bits it reads
(R225, R226), the splits of a bit string into codes (R222, R231) and the walk over a split, and with these the
statements about DECODE. -/

namespace Sys2Proof.Machine

/-! ### The table of a symbol sequence (R240) -/

section
variable {f g : Nat → Option Node} (hfg : ∀ i n, f i = some n → g i = some n)
include hfg

/-- An arena that keeps every entry keeps what GEN's walk finds. -/
theorem visit_mono {levels i : Nat} {p : Bits} {codes : List (Byte × Bits)}
    (h : visit f levels i p = some codes) : visit g levels i p = some codes := by
  induction levels generalizing i p codes with
  | zero => cases h
  | succ levels ih =>
    rw [visit] at h ⊢
    cases hn : f i with
    | none => simp only [hn] at h; cases h
    | some n =>
      simp only [hn, hfg i n hn] at h ⊢
      cases hleaf : n.isLeaf with
      | true => simpa [hleaf] using h
      | false =>
        cases hl : visit f levels n.left.toNat (p ++ [false]) with
        | none => simp [hleaf, hl] at h
        | some l =>
          cases hr : visit f levels n.right.toNat (p ++ [true]) with
          | none => simp [hleaf, hl, hr] at h
          | some r => simpa [hleaf, hl, hr, ih hl, ih hr] using h

theorem treeCodes_mono {root : Nat} {codes : List (Byte × Bits)} (h : treeCodes f root = some codes) :
    treeCodes g root = some codes := by
  unfold treeCodes at h ⊢
  cases hn : f root with
  | none => simp only [hn] at h; cases h
  | some n =>
    simp only [hn, hfg root n hn] at h ⊢
    cases hleaf : n.isLeaf with
    | true => simpa [hleaf] using h
    | false =>
      simp only [hleaf, Bool.false_eq_true, if_false] at h ⊢
      exact visit_mono hfg h

end

/-- The codes GEN finds in NODE after BUILD are those of the arena BUILD made. -/
theorem treeCodes_builtState {s : State} (h : (presentSymbols s.freq).length ≠ 0) :
    treeCodes (builtState s).nodeAt ((builtState s).nodeCount.toNat - 1)
      = treeCodes (entries (buildArena s.freq)) ((buildArena s.freq).length - 1) := by
  obtain ⟨t, hst, hroot, -, hleaves, -⟩ := buildArena_tree s.freq h
  have hcount : t.leaves.length ≤ 256 := by
    rw [hleaves.length_eq, List.length_range]
    exact length_presentSymbols_le s.freq
  have hcodes := treeCodes_stored t hst hcount
  have hkeep : ∀ i n, entries (buildArena s.freq) i = some n → (builtState s).nodeAt i = some n :=
    fun i n hn => (nodeAt_builtState_of_lt h (List.getElem?_eq_some_iff.1 hn).1).trans hn
  rw [builtState_nodeCount h, ← hroot, hcodes, treeCodes_mono hkeep hcodes]

/-- GEN's codes after COUNT and BUILD make the table `tableFor` names (R240). -/
theorem codeTable_eq_tableFor {s : State} {S : List Byte} {codes : List (Byte × Bits)}
    (hS : s.freq = countSymbols S) (h : (presentSymbols s.freq).length ≠ 0)
    (hc : treeCodes (builtState s).nodeAt ((builtState s).nodeCount.toNat - 1) = some codes) :
    codeTable codes = tableFor S := by
  rw [treeCodes_builtState h, hS] at hc
  rw [tableFor]
  simp only [hc]

theorem length_presentSymbols_countSymbols_ne_zero {S : List Byte} (hne : S ≠ []) (hlen : S.length < 2 ^ 32) :
    (presentSymbols (countSymbols S)).length ≠ 0 := by
  obtain ⟨b, hb⟩ := List.exists_mem_of_ne_nil S hne
  exact length_presentSymbols_ne_zero_iff.2 ⟨b, countSymbols_ne_zero hlen hb⟩

/-! ### COMPRESS and its stages on an input that fits (R240, R244) -/

/-- What COUNT writes for the input (R140). -/
def countedState (s : State) : State := { s with freq := countSymbols (s.symBytes 0 s.symLen.toNat) }

theorem length_presentSymbols_countedState_ne_zero {s : State} (hpos : 1 ≤ s.symLen.toNat) :
    (presentSymbols (countedState s).freq).length ≠ 0 := by
  have hlen : (s.symBytes 0 s.symLen.toNat).length = s.symLen.toNat := length_symBytes s 0 _
  exact length_presentSymbols_countSymbols_ne_zero (List.ne_nil_of_length_pos (by omega)) (by omega)

section
variable {s : State} (hpos : 1 ≤ s.symLen.toNat) (hle : s.symLen.toNat ≤ s.symDepth)
include hpos hle

/-- COMPRESS packs its input in the table of the input where the payload fits. -/
theorem compressBody_of_fits (hdepths : DepthsLegal s.symDepth s.payDepth) {S : List Byte}
    (hS : S = s.symBytes 0 s.symLen.toNat) (hfit : 1 + ((codeString (tableFor S) S).length + 7) / 8 ≤ s.payDepth) :
    ∃ codes, codeTable codes = tableFor S
      ∧ treeCodes (builtState (countedState s)).nodeAt ((builtState (countedState s)).nodeCount.toNat - 1)
        = some codes
      ∧ TableOk (tableFor S) ∧ (∀ b ∈ S, (atSymbol (tableFor S) b).hasCode = true)
      ∧ compressBody s = .finish (packedState (tabledState s codes) (codeString (tableFor S) S)) := by
  subst hS
  obtain ⟨codes, hc, hok, hcode, hend⟩ := compressBody_fits s hdepths (by omega) hle
  have htable := codeTable_eq_tableFor (s := countedState s) rfl
    (length_presentSymbols_countedState_ne_zero hpos) hc
  rw [htable] at hok hcode hend
  rw [length_frame_div] at hend
  obtain ⟨hlt, -⟩ | ⟨-, hb⟩ := hend
  · omega
  · exact ⟨codes, htable, hc, hok, hcode, hb⟩

/-- COUNT, BUILD, GEN and ENCODE leave what COMPRESS leaves, but for LAST_OP. -/
theorem exec_stages_of_fits {S : List Byte} {codes : List (Byte × Bits)}
    (htree : treeCodes (builtState (countedState s)).nodeAt ((builtState (countedState s)).nodeCount.toNat - 1)
      = some codes)
    (hS : S = s.symBytes 0 s.symLen.toNat) (hcode : ∀ b ∈ S, (atSymbol (codeTable codes) b).hasCode = true)
    (hfit : 1 + ((codeString (codeTable codes) S).length + 7) / 8 ≤ s.payDepth) :
    ∃ s1 s2 s3, exec .count s = .next s1 ∧ exec .build s1 = .next s2 ∧ exec .gen s2 = .next s3
      ∧ exec .encode s3 = .next (complete Instr.encode.opcode .none
        (packedState (tabledState s codes) (codeString (codeTable codes) S))) := by
  subst hS
  have hne : s.symLen.toNat ≠ 0 := Nat.ne_of_gt hpos
  have hcoded : ∀ i, i < s.symLen.toNat → (atSymbol (codeTable codes) (s.symByte i)).len ≠ 0 := fun i hi =>
    CodeEntry.hasCode_iff_len_ne_zero.1 (hcode _ (mem_symBytes.2 ⟨i, hi, rfl⟩))
  refine ⟨_, _, _, exec_count_of_fits hne hle,
    exec_build_of_present (length_presentSymbols_countedState_ne_zero hpos), exec_gen_of_codes rfl htree, ?_⟩
  rw [exec_encode_of_coded rfl (by exact hle) (by exact hne) (by exact hcoded) rfl, if_neg (by exact hfit.not_gt)]
  rfl

end

/-- DECODE of what ENCODE packed gives the symbols back, whatever command packed it (R229). -/
theorem exec_decode_of_packedState {g : State} {S : List Byte} {d : Bits} (hd : d = codeString g.code S)
    (hdepths : DepthsLegal g.symDepth g.payDepth) (hpos : 1 ≤ S.length) (hle : S.length ≤ g.symDepth)
    (hok : TableOk g.code) (hv : g.tableValid = true) (hcode : ∀ b ∈ S, (atSymbol g.code b).hasCode = true)
    (hfit : 1 + (d.length + 7) / 8 ≤ g.payDepth) (op : Byte) :
    exec .decode (complete op .none (packedState g d)) = .next (complete Instr.decode.opcode .none
      (decoded (packedState g d) (padCount d.length) d S S.length)) := by
  subst hd
  rw [← length_frame_div] at hfit
  have hb := decodeBody_packed (v := complete op .none (packedState g (codeString g.code S))) (g := g)
    hle hpos hok hv hcode hfit hdepths.pay_le rfl rfl
  rw [exec_eq, bodyOf, hb]
  rfl

/-- After DECODE the emitted symbols are in SYM, and beyond them nothing is written (R220). -/
theorem decoded_symByte (s : State) (pad : Nat) (d : Bits) (out : List Byte) (len i : Nat) :
    (decoded s pad d out len).symByte i = out[i]?.getD (s.symByte i) := by
  rw [State.symByte, decoded, lookup_storeBytes]
  by_cases hi : i < out.length
  · simp [hi]
  · simp [hi, State.symByte]

theorem getElem?_symBytes {s : State} {n i : Nat} (hi : i < n) : (s.symBytes 0 n)[i]? = some (s.symByte i) := by
  simp [State.symBytes, hi]

/-- Settles O54: both routes leave one packed payload up to the completion record, which DECODE overwrites. -/
theorem compressThenDecodeIsIdentity : Obligations.CompressThenDecodeIsIdentity := by
  intro s hdepths hpos hle hfits
  have hfit := hfits _ rfl
  have hlen : (s.symBytes 0 s.symLen.toNat).length = s.symLen.toNat := length_symBytes s 0 _
  obtain ⟨codes, htable, htree, hok, hcode, hcompress⟩ := compressBody_of_fits hpos hle hdepths rfl hfit
  rw [← htable] at hfit hok hcode hcompress
  have hdecode := exec_decode_of_packedState (g := tabledState s codes) rfl hdepths (hpos.trans_eq hlen.symm)
    (hlen.trans_le hle) hok rfl hcode hfit
  obtain ⟨s1, s2, s3, hcount, hbuild, hgen, hencode⟩ := exec_stages_of_fits hpos hle htree rfl hcode hfit
  refine ⟨_, _, ?_, hdecode Instr.compress.opcode,
    ⟨s1, s2, s3, _, _, hcount, hbuild, hgen, hencode, hdecode Instr.encode.opcode, rfl⟩, rfl, ?_, fun i hi => ?_⟩
  · rw [exec_eq, bodyOf, hcompress]
    rfl
  · show BitVec.ofNat 32 (s.symBytes 0 s.symLen.toNat).length = s.symLen
    rw [hlen, BitVec.ofNat_toNat, BitVec.setWidth_eq]
  · rw [complete_symByte, decoded_symByte, getElem?_symBytes hi, Option.getD_some]

/-! ### How DECODE ends (R220, R224) -/

/-- The error of DECODE's checks 1 to 5, in their order (R224). -/
def headerError (s : State) : Option ErrCode :=
  if s.tableValid = false then some .missingCodeTable
  else if s.payDepth < s.payLen.toNat then some .capacity
  else if s.payLen.toNat = 0 ∨ 7 < (s.payByte 0).toNat ∨ 8 * (s.payLen.toNat - 1) < (s.payByte 0).toNat then
    some .corruptData
  else none

/-- The completion code of each end of the walk (R224). -/
def WalkEnd.errCode : WalkEnd → ErrCode
  | .complete => .none
  | .full     => .capacity
  | .leftover => .corruptData

/-- SYM_LEN after each end of the walk (R220, R224). -/
def WalkEnd.symLen (out : List Byte) : WalkEnd → Nat
  | .complete => out.length
  | .full     => 0
  | .leftover => 0

/-- DECODE is its header checks and then the walk. -/
theorem decodeBody_eq_elim (s : State) : decodeBody s = (headerError s).elim
    (decodeWalk s (s.payByte 0).toNat (decodeData s)) (Body.raise · s) := by
  obtain ⟨hv, hb⟩ | ⟨hv, hlt, hb⟩ | ⟨hv, hle, hbad, hb⟩ | ⟨hv, hle, h0, h7, h8, hb⟩ := decodeBody_cases s <;>
    rw [hb, headerError, hv]
  · rfl
  · rw [if_neg nofun, if_pos hlt, Option.elim_some]
  · rw [if_neg nofun, if_neg hle.not_gt, if_pos hbad, Option.elim_some]
  · rw [if_neg nofun, if_neg hle.not_gt, if_neg (by omega), Option.elim_none]

theorem exec_decode_of_headerError {s : State} {e : ErrCode} (h : headerError s = some e) :
    exec .decode s = .next (complete Instr.decode.opcode e s) := by
  rw [exec_eq, bodyOf, decodeBody_eq_elim, h, Option.elim_some, Body.record]

theorem exec_decode_of_walk {s : State} {w : WalkEnd} {out : List Byte} (h : headerError s = none)
    (hw : walk (revLookup s.code) s.symDepth (decodeData s) [] [] = (w, out)) :
    exec .decode s = .next (complete Instr.decode.opcode w.errCode
      (decoded s (s.payByte 0).toNat (decodeData s) out (w.symLen out))) := by
  rw [exec_eq, bodyOf, decodeBody_eq_elim, h, Option.elim_none, decodeWalk, hw]
  cases w <;> rfl

/-- A payload passes the header checks where each check does. -/
theorem headerError_eq_none {s : State} (hv : s.tableValid = true) (hpos : 1 ≤ s.payLen.toNat)
    (hle : s.payLen.toNat ≤ s.payDepth) (h7 : (s.payByte 0).toNat ≤ 7)
    (hpad : (s.payByte 0).toNat ≤ 8 * (s.payLen.toNat - 1)) : headerError s = none := by
  rw [headerError, if_neg (by simp [hv]), if_neg hle.not_gt, if_neg (by omega)]

/-- Settles O46: each check that fails, where those before it pass, decides the header's error. -/
theorem decodeHeaderErrorsInOrder : Obligations.DecodeHeaderErrorsInOrder := by
  intro s
  refine ⟨fun hv => ?_, fun hv hlt => ?_, fun hv h0 => ?_, fun hv hle _ h7 => ?_, fun hv hle _ _ hpad => ?_⟩ <;>
    refine exec_decode_of_headerError ?_ <;> rw [headerError, hv]
  · rfl
  · rw [if_neg nofun, if_pos hlt]
  · rw [if_neg nofun, if_neg (by omega), if_pos (.inl h0)]
  · rw [if_neg nofun, if_neg hle.not_gt, if_pos (.inr (.inl h7))]
  · rw [if_neg nofun, if_neg hle.not_gt, if_pos (.inr (.inr hpad))]

/-! ### The data bits (R220, R225) -/

theorem decodeData_eq_take (s : State) : decodeData s = (unpackMSB (s.payBytes 1 (s.payLen.toNat - 1))).take
    (8 * (s.payLen.toNat - 1) - (s.payByte 0).toNat) := by
  rw [decodeData, payloadData, length_unpackMSB, State.payBytes, List.length_map, List.length_range']

theorem length_decodeData (s : State) :
    (decodeData s).length = 8 * (s.payLen.toNat - 1) - (s.payByte 0).toNat := by
  simp [decodeData_eq_take, State.payBytes]

/-- The data bits are the payload's bits after the header, most significant bit first, the padding left out. -/
theorem getElem?_decodeData {s : State} {q : Nat} (hq : q < 8 * (s.payLen.toNat - 1) - (s.payByte 0).toNat) :
    (decodeData s)[q]? = some ((s.payByte (1 + q / 8)).getMsbD (q % 8)) := by
  have hbyte : q / 8 < s.payLen.toNat - 1 := by omega
  rw [decodeData_eq_take, List.getElem?_take_of_lt hq, getElem?_unpackMSB, State.payBytes, List.getElem?_map,
    List.getElem?_range' hbyte, Nat.one_mul]
  rfl

theorem decodeData_congr {s u : State} (hlen : u.payLen = s.payLen) (hheader : u.payByte 0 = s.payByte 0)
    (hbits : ∀ q, q < 8 * (s.payLen.toNat - 1) - (s.payByte 0).toNat →
      (u.payByte (1 + q / 8)).getMsbD (q % 8) = (s.payByte (1 + q / 8)).getMsbD (q % 8)) :
    decodeData u = decodeData s := by
  refine List.ext_getElem? fun q => ?_
  obtain hq | hq := Nat.lt_or_ge q (8 * (s.payLen.toNat - 1) - (s.payByte 0).toNat)
  · rw [getElem?_decodeData hq, getElem?_decodeData (by rwa [hlen, hheader]), hbits q hq]
  · rw [List.getElem?_eq_none (by rwa [length_decodeData, hlen, hheader]),
      List.getElem?_eq_none (by rwa [length_decodeData])]

/-- Settles O50: both payloads pass the same checks and have the same data bits, which is all DECODE reads. -/
theorem decodeIgnoresPaddingBits : Obligations.DecodeIgnoresPaddingBits := by
  intro s t P hheader hbits ht
  have hchecks : headerError { s with pay := P } = headerError s := by
    rw [headerError, hheader]
    rfl
  have hdata : decodeData { s with pay := P } = decodeData s := decodeData_congr rfl hheader hbits
  cases he : headerError s with
  | some e =>
    cases (exec_decode_of_headerError he).symm.trans ht
    exact exec_decode_of_headerError (hchecks.trans he)
  | none =>
    cases hw : walk (revLookup s.code) s.symDepth (decodeData s) [] [] with
    | mk w out =>
      cases (exec_decode_of_walk he hw).symm.trans ht
      rw [exec_decode_of_walk (w := w) (out := out) (hchecks.trans he) (by rw [hdata]; exact hw), hdata, hheader]
      rfl

/-- Settles O49: the walk over no data bits is complete at once. -/
theorem decodeOfHeaderAlone : Obligations.DecodeOfHeaderAlone := by
  intro s hdepths hv hlen h0
  have hpay := hdepths.pay_two
  have hlen1 : s.payLen.toNat = 1 := congrArg BitVec.toNat hlen
  have hpad : (s.payByte 0).toNat = 0 := congrArg BitVec.toNat h0
  have hdata : decodeData s = [] := List.eq_nil_of_length_eq_zero (by rw [length_decodeData]; omega)
  have hcheck : headerError s = none := headerError_eq_none hv (by omega) (by omega) (by omega) (by omega)
  rw [exec_decode_of_walk hcheck (w := .complete) (out := []) (by rw [hdata]; rfl), hdata, hpad]
  rfl

/-! ### Splits of a bit string into codes (R222, R231) -/

/-- No beginning of a rest is a code: the decoder's buffer never matches in it. -/
def NoCodeBegins (code : Vector CodeEntry 256) (rest : Bits) : Prop :=
  ∀ b, (atSymbol code b).hasCode = true → ¬ (atSymbol code b).bits <+: rest

theorem noCodeBegins_nil (code : Vector CodeEntry 256) : NoCodeBegins code [] := fun _ hb hpre =>
  List.ne_nil_of_length_pos ((CodeEntry.hasCode_iff _).1 hb) (List.prefix_nil.1 hpre)

theorem codeString_cons (code : Vector CodeEntry 256) (b : Byte) (S : List Byte) :
    codeString code (b :: S) = (atSymbol code b).bits ++ codeString code S := List.flatMap_cons

theorem codeString_concat (code : Vector CodeEntry 256) (S : List Byte) (b : Byte) :
    codeString code (S ++ [b]) = codeString code S ++ (atSymbol code b).bits := by
  rw [codeString, List.flatMap_append, List.flatMap_singleton, codeString]

/-- Every bit string splits: split off codes as long as one begins what is left. -/
theorem exists_split (code : Vector CodeEntry 256) (d : Bits) : ∃ S rest,
    (∀ b ∈ S, (atSymbol code b).hasCode = true) ∧ d = codeString code S ++ rest ∧ NoCodeBegins code rest := by
  induction hn : d.length using Nat.strong_induction_on generalizing d with
  | _ n ih =>
    by_cases hrest : NoCodeBegins code d
    · exact ⟨[], d, nofun, rfl, hrest⟩
    · obtain ⟨b, hb, d', rfl⟩ : ∃ b, (atSymbol code b).hasCode = true ∧ (atSymbol code b).bits <+: d := by
        simpa [NoCodeBegins] using hrest
      have hpos := (CodeEntry.hasCode_iff _).1 hb
      rw [List.length_append] at hn
      obtain ⟨S, rest, hS, rfl, hno⟩ := ih d'.length (by omega) d' rfl
      exact ⟨b :: S, rest, List.forall_mem_cons.2 ⟨hb, hS⟩, by rw [codeString_cons, List.append_assoc], hno⟩

/-- In a table without a clash the split is unique: two splits begin with the same code. -/
theorem PrefixFree.split_unique {code : Vector CodeEntry 256} (h : PrefixFree code) {rest rest' : Bits}
    (hrest : NoCodeBegins code rest) (hrest' : NoCodeBegins code rest') {S S' : List Byte}
    (hS : ∀ b ∈ S, (atSymbol code b).hasCode = true) (hS' : ∀ b ∈ S', (atSymbol code b).hasCode = true)
    (heq : codeString code S' ++ rest' = codeString code S ++ rest) : S' = S ∧ rest' = rest := by
  induction S generalizing S' with
  | nil =>
    cases S' with
    | nil => exact ⟨rfl, heq⟩
    | cons c S' =>
      rw [codeString_cons, List.append_assoc] at heq
      exact absurd ⟨_, heq⟩ (hrest c (hS' c List.mem_cons_self))
  | cons b S ih =>
    rw [codeString_cons, List.append_assoc] at heq
    obtain ⟨hb, hStail⟩ := List.forall_mem_cons.1 hS
    cases S' with
    | nil => exact absurd ⟨_, heq.symm⟩ (hrest' b hb)
    | cons c S' =>
      obtain ⟨hc, hStail'⟩ := List.forall_mem_cons.1 hS'
      rw [codeString_cons, List.append_assoc] at heq
      have hbc : b = c :=
        (List.prefix_or_prefix_of_prefix (List.prefix_append _ _) (heq ▸ List.prefix_append _ _)).elim
          (h.eq_of_prefix hb hc) fun hcb => (h.eq_of_prefix hc hb hcb).symm
      subst hbc
      obtain ⟨rfl, hr⟩ := ih hStail hStail' (List.append_cancel_left heq)
      exact ⟨rfl, hr⟩

/-- Settles O48: a split exists in every table, and is the only one where no codes clash. -/
theorem everyBitStringSplitsIntoCodes : Obligations.EveryBitStringSplitsIntoCodes := by
  intro code d hok
  obtain ⟨S, rest, hS, rfl, hrest⟩ := exists_split code d
  exact ⟨S, rest, hS, rfl, hrest, fun S' rest' hS' heq hrest' =>
    hok.prefixFree.split_unique hrest hrest' hS hS' heq.symm⟩

/-! ### The walk over a split (R220, R222, R224) -/

section
variable {code : Vector CodeEntry 256} (h : PrefixFree code) {S : List Byte}
  (hS : ∀ b ∈ S, (atSymbol code b).hasCode = true)
include h hS

/-- The walk emits the codes' symbols and finds no more in a rest that no code begins. -/
theorem walk_split {depth : Nat} (hle : S.length ≤ depth) {rest : Bits} (hrest : NoCodeBegins code rest) :
    walk (revLookup code) depth (codeString code S ++ rest) [] []
      = (if rest = [] then .complete else .leftover, S) := by
  rw [walk_codeString h depth rest S [] hS (by simpa using hle), walk_leftover depth _ rest []]
  · rfl
  · rintro q - hq
    exact revLookup_none.2 fun b hb hbits => hrest b hb (by rwa [hbits])

/-- One code more than the depth stops the walk at the depth. -/
theorem walk_overfull {depth : Nat} (hlen : S.length = depth + 1) (rest : Bits) :
    walk (revLookup code) depth (codeString code S ++ rest) [] [] = (.full, S.take depth) := by
  obtain rfl | ⟨T, b, rfl⟩ := S.eq_nil_or_concat'
  · cases hlen
  · obtain rfl : T.length = depth := by simpa using hlen
    obtain ⟨hT, hb⟩ := List.forall_mem_append.1 hS
    rw [codeString_concat, List.append_assoc, walk_codeString h _ _ T [] hT (by simp),
      walk_code h (hb b List.mem_cons_self), List.nil_append, if_pos rfl, List.take_left]

end

/-- Settles O47: the walk over the split ends in one of its three ways, and `decoded` is what each leaves. -/
theorem decodeEmitsTheCodes : Obligations.DecodeEmitsTheCodes := by
  intro s S rest hdepths hv hok hpos hle h7 hpad hS d hd hsplit
  have hsym := hdepths.sym_le
  have hpay := hdepths.pay_le
  have hcheck := headerError_eq_none hv hpos hle h7 hpad
  obtain rfl : decodeData s = d := (decodeData_eq_take s).trans hd.symm
  have hbits := length_decodeData s
  refine ⟨?_, fun hne hno hfit => ?_, fun hlen => ?_⟩
  · rintro rfl hfit
    have hw := walk_split hok.prefixFree hS hfit (noCodeBegins_nil s.code)
    rw [← hsplit, if_pos rfl] at hw
    refine ⟨_, _, rfl, exec_decode_of_walk hcheck hw, ?_, ?_, decoded_symByte s _ _ S _⟩
    · rw [BitVec.toNat_ofNat]; omega
    · rw [BitVec.toNat_ofNat]; omega
  · have hw := walk_split hok.prefixFree hS hfit hno
    rw [← hsplit, if_neg hne] at hw
    exact ⟨_, _, rfl, exec_decode_of_walk hcheck hw, decoded_symByte s _ _ S _⟩
  · have hw := walk_overfull hok.prefixFree hS hlen rest
    rw [← hsplit] at hw
    exact ⟨_, _, rfl, exec_decode_of_walk hcheck hw, decoded_symByte s _ _ _ _⟩

end Sys2Proof.Machine

/-! SUPPORT. The family 45_composite_and_control.md: COMPRESS as its four stages one after another (R240), what it
leaves of its input's counts, tree, table and payload (R240, R244), NOP (R241), and with these the statements
about the composite and control commands. -/

namespace Sys2Proof.Machine

/-! ### A stage reads nothing of the completion record (R240, R262) -/

/-- BUILD after a completed command is BUILD before its record, which BUILD writes anew. -/
theorem exec_build_complete (op : Byte) (e : ErrCode) (s : State) :
    exec .build (complete op e s) = exec .build s := by
  by_cases h : (presentSymbols s.freq).length = 0
  · rw [exec_build_of_empty h, exec_build_of_empty (by exact h)]
    rfl
  · rw [exec_build_of_present h, exec_build_of_present (by exact h)]
    rfl

/-- GEN after a completed command is GEN before its record, which GEN writes anew. -/
theorem exec_gen_complete (op : Byte) (e : ErrCode) (s : State) :
    exec .gen (complete op e s) = exec .gen s := by
  obtain ⟨hv, -⟩ | ⟨hv, hc, hb⟩ | ⟨codes, hv, hc, -⟩ := genBody_cases s
  · rw [exec_gen_of_not_treeValid hv, exec_gen_of_not_treeValid (by exact hv)]
    rfl
  · obtain ⟨hno, -⟩ | ⟨-, -, hb'⟩ | ⟨_, -, hc', -⟩ := genBody_cases (complete op e s)
    · cases hv.symm.trans hno
    · rw [exec_eq, exec_eq, bodyOf, hb, hb', Body.record]
    · cases hc.symm.trans hc'
  · rw [exec_gen_of_codes hv hc, exec_gen_of_codes (by exact hv) (by exact hc)]
    rfl

/-- ENCODE after a completed command is ENCODE before its record: every check, and every end, is the same. -/
theorem exec_encode_complete (op : Byte) (e : ErrCode) (s : State) :
    exec .encode (complete op e s) = exec .encode s := by
  simp only [exec_eq, bodyOf, encodeBody, apply_ite (Body.record _)]
  rfl

/-! ### COMPRESS is its stages (R240) -/

theorem Body.andThen_assoc (b : Body) (f g : State → Body) :
    (b.andThen f).andThen g = b.andThen fun u => (f u).andThen g := by cases b <;> rfl

theorem compressBody_eq_stages (s : State) : compressBody s =
    (countBody s).andThen fun u => (buildBody u).andThen fun v => (genBody v).andThen encodeBody := by
  rw [compressBody, Body.andThen_assoc, Body.andThen_assoc]

section
variable {i : Instr} {s t : State} (h : exec i s = .next t)
include h

/-- A command's body recorded under another opcode differs in LAST_OP only. -/
theorem record_bodyOf_of_exec (op : Byte) : (bodyOf i s).record op = .next { t with lastOp := op } := by
  obtain ⟨e, u, hu, rfl⟩ := (exec_next i s t).1 h
  exact (Body.record_next _ _ _).2 ⟨e, u, hu, rfl⟩

/-- A stage that ends with an error ends the whole (R240). -/
theorem record_andThen_of_error (he : t.errCode ≠ .none) (f : State → Body) (op : Byte) :
    ((bodyOf i s).andThen f).record op = .next { t with lastOp := op } := by
  obtain ⟨e, u, hu, rfl⟩ := (exec_next i s t).1 h
  cases hb : bodyOf i s with
  | finish v => rw [hb] at hu; cases hu; exact absurd rfl he
  | raise e' v => rw [hb] at hu; cases hu; rfl
  | stuck r => rw [hb] at hu; cases hu

/-- After a stage without an error the next runs in the state it leaves before its record: a `raise` of the first
three names an error (R240). -/
theorem exists_andThen_eq_of_no_error (hi : i = .count ∨ i = .build ∨ i = .gen) (he : t.errCode = .none) :
    ∃ u, t = complete i.opcode .none u ∧ ∀ f, (bodyOf i s).andThen f = f u := by
  obtain ⟨e, u, hu, rfl⟩ := (exec_next i s t).1 h
  obtain rfl : e = .none := he
  refine ⟨u, rfl, fun f => ?_⟩
  suffices hb : bodyOf i s = .finish u by rw [hb, Body.andThen]
  obtain rfl | rfl | rfl := hi <;> rw [bodyOf] at hu ⊢
  · obtain ⟨-, hb⟩ | ⟨-, -, hb⟩ | ⟨-, -, hb⟩ := countBody_cases s <;> rw [hb] at hu ⊢ <;> cases hu
    rfl
  · obtain ⟨-, hb⟩ | ⟨-, hb⟩ := buildBody_cases s <;> rw [hb] at hu ⊢ <;> cases hu
    rfl
  · obtain ⟨-, hb⟩ | ⟨-, -, hb⟩ | ⟨_, -, -, hb⟩ := genBody_cases s <;> rw [hb] at hu ⊢ <;> cases hu
    rfl

end

/-- Settles O51: stage by stage, an error ends COMPRESS, and without one it goes on in the stage's state. -/
theorem compressIsItsStages : Obligations.CompressIsItsStages := by
  intro s s1 h1
  have hs : exec .compress s = ((bodyOf .count s).andThen fun u => (bodyOf .build u).andThen fun v =>
      (bodyOf .gen v).andThen encodeBody).record 0x07 :=
    (exec_eq .compress s).trans (congrArg (Body.record 0x07) (compressBody_eq_stages s))
  refine ⟨fun he => hs.trans (record_andThen_of_error h1 he _ _), fun s2 he h2 => ?_⟩
  obtain ⟨u1, rfl, hgo⟩ := exists_andThen_eq_of_no_error h1 (.inl rfl) he
  rw [exec_build_complete] at h2
  rw [hgo] at hs
  refine ⟨fun he => hs.trans (record_andThen_of_error h2 he _ _), fun s3 he h3 => ?_⟩
  obtain ⟨u2, rfl, hgo⟩ := exists_andThen_eq_of_no_error h2 (.inr (.inl rfl)) he
  rw [exec_gen_complete] at h3
  rw [hgo] at hs
  refine ⟨fun he => hs.trans (record_andThen_of_error h3 he _ _), fun s4 he h4 => ?_⟩
  obtain ⟨u3, rfl, hgo⟩ := exists_andThen_eq_of_no_error h3 (.inr (.inr rfl)) he
  rw [exec_encode_complete] at h4
  rw [hgo] at hs
  exact hs.trans (record_bodyOf_of_exec h4 _)

/-- Settles O52: both are errors of the first stage (O51), which changes only its record. -/
theorem compressInputErrors : Obligations.CompressInputErrors := fun s =>
  ⟨fun h => (compressIsItsStages s _ (exec_count_of_depth_lt h)).1 (by decide : ErrCode.capacity ≠ .none),
    fun h => (compressIsItsStages s _ (exec_count_of_symLen_eq_zero h)).1
      (by decide : ErrCode.emptyInput ≠ .none)⟩

/-! ### What COMPRESS leaves of its input (R240, R244) -/

/-- The counts, a tree and the code table of the symbols `S`, with both flags set (R140, R160, R180). -/
structure TabledFor (S : List Byte) (t : State) : Prop where
  treeOk     : TreeOk t
  treeValid  : t.treeValid = true
  tableOk    : TableOk t.code
  tableValid : t.tableValid = true
  code       : t.code = tableFor S
  coded      : ∀ b ∈ S, (atSymbol t.code b).hasCode = true
  maxLen     : t.maxLen = longestCode t.code
  counts     : ∀ b, (atSymbol t.freq b).toNat = S.count b

theorem TabledFor.complete {S : List Byte} {t : State} (h : TabledFor S t) (op : Byte) (e : ErrCode) :
    TabledFor S (complete op e t) :=
  { h with treeOk := h.treeOk.congr rfl rfl rfl rfl }

theorem TabledFor.packedState {S : List Byte} {t : State} (h : TabledFor S t) (d : Bits) :
    TabledFor S (packedState t d) :=
  { h with treeOk := h.treeOk.congr rfl rfl rfl rfl }

section
variable {s : State} {S : List Byte} {d : Bits} (hdepths : DepthsLegal s.symDepth s.payDepth)
  (hpos : 1 ≤ s.symLen.toNat) (hle : s.symLen.toNat ≤ s.symDepth)
  (hS : S = s.symBytes 0 s.symLen.toNat) (hd : d = codeString (tableFor S) S)
include hdepths hpos hle hS hd

/-- On an input COUNT accepts, the first three stages succeed, and the size of the payload decides (R244). -/
theorem exec_compress_of_accepted : ∃ codes, TabledFor S (tabledState s codes)
    ∧ exec .compress s = .next (complete Instr.compress.opcode
        (if s.payDepth < 1 + (d.length + 7) / 8 then .capacity else .none)
        (if s.payDepth < 1 + (d.length + 7) / 8 then tabledState s codes
          else packedState (tabledState s codes) d)) := by
  subst hS
  obtain ⟨codes, hc, hok, hcode, hend⟩ := compressBody_fits s hdepths (by omega) hle
  have hpresent := length_presentSymbols_countedState_ne_zero hpos
  have htable : codeTable codes = tableFor (s.symBytes 0 s.symLen.toNat) :=
    codeTable_eq_tableFor (s := countedState s) rfl hpresent hc
  refine ⟨codes, ?_, ?_⟩
  · exact {
      treeOk := (builtState_treeOk _ hpresent).congr rfl rfl rfl rfl
      treeValid := rfl
      tableOk := hok
      tableValid := rfl
      code := htable
      coded := hcode
      maxLen := rfl
      counts := countSymbols_toNat _ (by rw [length_symBytes]; exact s.symLen.isLt) }
  · rw [htable, ← hd, length_frame_div] at hend
    obtain ⟨hlt, hb⟩ | ⟨hfit, hb⟩ := hend
    · rw [if_pos hlt, if_pos hlt, exec_eq, bodyOf, hb, Body.record]
    · rw [if_neg hfit.not_gt, if_neg hfit.not_gt, exec_eq, bodyOf, hb, Body.record]

end

/-! ### The payload registers and bytes ENCODE leaves (R200, R201) -/

section
variable {s : State} {d : Bits} (hfit : 1 + (d.length + 7) / 8 ≤ s.payDepth) (hdepth : s.payDepth ≤ 2 ^ 21)
include hfit hdepth

theorem packedState_payLen_toNat : (packedState s d).payLen.toNat = 1 + (d.length + 7) / 8 := by
  rw [packedState, BitVec.toNat_ofNat, length_frame_div]
  omega

theorem packedState_bitLen_toNat : (packedState s d).bitLen.toNat = d.length := by
  rw [packedState, BitVec.toNat_ofNat]
  omega

theorem packedState_payBytes :
    (packedState s d).payBytes 0 (packedState s d).payLen.toNat = packMSB (frame d) := by
  have hlen : (packMSB (frame d)).length = (packedState s d).payLen.toNat := by
    rw [length_packMSB, length_frame_div, packedState_payLen_toNat hfit hdepth]
  have hread := map_range'_lookup s.pay (packMSB (frame d)) (Config.payAtReset s.resets) 0
    (packedState s d).payLen.toNat (by omega)
  rw [List.drop_zero, List.take_of_length_le hlen.le] at hread
  exact hread

end

theorem packedState_pad_toNat (s : State) (d : Bits) : (packedState s d).pad.toNat = padCount d.length :=
  Nat.mod_eq_of_lt (padCount_lt d.length)

/-- Settles O53: the first three stages leave counts, tree and table, and ENCODE's payload fits or does not. -/
theorem compressEncodesItsInput : Obligations.CompressEncodesItsInput := by
  intro s S d hdepths hpos hle hS hd
  obtain ⟨codes, htabled, hcompress⟩ := exec_compress_of_accepted hdepths hpos hle hS hd
  by_cases hlt : s.payDepth < 1 + (d.length + 7) / 8
  · rw [if_pos hlt, if_pos hlt] at hcompress
    obtain ⟨htree, htv, hok, hv, hcode, hcoded, hmax, hcount⟩ :=
      htabled.complete Instr.compress.opcode .capacity
    exact ⟨_, hcompress, htree, htv, hok, hv, hcode, hcoded, hmax, hcount, rfl, rfl, rfl,
      fun hfit => absurd hlt hfit.not_gt, fun _ => ⟨rfl, rfl, rfl, rfl, rfl⟩⟩
  · rw [if_neg hlt, if_neg hlt] at hcompress
    obtain ⟨htree, htv, hok, hv, hcode, hcoded, hmax, hcount⟩ :=
      (htabled.packedState d).complete Instr.compress.opcode .none
    have hfit : 1 + (d.length + 7) / 8 ≤ (tabledState s codes).payDepth := Nat.not_lt.1 hlt
    have hdepth : (tabledState s codes).payDepth ≤ 2 ^ 21 := hdepths.pay_le
    have hlen := packedState_payLen_toNat hfit hdepth
    exact ⟨_, hcompress, htree, htv, hok, hv, hcode, hcoded, hmax, hcount, rfl, rfl, rfl,
      fun _ => ⟨rfl, hlen, packedState_bitLen_toNat hfit hdepth, packedState_pad_toNat (tabledState s codes) d,
        packedState_payBytes hfit hdepth, fun _ hi =>
          packedState_payByte_of_le (s := tabledState s codes) (hlen.ge.trans hi)⟩,
      fun h => absurd h hlt⟩

/-! ### NOP (R241) -/

theorem exec_nop (s : State) : exec .nop s = .next (complete Instr.nop.opcode .none s) := by
  rw [exec_eq, bodyOf, nopBody, Body.record]

/-- Settles O30: NOP's body changes nothing, so its record is the whole effect. -/
theorem nopCompletes : Obligations.NopCompletes :=
  ⟨exec_nop, _, exec_nop State.reset, by decide⟩

end Sys2Proof.Machine

/-! SUPPORT. The family 60_exceptions.md: the completion record of every command (R262) and of an illegal word
(R242), what they leave unchanged (R265, R268), and with these the statements about completion. -/

namespace Sys2Proof.Machine

/-! ### The completion record of a command (R262, R265) -/

/-- Settles O7: a command ends in `complete`, which writes the record, on a state in which its body has kept
every other field the statement names. -/
theorem everyCommandEndsInItsRecord : Obligations.EveryCommandEndsInItsRecord := by
  intro i s t h
  obtain ⟨e, u, hbody, rfl⟩ := (exec_next i s t).1 h
  have hkeeps := bodyOf_keeps hbody
  exact ⟨rfl, rfl, rfl, rfl, hkeeps.overrun, hkeeps.symDepth, hkeeps.payDepth, hkeeps.agenda,
    hkeeps.readData, hkeeps.draws, hkeeps.resets⟩

/-! ### The completion record of an illegal word (R242, R268) -/

theorem engineStep_of_illegalWord {u : State} {w : Word} (hp : u.pending = some w) (hw : IllegalWord w) :
    engineStep u = .next (complete (w.extractLsb' 0 8) .illegalCommand u) := by
  obtain ⟨r, hd⟩ := decode_eq_error_iff.2 hw
  simp only [engineStep, hp, hd]
  rfl

/-- Settles O5: the engine's next event finds the word still latched, and the decoder refuses it. -/
theorem illegalWordLeavesOnlyItsRecord : Obligations.IllegalWordLeavesOnlyItsRecord := by
  intro s u w hu hp hw
  rw [step_engine hu]
  obtain ⟨_, rfl⟩ := hu.eq
  exact engineStep_of_illegalWord hp hw

end Sys2Proof.Machine

/-! SUPPORT. The family 70_reset_and_hazards.md: either reset leaves a state that a soft reset leaves (R290, R291),
and with this the statement about what STATUS, the constants and the commands answer in it (R292). -/

namespace Sys2Proof.Machine

/-! ### The state after a reset (R60, R290, R291) -/

/-- A hardware reset is a soft reset with the buffers drawn anew (R290). -/
theorem hardReset_eq_softReset (s : State) :
    hardReset s = softReset { s with sym := [], pay := [], resets := s.resets + 1 } := rfl

/-- What holds after every soft reset holds after either reset. -/
theorem exists_eq_softReset {s r : State} (h : r = busWrite Reg.ctrl.addr 1 s ∨ r = hardReset s) :
    ∃ u, r = softReset u := by
  obtain rfl | rfl := h
  · exact ⟨s, (ctrlWriteSoftResets s 1).2.2 (by decide)⟩
  · exact ⟨_, hardReset_eq_softReset s⟩

theorem softReset_busy (s : State) : (softReset s).busy = false := rfl

/-- STATUS shows no byte of a buffer, so it reads 0 after a soft reset as after a hardware reset. -/
theorem softReset_statusWord (s : State) : (softReset s).statusWord = 0 := hardReset_statusWord s

theorem atSymbol_softReset_freq (s : State) (b : Byte) : atSymbol (softReset s).freq b = 0 :=
  atSymbol_replicate b 0

theorem atSymbol_softReset_code (s : State) (b : Byte) : atSymbol (softReset s).code b = CodeEntry.empty :=
  atSymbol_replicate b CodeEntry.empty

/-! ### Commands after a reset (R292) -/

/-- TABLE_VALID is 0 after a reset, so refusing the empty table clears nothing (R193, R292). -/
theorem exec_tableCommit_softReset (s : State) :
    exec .tableCommit (softReset s) = .next (complete Instr.tableCommit.opcode .tableFormat (softReset s)) :=
  (tableCommitRefuses (softReset s)).1 fun b => congrArg CodeEntry.len (atSymbol_softReset_code s b)

/-- Settles O29: either reset leaves what a soft reset leaves, where no count, tree, table or input is. -/
theorem commandsAfterReset : Obligations.CommandsAfterReset := by
  intro s r hr
  obtain ⟨u, rfl⟩ := exists_eq_softReset hr
  obtain ⟨hid, hversion, -⟩ := constantsNeverChange (softReset u)
  have hstatus : (busRead Reg.status.addr (softReset u)).readData = 0 := by
    rw [busRead_reg_idle (softReset_busy u)]
    exact softReset_statusWord u
  exact ⟨hstatus, congrArg State.readData hid, congrArg State.readData hversion,
    (buildEmptyInput _).1 (atSymbol_softReset_freq u),
    genNeedsATree _ (softReset_treeValid u),
    (encodeErrorsInOrder _).1 (softReset_tableValid u),
    (decodeHeaderErrorsInOrder _).1 (softReset_tableValid u),
    exec_tableCommit_softReset u,
    (countErrors _).2 (congrArg BitVec.toNat (softReset_symLen u))⟩

end Sys2Proof.Machine
